-- ==== Sys2Proof/Word.lean ====
section
/-! DEFINITION. The word types of the core: bytes of IBUF and OBUF, 32-bit registers (00_scope R12), 13-bit slot
indices of the match table (00_scope R8). -/

namespace Sys2Proof

/-- One byte of IBUF, OBUF or of the output stream (10_state R38). -/
abbrev Byte := BitVec 8

/-- A 32-bit register, command word or counter (00_scope R12, R16). -/
abbrev Word := BitVec 32

/-- An index of the match table, `0 .. 2^13 - 1` (00_scope R8, R10). -/
abbrev SlotIndex := BitVec 13

end Sys2Proof
end

