-- ==== Sys2Proof/Syntax.lean ====
section
/-! DEFINITION. The nine commands, one constructor per row of spec/opcode_table.json (30_encoding R93), with the
fields of the command word as the bits they are (30_encoding R91). -/

namespace Sys2Proof

/-- A command of the core (30_encoding R90 to R93). -/
inductive Instr where
  /-- one-time table initialisation (40_tables_init R141) -/
  | tblinit
  /-- start a session: LEVEL (one bit) and FMT (two bits, 3 is reserved) (45_stream_commands R237) -/
  | init (level : BitVec 1) (fmt : BitVec 2)
  /-- write the envelope header ahead of the first ENCODE (45_stream_commands R238) -/
  | sendHeader
  /-- compress IN_LEN input bytes; MORE = 1 says that more input follows (45_stream_commands R239) -/
  | encode (more : BitVec 1)
  /-- flush and write the trailer (45_stream_commands R240) -/
  | finish
  /-- CRC-32 of one byte, from SEED (41_checksum R166) -/
  | crc32Byte (byte : Byte)
  /-- CRC-32 of the input, from SEED (41_checksum R167) -/
  | crc32Block
  /-- Adler-32 of one byte, from SEED (41_checksum R168) -/
  | adler32Byte (byte : Byte)
  /-- Adler-32 of the input, from SEED (41_checksum R169) -/
  | adler32Block
deriving DecidableEq, Repr

end Sys2Proof
end

