-- ==== Sys2Proof/WellFormed.lean ====
section
/-! DEFINITION. Which terms of Instr are commands: the fields are bits of their own width, so the one check left is
INIT's extra condition FMT != 3 (30_encoding R93, R97). -/

namespace Sys2Proof

/-- The command has a legal encoding (30_encoding R93, R97). -/
def Instr.wellFormed : Instr → Bool
  | .init _ fmt => decide (fmt ≠ 3#2)
  | .tblinit => true
  | .sendHeader => true
  | .encode _ => true
  | .finish => true
  | .crc32Byte _ => true
  | .crc32Block => true
  | .adler32Byte _ => true
  | .adler32Block => true

end Sys2Proof
end

