-- ==== Sys2Proof/Decode.lean ====
section
/-! DEFINITION. Decoding of a command word, total on all 2^32 words and rejecting by name (30_encoding R95 to R97),
and after it the encoder, written from the same fields and formats (30_encoding R91 to R93). -/

namespace Sys2Proof

/-- Why a word is no command (30_encoding R95, R97). -/
inductive DecodeReject where
  /-- the OPC field is `0x0`, `0x6`, `0x7` or `0xC .. 0xF` -/
  | reservedOpcode
  /-- a reserved bit or a field the command does not use is not 0 (30_encoding R96) -/
  | strayBits
  /-- INIT with FMT = 3 -/
  | reservedFormat
deriving DecidableEq, Repr

/-- The rows of the opcode map (30_encoding R93). -/
inductive OpRow where
  | tblinit | init | sendHeader | encode | finish | crc32Byte | crc32Block | adler32Byte | adler32Block
deriving DecidableEq, Repr

/-- Field OPC, bits `[3:0]` (30_encoding R91). -/
def opcField (w : Word) : BitVec 4 := w.extractLsb' 0 4

/-- Field MORE, bit `[4]`. -/
def moreField (w : Word) : BitVec 1 := w.extractLsb' 4 1

/-- Field LEVEL, bit `[5]`. -/
def levelField (w : Word) : BitVec 1 := w.extractLsb' 5 1

/-- Field FMT, bits `[7:6]`. -/
def fmtField (w : Word) : BitVec 2 := w.extractLsb' 6 2

/-- Field BYTE, bits `[15:8]`. -/
def byteField (w : Word) : Byte := w.extractLsb' 8 8

/-- The row that has this operation code, none for a reserved one (30_encoding R93, R97). -/
def rowOf (opc : BitVec 4) : Option OpRow :=
  if opc = 0x1#4 then some .tblinit
  else if opc = 0x2#4 then some .init
  else if opc = 0x3#4 then some .sendHeader
  else if opc = 0x4#4 then some .encode
  else if opc = 0x5#4 then some .finish
  else if opc = 0x8#4 then some .crc32Byte
  else if opc = 0x9#4 then some .crc32Block
  else if opc = 0xA#4 then some .adler32Byte
  else if opc = 0xB#4 then some .adler32Block
  else none

/-- The row's fixed value, column `match` of 30_encoding R93. -/
def OpRow.pattern : OpRow → Word
  | .tblinit => 0x00000001#32
  | .init => 0x00000002#32
  | .sendHeader => 0x00000003#32
  | .encode => 0x00000004#32
  | .finish => 0x00000005#32
  | .crc32Byte => 0x00000008#32
  | .crc32Block => 0x00000009#32
  | .adler32Byte => 0x0000000A#32
  | .adler32Block => 0x0000000B#32

/-- The row's fixed bits, column `mask` of 30_encoding R93. -/
def OpRow.mask : OpRow → Word
  | .tblinit => 0xFFFFFFFF#32
  | .init => 0xFFFFFF1F#32
  | .sendHeader => 0xFFFFFFFF#32
  | .encode => 0xFFFFFFEF#32
  | .finish => 0xFFFFFFFF#32
  | .crc32Byte => 0xFFFF00FF#32
  | .crc32Block => 0xFFFFFFFF#32
  | .adler32Byte => 0xFFFF00FF#32
  | .adler32Block => 0xFFFFFFFF#32

/-- The command of a row, with its fields taken from the word (30_encoding R91, R94). -/
def OpRow.build : OpRow → Word → Instr
  | .tblinit, _ => .tblinit
  | .init, w => .init (levelField w) (fmtField w)
  | .sendHeader, _ => .sendHeader
  | .encode, w => .encode (moreField w)
  | .finish, _ => .finish
  | .crc32Byte, w => .crc32Byte (byteField w)
  | .crc32Block, _ => .crc32Block
  | .adler32Byte, w => .adler32Byte (byteField w)
  | .adler32Block, _ => .adler32Block

/-- The decoding procedure of 30_encoding R95. -/
def decode (w : Word) : Except DecodeReject Instr :=
  match rowOf (opcField w) with
  | none => .error .reservedOpcode
  | some row =>
    if w &&& row.mask ≠ row.pattern then .error .strayBits
    else if row = .init ∧ fmtField w = 3#2 then .error .reservedFormat
    else .ok (row.build w)

/-- The instruction the decoder reads from a table row's word: a command is one 32-bit word that is a value, so the
table's numbering of bits is the word's own (30_encoding R90, 20_memory R67); bits above `nbits` are 0. -/
def decodeTableWord (nbits w : Nat) : Option Instr :=
  match decode (BitVec.ofNat 32 (w % 2 ^ nbits)) with
  | .ok i => some i
  | .error _ => none

/-- The command's word (30_encoding R92: formats N, I, E and B). -/
def encode : Instr → Word
  | .tblinit => 0x1#32
  | .init level fmt => 0x2#32 ||| (level.setWidth 32 <<< 5) ||| (fmt.setWidth 32 <<< 6)
  | .sendHeader => 0x3#32
  | .encode more => 0x4#32 ||| (more.setWidth 32 <<< 4)
  | .finish => 0x5#32
  | .crc32Byte byte => 0x8#32 ||| (byte.setWidth 32 <<< 8)
  | .crc32Block => 0x9#32
  | .adler32Byte byte => 0xA#32 ||| (byte.setWidth 32 <<< 8)
  | .adler32Block => 0xB#32

end Sys2Proof
end

