-- ==== Sys2Proof/Config.lean ====
section
/-! DEFINITION. What is fixed for one core and is no part of its changing state: the size of the index spaces, the form
in which the spec's one open function, HASH3 (00_scope R10), is given to the model, and the one free value. The numeric parameters of
00_scope R8, R9 and R11 stand in Machine/Params.lean. BUFFER_BINDING and REG_BASE, the spec's two other open
parameters, are needed by no model (93_implementation_defined U12). -/

namespace Sys2Proof.Config

/-- IBUF and OBUF indices are 32-bit numbers: `0 ..< 2^32` (00_scope R12, `POS_BITS = 32`). -/
abbrev indexSpace : Nat := 4294967296

/-- `2^13` slots of the match table (00_scope R8, `HASH_BITS = 13`). -/
abbrev slotCount : Nat := 8192

/-- HASH3 as plain data: pairs of a 24-bit prefix `b0 + 256 * b1 + 65536 * b2` and its slot index; a prefix with no
pair hashes by HASH3_DEFAULT (42_match_finder R181). Every total function from three bytes to a slot index is given by
some list, so the parameter is as open as 00_scope R10 leaves it.
DESIGN CHOICE, entry 1: unsafe only where a claim fixes the list. -/
abbrev HashTable := List (Nat × SlotIndex)

/-- A free value: byte `index` of what the `n`-th command cut off by the hardware reset left in OBUF, "without meaning"
(70_reset_and_hazards R290, 93_implementation_defined U13). It has no body, so no claim can rest on its value. Entry 11. -/
opaque freeByte (n index : Nat) : Byte

end Sys2Proof.Config
end

