-- ==== Sys2Proof/Machine/Params.lean ====
section
/-! DEFINITION. The numeric parameters of 00_scope R8, R9, R11 and R12. -/

namespace Sys2Proof.Machine

/-- `MIN_MATCH`, also the length of the hashed prefix (00_scope R8). -/
abbrev minMatch : Nat := 3

/-- `MAX_MATCH` (00_scope R9). -/
abbrev maxMatch : Nat := 258

/-- `WINDOW` (00_scope R9). -/
abbrev window : Nat := 32768

/-- `ADLER_MOD` (00_scope R8). -/
abbrev adlerMod : Nat := 65521

/-- `CRC_POLY` (00_scope R12, 40_tables_init R142). -/
def crcPoly : Word := 0xEDB88320#32

/-- The zlib header bytes `ZLIB_CMF`, `ZLIB_FLG` (00_scope R11, 45_stream_commands R231). -/
def zlibHeader : List Byte := [0x78#8, 0x01#8]

/-- The ten gzip header bytes: magic, method 8, `GZIP_FLG`, four mtime bytes, `GZIP_XFL`, `GZIP_OS`
(00_scope R11, 45_stream_commands R232). -/
def gzipHeader : List Byte :=
  [0x1F#8, 0x8B#8, 0x08#8, 0x00#8, 0x00#8, 0x00#8, 0x00#8, 0x00#8, 0x04#8, 0x03#8]

/-- `FINISH_CAP`, the capacity the host owes FINISH (00_scope R8, 70_reset_and_hazards R298). -/
abbrev finishCap : Nat := 12

/-- `SEND_HEADER_CAP`, the capacity the host owes SEND_HEADER (70_reset_and_hazards R298). -/
abbrev sendHeaderCap : Nat := 10

/-- `WCE(n)`, the capacity the host owes an ENCODE of `n` bytes (70_reset_and_hazards R298). -/
def wce (n : Nat) : Nat := n + n / 8 + 12

end Sys2Proof.Machine
end

