-- ==== Sys2Proof/Machine/Memory.lean ====
section
/-! DEFINITION. Sparse storage as lists of (address, content) pairs in one canonical form: the byte spaces IBUF and
OBUF (20_memory R60 to R64) and the match table (10_state R35). -/

namespace Sys2Proof.Machine

/-- The content listed for address `a`. -/
def cellAt {β : Type} : List (Nat × β) → Nat → Option β
  | [], _ => none
  | (k, v) :: rest, a => if a = k then some v else cellAt rest a

/-- List content `v` for address `a`, keeping addresses rising. -/
def putCell {β : Type} : List (Nat × β) → Nat → β → List (Nat × β)
  | [], a, v => [(a, v)]
  | (k, w) :: rest, a, v =>
    if a < k then (a, v) :: (k, w) :: rest
    else if a = k then (a, v) :: rest
    else (k, w) :: putCell rest a v

/-- Take address `a` off the list. -/
def dropCell {β : Type} (cells : List (Nat × β)) (a : Nat) : List (Nat × β) :=
  cells.filter (fun c => decide (c.1 ≠ a))

/-- Addresses strictly rising. -/
def rising {β : Type} : List (Nat × β) → Bool
  | [] => true
  | [_] => true
  | (j, _) :: (k, w) :: rest => decide (j < k) && rising ((k, w) :: rest)

/-- A byte space: IBUF or OBUF (10_state R38). -/
abbrev Memory := List Host.Cell

/-- What a byte that nothing was bound or written to reads as. The spec calls such a read of IBUF platform-defined
(20_memory R76) and the core never reads OBUF.
DESIGN CHOICE, entries 4 and 5: unsafe for runs that read such a byte. -/
def Memory.unlisted : Byte := 0#8

/-- One byte, `MemRead` of 00_scope R14. -/
def Memory.read (mem : Memory) (a : Nat) : Byte := (cellAt mem a).getD Memory.unlisted

/-- Store one byte, `MemWrite` of 00_scope R14. -/
def Memory.write (mem : Memory) (a : Nat) (v : Byte) : Memory :=
  if v = Memory.unlisted then dropCell mem a else putCell mem a v

/-- Store bytes at rising indices from `a` on (20_memory R64). -/
def Memory.storeFrom (mem : Memory) : Nat → List Byte → Memory
  | _, [] => mem
  | a, v :: vs => Memory.storeFrom (mem.write a v) (a + 1) vs

/-- The bytes at indices `0 ..< n`, in order. -/
def Memory.firstBytes (mem : Memory) (n : Nat) : List Byte := (List.range n).map mem.read

/-- The cells of storage that holds `bytes` from index `a` on and nothing else. -/
def Memory.cellsFrom : Nat → List Byte → Memory
  | _, [] => []
  | a, v :: vs =>
    if v = Memory.unlisted then Memory.cellsFrom (a + 1) vs else (a, v) :: Memory.cellsFrom (a + 1) vs

/-- The byte space the host binds when it binds `bytes` at index 0 (20_memory R62); an index is a 32-bit number, so
bytes from the `2^32`-th on have no index. DEDUCED, entry 17. -/
def Memory.ofBytes (bytes : List Byte) : Memory := Memory.cellsFrom 0 (bytes.take Config.indexSpace)

/-- The canonical form: addresses strictly rising and inside the index space, no entry equal to what an unlisted
address reads as. -/
def Memory.wf (mem : Memory) : Bool :=
  rising mem && mem.all (fun c => decide (c.1 < Config.indexSpace) && decide (c.2 ≠ Memory.unlisted))

/-- The match table: the valid slots with their positions, slot indices rising; a slot that is not listed is invalid
(10_state R35). DEDUCED, entry 7. -/
abbrev Mtab := List (Nat × Word)

/-- Every slot invalid (42_match_finder R182). -/
def Mtab.cleared : Mtab := []

/-- The slot's position if the slot is valid (42_match_finder R183). -/
def Mtab.slot (m : Mtab) (h : SlotIndex) : Option Word := cellAt m h.toNat

/-- `MTAB[h] <- (valid = 1, pos)` (42_match_finder R186). -/
def Mtab.insert (m : Mtab) (h : SlotIndex) (pos : Nat) : Mtab := putCell m h.toNat (BitVec.ofNat 32 pos)

/-- The canonical form of the match table: slot indices strictly rising and below 8192. -/
def Mtab.wf (m : Mtab) : Bool := rising m && m.all (fun c => decide (c.1 < Config.slotCount))

end Sys2Proof.Machine
end

