-- ==== Sys2Proof/Machine/State.lean ====
section
/-! DEFINITION. The complete state of one core (10_state R20), the byte spaces bound to it, the host's pending actions
and what the host has seen; the reset state (10_state R40); the reasons a step can stop. -/

namespace Sys2Proof.Machine

/-- The stream phase (10_state R26). -/
inductive Phase where
  | init | eob | inBlock | lastSent | trailerPending | done
deriving DecidableEq, Repr

/-- The envelope format (10_state R28). -/
inductive Format where
  | raw | zlib | gzip
deriving DecidableEq, Repr

/-- The completion code of the last command (10_state R25, 60_exceptions R261). -/
inductive Completion where
  | ok | illegal | tables | phase
deriving DecidableEq, Repr

/-- An entry of the literal/length code table: code value and width in bits (30_encoding R104). -/
structure CodeEntry where
  code  : Word
  width : Nat
deriving DecidableEq, Repr

/-- A row of the length or distance table: symbol, base, number of extra bits (30_encoding R106, R108). -/
structure RangeRow where
  sym   : Nat
  base  : Nat
  extra : Nat
deriving DecidableEq, Repr

/-- TBL, the global code tables (10_state R36). -/
structure Tables where
  /-- `CRC_TBL[0..255]` -/
  crc     : List Word
  /-- the fixed literal/length code, symbols 0 to 285 -/
  litLen  : List CodeEntry
  /-- the length table, 29 rows -/
  lengths : List RangeRow
  /-- the distance table, 30 rows -/
  dists   : List RangeRow
deriving DecidableEq, Repr

/-- TBL before TBLINIT: the spec leaves the contents unspecified and lets a model take any value (10_state R40,
70_reset_and_hazards R291, 93_implementation_defined U9); no command reads them.
DESIGN CHOICE, entry 6: storage of the right sizes, all zero. -/
def Tables.blank : Tables where
  crc     := List.replicate 256 0#32
  litLen  := List.replicate 286 ⟨0#32, 0⟩
  lengths := List.replicate 29 ⟨0, 0, 0⟩
  dists   := List.replicate 30 ⟨0, 0, 0⟩

/-- One action of the host between commands (00_scope R5, 20_memory R76, 70_reset_and_hazards R310). -/
inductive HostAction where
  /-- `write32(offset, value)` (20_memory R67); at the offset of CMD it launches a command (10_state R22) -/
  | write (offset : BitVec 8) (value : Word)
  /-- `read32(offset)` (20_memory R67) -/
  | read (offset : BitVec 8)
  /-- bind input storage that holds these bytes as IBUF (20_memory R62) -/
  | bindInput (bytes : List Byte)
  /-- bind output storage that holds these bytes as OBUF (20_memory R62) -/
  | bindOutput (bytes : List Byte)
  /-- apply the hardware reset between commands (70_reset_and_hazards R290) -/
  | reset
  /-- write CMD, and apply the hardware reset before that command is over (70_reset_and_hazards R290) -/
  | resetDuring (value : Word)
deriving DecidableEq, Repr

/-- What a run shows to the host (70_reset_and_hazards R310). -/
inductive Observation where
  /-- the value a register read gave -/
  | value (v : Word)
  /-- the contents of OBUF after a command -/
  | output (mem : Memory)
deriving DecidableEq, Repr

/-- The complete state of one core instance (10_state R20), with the buffers bound to it and the model's own fields. -/
structure State where
  /-- operand register IN_LEN (10_state R23) -/
  inLen       : Word
  /-- operand register OUT_CAP (10_state R23) -/
  outCap      : Word
  /-- operand register SEED (10_state R23) -/
  seed        : Word
  /-- result register RESULT (10_state R23) -/
  result      : Word
  /-- flag `tables_ready` (10_state R25) -/
  tablesReady : Bool
  /-- sticky flag `viol` (10_state R25) -/
  viol        : Bool
  /-- completion code `cc` (10_state R25) -/
  cc          : Completion
  /-- descriptor: `phase` (10_state R26) -/
  phase       : Phase
  /-- descriptor: `comp_en` (10_state R27) -/
  compEn      : Bool
  /-- descriptor: `format` (10_state R28) -/
  format      : Format
  /-- descriptor: pending bits (10_state R29) -/
  pend        : Word
  /-- descriptor: number of valid pending bits (10_state R29) -/
  cnt         : BitVec 3
  /-- descriptor: running checksum (10_state R30) -/
  checksum    : Word
  /-- descriptor: input bytes consumed, mod 2^32 (10_state R31) -/
  totalIn     : Word
  /-- the match table MTAB (10_state R35) -/
  mtab        : Mtab
  /-- the global code tables TBL (10_state R36) -/
  tbl         : Tables
  /-- the input space bound to the core (20_memory R61, R62) -/
  ibuf        : Memory
  /-- the output space bound to the core (20_memory R63, R64) -/
  obuf        : Memory
  /-- the open parameter HASH3 as plain data (00_scope R10, 10_state R39); no action changes it. Model's own, entry 1. -/
  hashTable   : Config.HashTable
  /-- the host's actions not yet taken, next one first (70_reset_and_hazards R310). Model's own, entry 2. -/
  script      : List HostAction
  /-- what the host has seen, oldest first (70_reset_and_hazards R310). Model's own, entry 3. -/
  observed    : List Observation
  /-- the number of commands cut off by a reset so far: the free value of each is its own. Model's own, entry 11. -/
  cutOffs     : Nat
deriving DecidableEq, Repr

/-- The state right after reset (10_state R40, 70_reset_and_hazards R290), nothing bound, no host action waiting.
The spec states every value but TBL (entry 6) and the contents of buffers nothing was bound to (entries 4, 5). -/
def State.reset : State where
  inLen       := 0#32
  outCap      := 0#32
  seed        := 0#32
  result      := 0#32
  tablesReady := false
  viol        := false
  cc          := .ok
  phase       := .done
  compEn      := false
  format      := .raw
  pend        := 0#32
  cnt         := 0#3
  checksum    := 0#32
  totalIn     := 0#32
  mtab        := Mtab.cleared
  tbl         := Tables.blank
  ibuf        := []
  obuf        := []
  hashTable   := []
  script      := []
  observed    := []
  cutOffs     := 0

/-- Why the machine stops with a fault. -/
inductive Fault where
  /-- A command that raises no violation writes more than OUT_CAP bytes to OBUF: the spec's one undefined outcome,
  which "a model must treat as a fault" (60_exceptions R270). Raised by SEND_HEADER, ENCODE and FINISH. Safe. -/
  | obufOverflow
  /-- A register access at an offset that is no multiple of 4, which the interface does not have (20_memory R67).
  Raised by a step that takes such a host action, never by a command. Safe, entry 10. -/
  | regMisaligned
deriving DecidableEq, Repr

/-- Why a step gives an instruction no meaning. -/
inductive Refusal where
  /-- The instruction has no meaning in the model yet. Raised by exec's arms only; no arm raises it now. Safe. -/
  | notModelled (mnemonic : String)
deriving DecidableEq, Repr

end Sys2Proof.Machine
end

