-- ==== Sys2Proof/Machine/Checksum.lean ====
section
/-! DEFINITION. The checksum engines: CRC-32 (41_checksum R160, R161) and Adler-32 (R162, R163). -/

namespace Sys2Proof.Machine

/-- One byte through the CRC register, with the table given (41_checksum R161, the loop's body); the index is a byte, so
it is never outside the table (entry 9). -/
def crcStep (table : List Word) (c : Word) (b : Byte) : Word :=
  table.getD ((c ^^^ b.setWidth 32) &&& 0xFF#32).toNat 0#32 ^^^ (c >>> 8)

/-- `crc32_update(crc, s)` (41_checksum R161). -/
def crc32Update (table : List Word) (crc : Word) (bytes : List Byte) : Word :=
  bytes.foldl (crcStep table) (crc ^^^ 0xFFFFFFFF#32) ^^^ 0xFFFFFFFF#32

/-- One byte through the two sub-sums `(a, b)` (41_checksum R163, the loop's body). -/
def adlerStep (ab : Nat × Nat) (byte : Byte) : Nat × Nat :=
  let a := (ab.1 + byte.toNat) % adlerMod
  (a, (ab.2 + a) % adlerMod)

/-- `(b << 16) OR a` (41_checksum R162). -/
def adlerPack (ab : Nat × Nat) : Word := BitVec.ofNat 32 (ab.2 * 65536 + ab.1)

/-- The halves `[15:0]` and `[31:16]` (41_checksum R162). -/
def adlerHalves (v : Word) : Nat × Nat := ((v.extractLsb' 0 16).toNat, (v.extractLsb' 16 16).toNat)

/-- `adler32_update(adler, s)` (41_checksum R163). -/
def adler32Update (adler : Word) (bytes : List Byte) : Word := adlerPack (bytes.foldl adlerStep (adlerHalves adler))

/-- The checksum of the empty input in a format (45_stream_commands R237, 41_checksum R160, R162). -/
def emptyChecksum : Format → Word
  | .raw => 0#32
  | .zlib => 1#32
  | .gzip => 0#32

/-- The session's checksum update: Adler-32 for ZLIB, CRC-32 for GZIP and RAW (44_block_encoder R217). -/
def sessionChecksum (format : Format) (table : List Word) (v : Word) (bytes : List Byte) : Word :=
  match format with
  | .raw => crc32Update table v bytes
  | .zlib => adler32Update v bytes
  | .gzip => crc32Update table v bytes

end Sys2Proof.Machine
end

