-- ==== Sys2Proof/Machine/Flags.lean ====
section
/-! DEFINITION. The numeric codes of the status fields and the STATUS word made of them (10_state R25 to R28, R33;
60_exceptions R261). -/

namespace Sys2Proof.Machine

/-- The phase's number in STATUS (10_state R26). -/
def phaseCode : Phase → BitVec 3
  | .init => 0#3
  | .eob => 1#3
  | .inBlock => 2#3
  | .lastSent => 3#3
  | .trailerPending => 4#3
  | .done => 5#3

/-- The format's number in STATUS and in field FMT (10_state R28). -/
def formatCode : Format → BitVec 2
  | .raw => 0#2
  | .zlib => 1#2
  | .gzip => 2#2

/-- The format a field FMT asks for, none for the reserved value 3 (10_state R28, 30_encoding R91). -/
def formatOf (fmt : BitVec 2) : Option Format :=
  if fmt = 0#2 then some .raw
  else if fmt = 1#2 then some .zlib
  else if fmt = 2#2 then some .gzip
  else none

/-- The completion code's number (60_exceptions R261). -/
def completionCode : Completion → BitVec 4
  | .ok => 0#4
  | .illegal => 1#4
  | .tables => 2#4
  | .phase => 3#4

/-- A flag as one bit. -/
def flagBit (b : Bool) : BitVec 1 := BitVec.ofBool b

/-- The STATUS word, highest field leftmost: bits 31..15 zero, PEND_CNT, CC, VIOL, TABLES_READY, FORMAT, COMP_EN, PHASE
(10_state R33). -/
def statusWord (s : State) : Word :=
  0#17 ++ s.cnt ++ completionCode s.cc ++ flagBit s.viol ++ flagBit s.tablesReady ++ formatCode s.format
    ++ flagBit s.compEn ++ phaseCode s.phase

end Sys2Proof.Machine
end

