-- ==== Sys2Proof/Machine/Operands.lean ====
section
/-! DEFINITION. Operand assembly (30_encoding R94): fields of the command word as they are, SEED, IN_LEN and the input
bytes, and the session's hash function. -/

namespace Sys2Proof.Machine

/-- The input operand `in[0 ..< IN_LEN]` (20_memory R61, 30_encoding R94). -/
def inputBytes (s : State) : List Byte := s.ibuf.firstBytes s.inLen.toNat

/-- `more_follows` (30_encoding R91). -/
def moreFollows (more : BitVec 1) : Bool := decide (more = 1#1)

/-- `compression_level` as `comp_en` (10_state R27, 30_encoding R91). -/
def levelEnables (level : BitVec 1) : Bool := decide (level = 1#1)

/-- The 24-bit number of a hashed prefix. -/
def prefixKey (b0 b1 b2 : Byte) : Nat := b0.toNat + 256 * b1.toNat + 65536 * b2.toNat

/-- `HASH3_DEFAULT` (42_match_finder R181). -/
def hashDefault (b0 b1 b2 : Byte) : SlotIndex :=
  b0.setWidth 13 ^^^ (b1.setWidth 13 <<< 3) ^^^ (b2.setWidth 13 <<< 5)

/-- HASH3 as the list gives it: the listed slot of the prefix, else the default (00_scope R10). Entry 1. -/
def hash3 (table : Config.HashTable) (b0 b1 b2 : Byte) : SlotIndex :=
  (cellAt table (prefixKey b0 b1 b2)).getD (hashDefault b0 b1 b2)

end Sys2Proof.Machine
end

