-- ==== Sys2Proof/Machine/Bits.lean ====
section
/-! DEFINITION. Bit and byte order: code reversal (00_scope R15) and the bytes of a 32-bit value in the two orders of
the trailers (20_memory R66). -/

namespace Sys2Proof.Machine

/-- `rev(v, w)`: the low `w` bits of `v` in reverse order (00_scope R15). -/
def rev (v : Word) : Nat → Word
  | 0 => 0#32
  | w + 1 => ((v &&& 1#32) <<< w) ||| rev (v >>> 1) w

/-- Byte `k` of a word, byte 0 its low eight bits. -/
def wordByte (v : Word) (k : Nat) : Byte := v.extractLsb' (8 * k) 8

/-- A word least-significant byte first (20_memory R66: the gzip trailer). -/
def littleEndian (v : Word) : List Byte := [wordByte v 0, wordByte v 1, wordByte v 2, wordByte v 3]

/-- A word most-significant byte first (20_memory R66: the zlib trailer). -/
def bigEndian (v : Word) : List Byte := [wordByte v 3, wordByte v 2, wordByte v 1, wordByte v 0]

end Sys2Proof.Machine
end

