-- ==== Sys2Proof/Machine/Packer.lean ====
section
/-! DEFINITION. The variable-width bit packer (43_bit_packer R200 to R204). -/

namespace Sys2Proof.Machine

/-- One insertion: `width` bits of `code`, least-significant bit first (43_bit_packer R201). -/
structure Push where
  code  : Word
  width : Nat
deriving DecidableEq, Repr

/-- The packer's accumulator and the number of its valid bits, which exceeds 7 only inside a push
(43_bit_packer R200, 10_state R29). -/
structure Packer where
  pend : Word
  cnt  : Nat
deriving DecidableEq, Repr

/-- Shift the low byte out `n` times; the bytes in order, and what is left of the accumulator. -/
def shiftOut : Nat → Word → List Byte × Word
  | 0, pend => ([], pend)
  | n + 1, pend =>
    let rest := shiftOut n (pend >>> 8)
    (pend.setWidth 8 :: rest.1, rest.2)

/-- `push(code, width)`: the bytes written and the packer afterwards (43_bit_packer R201). The loop "while cnt >= 8"
runs `floor(cnt / 8)` times. -/
def push (p : Packer) (x : Push) : List Byte × Packer :=
  let cnt := p.cnt + x.width
  let drained := shiftOut (cnt / 8) (p.pend ||| (x.code <<< p.cnt))
  (drained.1, ⟨drained.2, cnt % 8⟩)

/-- Several pushes, one after the other. -/
def pushAll : Packer → List Push → List Byte × Packer
  | p, [] => ([], p)
  | p, x :: xs =>
    let first := push p x
    let rest := pushAll first.2 xs
    (first.1 ++ rest.1, rest.2)

/-- `flush_to_byte()` (43_bit_packer R203). -/
def flushToByte (p : Packer) : List Byte × Packer :=
  (if 0 < p.cnt then [p.pend.setWidth 8] else [], ⟨0#32, 0⟩)

end Sys2Proof.Machine
end

