-- ==== Sys2Proof/Machine/Ops.lean ====
section
/-! DEFINITION. The operations the meanings share: raising a violation (60_exceptions R266), completing a command, and
the command in progress with its output (20_memory R64, 43_bit_packer R200). -/

namespace Sys2Proof.Machine

/-- `raise Violation(code)`, the core's one exception entry: cc, viol and RESULT are written, nothing else changes
(60_exceptions R265, R266). There is no return from it: the next command runs normally (60_exceptions R268). -/
def raiseViolation (code : Completion) (s : State) : State :=
  { s with cc := code, viol := true, result := 0xFFFFFFFF#32 }

/-- The end of a command that writes no OBUF byte: RESULT and `cc` (10_state R23, R25). -/
def complete (result : Word) (s : State) : State := { s with result := result, cc := .ok }

/-- A stream command in progress: the state so far, and the bytes written to OBUF from index 0 on, whose number is the
write cursor `wr` (10_state R37, 20_memory R64). DEDUCED, entry 8: a command is atomic, so OBUF takes the bytes at the
command's end. -/
structure Run where
  st  : State
  out : List Byte
deriving DecidableEq, Repr

/-- The start of a command: `wr = 0` (20_memory R64). -/
def Run.start (s : State) : Run := ⟨s, []⟩

/-- `out_byte` for each byte in order (20_memory R64). -/
def Run.outBytes (r : Run) (bytes : List Byte) : Run := { r with out := r.out ++ bytes }

/-- `phase <- p`. -/
def Run.setPhase (r : Run) (p : Phase) : Run := { r with st := { r.st with phase := p } }

/-- The session's packer at the command's current point (43_bit_packer R200). -/
def Run.packer (r : Run) : Packer := ⟨r.st.pend, r.st.cnt.toNat⟩

/-- Take over a packer and the bytes it wrote; between pushes fewer than 8 bits are pending (10_state R29). -/
def Run.takePacked (r : Run) (res : List Byte × Packer) : Run where
  st  := { r.st with pend := res.2.pend, cnt := BitVec.ofNat 3 res.2.cnt }
  out := r.out ++ res.1

/-- Pushes through the session's packer (43_bit_packer R201). -/
def Run.emit (r : Run) (pushes : List Push) : Run := r.takePacked (pushAll r.packer pushes)

/-- `flush_to_byte()` on the session's packer (43_bit_packer R203). -/
def Run.flush (r : Run) : Run := r.takePacked (flushToByte r.packer)

/-- The end of a stream command: OBUF holds the bytes written from index 0 on, `RESULT <- wr`, `cc <- CC_OK`
(20_memory R63, R64). A command that writes more than OUT_CAP bytes is the undefined outcome, a fault of the whole
machine (60_exceptions R270); the core itself never reads OUT_CAP. DEDUCED, entry 18. -/
def Run.finish (r : Run) : Host.Outcome State Fault Refusal :=
  if r.out.length ≤ r.st.outCap.toNat then
    .next (complete (BitVec.ofNat 32 r.out.length) { r.st with obuf := r.st.obuf.storeFrom 0 r.out })
  else .fault .obufOverflow

end Sys2Proof.Machine
end

