-- ==== Sys2Proof/Machine/ChecksumCommand.lean ====
section
/-! DEFINITION. The meanings of the four standalone checksum commands (41_checksum R166 to R169). -/

namespace Sys2Proof.Machine

/-- A checksum command: `CC_TABLES` before TBLINIT, else RESULT takes the new checksum (60_exceptions R263). -/
def checksumCommand (value : Word) (s : State) : State :=
  if s.tablesReady then complete value s else raiseViolation .tables s

/-- `CRC32_BYTE byte` (41_checksum R166). -/
def execCrc32Byte (byte : Byte) (s : State) : Host.Outcome State Fault Refusal :=
  .next (checksumCommand (crc32Update s.tbl.crc s.seed [byte]) s)

/-- `CRC32_BLOCK` (41_checksum R167). -/
def execCrc32Block (s : State) : Host.Outcome State Fault Refusal :=
  .next (checksumCommand (crc32Update s.tbl.crc s.seed (inputBytes s)) s)

/-- `ADLER32_BYTE byte` (41_checksum R168). -/
def execAdler32Byte (byte : Byte) (s : State) : Host.Outcome State Fault Refusal :=
  .next (checksumCommand (adler32Update s.seed [byte]) s)

/-- `ADLER32_BLOCK` (41_checksum R169). -/
def execAdler32Block (s : State) : Host.Outcome State Fault Refusal :=
  .next (checksumCommand (adler32Update s.seed (inputBytes s)) s)

end Sys2Proof.Machine
end

