-- ==== Sys2Proof/Machine/MatchFinder.lean ====
section
/-! DEFINITION. The LZ77 hash-table match finder (42_match_finder R180 to R192). Every definition takes the hash
function as an argument (00_scope R10) and the input of the command as a list of bytes. -/

namespace Sys2Proof.Machine

/-- What the finder decides at a position (42_match_finder R180): `Literal(b)` or `Match(L, D)`. -/
inductive Event where
  | literal (b : Byte)
  | copy (length distance : Nat)
deriving DecidableEq, Repr

/-- How far the cursor advances (42_match_finder R180). -/
def Event.span : Event → Nat
  | .literal _ => 1
  | .copy length _ => length

/-- `h(p)`, defined where three bytes are left (42_match_finder R181). -/
def hashAt (hash : Byte → Byte → Byte → SlotIndex) (input : List Byte) (p : Nat) : Option SlotIndex :=
  match input.drop p with
  | b0 :: b1 :: b2 :: _ => some (hash b0 b1 b2)
  | _ => none

/-- Insert position `q` where it has a three-byte prefix (42_match_finder R187). -/
def insertAt (hash : Byte → Byte → Byte → SlotIndex) (input : List Byte) (q : Nat) (m : Mtab) : Mtab :=
  match hashAt hash input q with
  | some h => m.insert h q
  | none => m

/-- Insert `count` positions from `q` on, in increasing order (42_match_finder R187). -/
def insertCovered (hash : Byte → Byte → Byte → SlotIndex) (input : List Byte) : Nat → Nat → Mtab → Mtab
  | 0, _, m => m
  | count + 1, q, m => insertCovered hash input count (q + 1) (insertAt hash input q m)

/-- The number of equal bytes at the start of two sequences, at most `limit` (42_match_finder R185). -/
def equalRun : Nat → List Byte → List Byte → Nat
  | 0, _, _ => 0
  | limit + 1, x :: xs, y :: ys => if x = y then equalRun limit xs ys + 1 else 0
  | _ + 1, _, _ => 0

/-- The candidate check for a valid slot (42_match_finder R183). -/
def accepted (input : List Byte) (pos c : Nat) : Bool :=
  decide (pos - c ≤ window) && decide ((input.drop c).take minMatch = (input.drop pos).take minMatch)

/-- The extended length of an accepted candidate (42_match_finder R185). -/
def extend (input : List Byte) (pos c : Nat) : Nat :=
  minMatch + equalRun (maxMatch - minMatch) (input.drop (c + minMatch)) (input.drop (pos + minMatch))

/-- `Literal(in[pos])`; the byte 0 outside the input is never reached (entry 9). -/
def literalAt (input : List Byte) (pos : Nat) : Event := .literal (input.getD pos 0#8)

/-- The whole step `find(pos)` (42_match_finder R190): the slot is read, then the position inserted, then the candidate
checked; a match also inserts the positions it covers. -/
def find (hash : Byte → Byte → Byte → SlotIndex) (input : List Byte) (pos : Nat) (m : Mtab) : Event × Mtab :=
  match hashAt hash input pos with
  | none => (literalAt input pos, m)
  | some h =>
    match m.slot h with
    | none => (literalAt input pos, m.insert h pos)
    | some c =>
      if accepted input pos c.toNat then
        let length := extend input pos c.toNat
        (.copy length (pos - c.toNat), insertCovered hash input (length - 1) (pos + 1) (m.insert h pos))
      else (literalAt input pos, m.insert h pos)

/-- The loop of 44_block_encoder R216 with `comp_en = 1`, from cursor `pos` on; each round advances the cursor, so
`fuel = n` rounds are enough. -/
def findLoop (hash : Byte → Byte → Byte → SlotIndex) (input : List Byte) : Nat → Nat → Mtab → List Event × Mtab
  | 0, _, m => ([], m)
  | fuel + 1, pos, m =>
    if pos < input.length then
      let found := find hash input pos m
      let rest := findLoop hash input fuel (pos + found.1.span) found.2
      (found.1 :: rest.1, rest.2)
    else ([], m)

/-- The events of one command's input and the table it leaves: the table is cleared first, and without `comp_en` every
byte is a literal and the table stays cleared (42_match_finder R182, R192). -/
def findEvents (hash : Byte → Byte → Byte → SlotIndex) (compEn : Bool) (input : List Byte) : List Event × Mtab :=
  if compEn then findLoop hash input input.length 0 Mtab.cleared
  else (input.map Event.literal, Mtab.cleared)

end Sys2Proof.Machine
end

