-- ==== Sys2Proof/Machine/Tables.lean ====
section
/-! DEFINITION. What TBLINIT puts into TBL: the CRC-32 table (40_tables_init R142), the fixed literal/length code
(30_encoding R104), the length table (R106) and the distance table (R108). -/

namespace Sys2Proof.Machine

/-- One of the eight rounds of `crc_entry` (40_tables_init R142). -/
def crcRound (c : Word) : Word := if c &&& 1#32 = 1#32 then (c >>> 1) ^^^ crcPoly else c >>> 1

/-- `n` rounds. -/
def crcRounds : Nat → Word → Word
  | 0, c => c
  | n + 1, c => crcRounds n (crcRound c)

/-- `crc_entry(i)` (40_tables_init R142). -/
def crcEntry (i : Nat) : Word := crcRounds 8 (BitVec.ofNat 32 i)

/-- Code and width of a literal/length symbol (30_encoding R104). -/
def fixedCode (s : Nat) : CodeEntry :=
  if s ≤ 143 then ⟨BitVec.ofNat 32 (0x30 + s), 8⟩
  else if s ≤ 255 then ⟨BitVec.ofNat 32 (0x190 + (s - 144)), 9⟩
  else if s ≤ 279 then ⟨BitVec.ofNat 32 (s - 256), 7⟩
  else ⟨BitVec.ofNat 32 (0xC0 + (s - 280)), 8⟩

/-- The length table (30_encoding R106). -/
def lengthRows : List RangeRow :=
  [⟨257, 3, 0⟩, ⟨258, 4, 0⟩, ⟨259, 5, 0⟩, ⟨260, 6, 0⟩, ⟨261, 7, 0⟩, ⟨262, 8, 0⟩, ⟨263, 9, 0⟩, ⟨264, 10, 0⟩,
   ⟨265, 11, 1⟩, ⟨266, 13, 1⟩, ⟨267, 15, 1⟩, ⟨268, 17, 1⟩, ⟨269, 19, 2⟩, ⟨270, 23, 2⟩, ⟨271, 27, 2⟩, ⟨272, 31, 2⟩,
   ⟨273, 35, 3⟩, ⟨274, 43, 3⟩, ⟨275, 51, 3⟩, ⟨276, 59, 3⟩, ⟨277, 67, 4⟩, ⟨278, 83, 4⟩, ⟨279, 99, 4⟩, ⟨280, 115, 4⟩,
   ⟨281, 131, 5⟩, ⟨282, 163, 5⟩, ⟨283, 195, 5⟩, ⟨284, 227, 5⟩, ⟨285, 258, 0⟩]

/-- The distance table (30_encoding R108). -/
def distanceRows : List RangeRow :=
  [⟨0, 1, 0⟩, ⟨1, 2, 0⟩, ⟨2, 3, 0⟩, ⟨3, 4, 0⟩, ⟨4, 5, 1⟩, ⟨5, 7, 1⟩, ⟨6, 9, 2⟩, ⟨7, 13, 2⟩, ⟨8, 17, 3⟩, ⟨9, 25, 3⟩,
   ⟨10, 33, 4⟩, ⟨11, 49, 4⟩, ⟨12, 65, 5⟩, ⟨13, 97, 5⟩, ⟨14, 129, 6⟩, ⟨15, 193, 6⟩, ⟨16, 257, 7⟩, ⟨17, 385, 7⟩,
   ⟨18, 513, 8⟩, ⟨19, 769, 8⟩, ⟨20, 1025, 9⟩, ⟨21, 1537, 9⟩, ⟨22, 2049, 10⟩, ⟨23, 3073, 10⟩, ⟨24, 4097, 11⟩,
   ⟨25, 6145, 11⟩, ⟨26, 8193, 12⟩, ⟨27, 12289, 12⟩, ⟨28, 16385, 13⟩, ⟨29, 24577, 13⟩]

/-- TBL after TBLINIT (40_tables_init R140 to R144). -/
def Tables.contents : Tables where
  crc     := (List.range 256).map crcEntry
  litLen  := (List.range 286).map fixedCode
  lengths := lengthRows
  dists   := distanceRows

/-- The row with the largest base that is at most `v`, in a table whose bases rise: the length lookup of 30_encoding
R107 (length 258 has the row 285, whose base it is) and the distance lookup of R109. Row 0 0 0 where no base is, which
never occurs (R107, R109; entry 9). -/
def rowFor (rows : List RangeRow) (v : Nat) : RangeRow :=
  match rows with
  | [] => ⟨0, 0, 0⟩
  | row :: rest =>
    match rest with
    | [] => row
    | next :: _ => if next.base ≤ v then rowFor rest v else row

end Sys2Proof.Machine
end

