-- ==== Sys2Proof/Machine/BlockEncoder.lean ====
section
/-! DEFINITION. The block encoder: its emit operations as lists of pushes, all codes taken from TBL, and
`encode_data` (44_block_encoder R210 to R219). -/

namespace Sys2Proof.Machine

/-- `emit_block_header(final)`: `final OR 2` in three bits (44_block_encoder R211). -/
def blockHeader (final : Bool) : List Push := [⟨if final then 3#32 else 2#32, 3⟩]

/-- `emit_symbol(s)` with the literal/length table given (44_block_encoder R212); no symbol is outside it (entry 9). -/
def symbolPushes (t : Tables) (sym : Nat) : List Push :=
  let e := t.litLen.getD sym ⟨0#32, 0⟩
  [⟨rev e.code e.width, e.width⟩]

/-- `emit_literal(b)` (44_block_encoder R213). -/
def literalPushes (t : Tables) (b : Byte) : List Push := symbolPushes t b.toNat

/-- `emit_match(L, D)` (44_block_encoder R214). -/
def matchPushes (t : Tables) (length distance : Nat) : List Push :=
  let l := rowFor t.lengths length
  let d := rowFor t.dists distance
  symbolPushes t l.sym ++
    [⟨BitVec.ofNat 32 (length - l.base), l.extra⟩,
     ⟨rev (BitVec.ofNat 32 d.sym) 5, 5⟩,
     ⟨BitVec.ofNat 32 (distance - d.base), d.extra⟩]

/-- `emit_eob()` (44_block_encoder R215). -/
def eobPushes (t : Tables) : List Push := symbolPushes t 256

/-- The codes of one event (44_block_encoder R216). -/
def eventPushes (t : Tables) : Event → List Push
  | .literal b => literalPushes t b
  | .copy length distance => matchPushes t length distance

/-- The events `encode_data` sends for the state's input, and the match table it leaves (44_block_encoder R216). -/
def sessionEvents (s : State) : List Event × Mtab := findEvents (hash3 s.hashTable) s.compEn (inputBytes s)

/-- The pushes `encode_data` makes for the state's input (44_block_encoder R216). -/
def dataPushes (s : State) : List Push := (sessionEvents s).1.flatMap (eventPushes s.tbl)

/-- `encode_data()` (44_block_encoder R216, R217). -/
def encodeData (r : Run) : Run :=
  let r1 := r.emit (dataPushes r.st)
  { r1 with st := { r1.st with
      mtab := (sessionEvents r.st).2
      checksum := sessionChecksum r.st.format r.st.tbl.crc r.st.checksum (inputBytes r.st)
      totalIn := r.st.totalIn + r.st.inLen } }

end Sys2Proof.Machine
end

