-- ==== Sys2Proof/Machine/Envelope.lean ====
section
/-! DEFINITION. The envelope framer: header and trailer bytes of the three formats (45_stream_commands R230 to R236). -/

namespace Sys2Proof.Machine

/-- `envelope_header()` (45_stream_commands R231, R232, R233). -/
def envelopeHeader : Format → List Byte
  | .raw => []
  | .zlib => zlibHeader
  | .gzip => gzipHeader

/-- `envelope_trailer()` (45_stream_commands R234, R235, R236). -/
def envelopeTrailer (format : Format) (checksum totalIn : Word) : List Byte :=
  match format with
  | .raw => []
  | .zlib => bigEndian checksum
  | .gzip => littleEndian checksum ++ littleEndian totalIn

end Sys2Proof.Machine
end

