-- ==== Sys2Proof/Machine/StreamCommand.lean ====
section
/-! DEFINITION. The meanings of the stream commands INIT, SEND_HEADER, ENCODE and FINISH (45_stream_commands R237 to
R240). -/

namespace Sys2Proof.Machine

/-- The descriptor of a fresh session (45_stream_commands R237). -/
def startSession (format : Format) (compEn : Bool) (s : State) : State :=
  { s with
    format := format, compEn := compEn, pend := 0#32, cnt := 0#3, checksum := emptyChecksum format,
    totalIn := 0#32, mtab := Mtab.cleared, phase := .init }

/-- `INIT level, format` (45_stream_commands R237); the reserved format 3 spells no command and raises `CC_ILLEGAL`
(30_encoding R95, R97). DEDUCED, entry 16. -/
def execInit (level : BitVec 1) (fmt : BitVec 2) (s : State) : Host.Outcome State Fault Refusal :=
  match formatOf fmt with
  | some format => .next (complete 0#32 (startSession format (levelEnables level) s))
  | none => .next (raiseViolation .illegal s)

/-- `SEND_HEADER` (45_stream_commands R238). -/
def execSendHeader (s : State) : Host.Outcome State Fault Refusal :=
  if s.phase = .init then (((Run.start s).outBytes (envelopeHeader s.format)).setPhase .eob).finish
  else .next (raiseViolation .phase s)

/-- The phases in which ENCODE is legal (45_stream_commands R239, 60_exceptions R264). -/
def Phase.allowsEncode : Phase → Bool
  | .init => true
  | .eob => true
  | .inBlock => true
  | .lastSent => false
  | .trailerPending => false
  | .done => false

/-- No block is open and the session is not over: phases INIT and EOB. -/
def Phase.beforeBlock : Phase → Bool
  | .init => true
  | .eob => true
  | .inBlock => false
  | .lastSent => false
  | .trailerPending => false
  | .done => false

/-- A block is open: phases IN_BLOCK and LAST_SENT. -/
def Phase.blockOpen : Phase → Bool
  | .init => false
  | .eob => false
  | .inBlock => true
  | .lastSent => true
  | .trailerPending => false
  | .done => false

/-- Step 1 of ENCODE: open a block if none is open and there is something to send (45_stream_commands R239). -/
def openBlock (more : Bool) (r : Run) : Run :=
  if r.st.phase.beforeBlock && (decide (0 < r.st.inLen.toNat) || !more) then
    let r1 := if r.st.phase = .init then r.outBytes (envelopeHeader r.st.format) else r
    (r1.emit (blockHeader (!more))).setPhase (if more then .inBlock else .lastSent)
  else r

/-- Step 2 of ENCODE: send the data into the open block (45_stream_commands R239). -/
def sendData (r : Run) : Run := if r.st.phase.blockOpen then encodeData r else r

/-- The end of a block that was opened non-final, and an empty final block's header (45_stream_commands R239). -/
def reopenFinal (r : Run) : Run :=
  (((r.emit (eobPushes r.st.tbl)).setPhase .eob).emit (blockHeader true)).setPhase .lastSent

/-- Step 3 of ENCODE: close the stream's blocks if this is the last input (45_stream_commands R239). -/
def closeBlocks (more : Bool) (r : Run) : Run :=
  if more then r
  else
    let r1 := if r.st.phase = .inBlock then reopenFinal r else r
    (r1.emit (eobPushes r1.st.tbl)).setPhase .trailerPending

/-- `ENCODE more` (45_stream_commands R239), violations in the order of 60_exceptions R267. -/
def execEncode (more : BitVec 1) (s : State) : Host.Outcome State Fault Refusal :=
  if s.tablesReady = false then .next (raiseViolation .tables s)
  else if s.phase.allowsEncode = false then .next (raiseViolation .phase s)
  else (closeBlocks (moreFollows more) (sendData (openBlock (moreFollows more) (Run.start s)))).finish

/-- `FINISH` (45_stream_commands R240). -/
def execFinish (s : State) : Host.Outcome State Fault Refusal :=
  if s.phase = .trailerPending then
    (((Run.start s).flush.outBytes (envelopeTrailer s.format s.checksum s.totalIn)).setPhase .done).finish
  else .next (raiseViolation .phase s)

end Sys2Proof.Machine
end

