-- ==== Sys2Proof/Machine/TableCommand.lean ====
section
/-! DEFINITION. The meaning of TBLINIT (40_tables_init R141). -/

namespace Sys2Proof.Machine

/-- Fill TBL and set `tables_ready`, if that has not been done since reset (40_tables_init R141). -/
def fillTables (s : State) : State :=
  if s.tablesReady then s else { s with tbl := Tables.contents, tablesReady := true }

/-- `TBLINIT` (40_tables_init R141). -/
def execTblinit (s : State) : Host.Outcome State Fault Refusal := .next (complete 0#32 (fillTables s))

end Sys2Proof.Machine
end

