-- ==== Sys2Proof/Machine/Dispatch.lean ====
section
/-! DEFINITION. One arm per command: the meaning of each constructor of Instr. -/

namespace Sys2Proof.Machine

def exec (i : Instr) (s : State) : Host.Outcome State Fault Refusal :=
  match i with
  | .tblinit => Sys2Proof.Machine.execTblinit s
  | .init level fmt => Sys2Proof.Machine.execInit level fmt s
  | .sendHeader => Sys2Proof.Machine.execSendHeader s
  | .encode more => Sys2Proof.Machine.execEncode more s
  | .finish => Sys2Proof.Machine.execFinish s
  | .crc32Byte byte => Sys2Proof.Machine.execCrc32Byte byte s
  | .crc32Block => Sys2Proof.Machine.execCrc32Block s
  | .adler32Byte byte => Sys2Proof.Machine.execAdler32Byte byte s
  | .adler32Block => Sys2Proof.Machine.execAdler32Block s

end Sys2Proof.Machine
end

