-- ==== Sys2Proof/Machine/Registers.lean ====
section
/-! DEFINITION. The host-visible register file (10_state R21 to R23, R33, R34; 20_memory R67, R71). -/

namespace Sys2Proof.Machine

/-- The registers of 10_state R21, and the reserved offsets `0x24 .. 0xFF`. -/
inductive Reg where
  | cmd | inLen | outCap | seed | result | status | checksum | totalIn | pend | reserved
deriving DecidableEq, Repr

/-- The register at a byte offset; none for an offset that is no multiple of 4, which no access has (20_memory R67). -/
def regAt (offset : BitVec 8) : Option Reg :=
  if offset &&& 0x03#8 ≠ 0#8 then none
  else if offset = 0x00#8 then some .cmd
  else if offset = 0x04#8 then some .inLen
  else if offset = 0x08#8 then some .outCap
  else if offset = 0x0C#8 then some .seed
  else if offset = 0x10#8 then some .result
  else if offset = 0x14#8 then some .status
  else if offset = 0x18#8 then some .checksum
  else if offset = 0x1C#8 then some .totalIn
  else if offset = 0x20#8 then some .pend
  else some .reserved

/-- The value a host read gives; CMD and the reserved offsets read 0 (10_state R21, R33, R34). -/
def readReg (s : State) : Reg → Word
  | .cmd => 0#32
  | .inLen => s.inLen
  | .outCap => s.outCap
  | .seed => s.seed
  | .result => s.result
  | .status => statusWord s
  | .checksum => s.checksum
  | .totalIn => s.totalIn
  | .pend => s.pend
  | .reserved => 0#32

/-- A host write to a register other than CMD: IN_LEN, OUT_CAP and SEED take the value, every other write is ignored
(10_state R21, R23). A write to CMD is not made here: it launches a command (Machine/HostPort.lean). -/
def writeReg (s : State) (r : Reg) (v : Word) : State :=
  match r with
  | .inLen => { s with inLen := v }
  | .outCap => { s with outCap := v }
  | .seed => { s with seed := v }
  | .cmd => s
  | .result => s
  | .status => s
  | .checksum => s
  | .totalIn => s
  | .pend => s
  | .reserved => s

end Sys2Proof.Machine
end

