-- ==== Sys2Proof/Machine/HostPort.lean ====
section
/-! DEFINITION. What each host action does: a write of CMD decodes and runs a command, other register accesses, buffer
bindings and the hardware reset (10_state R21, R22; 20_memory R62; 70_reset_and_hazards R290, R310). -/

namespace Sys2Proof.Machine

/-- The host sees something. Entry 3. -/
def observe (o : Observation) (s : State) : State := { s with observed := s.observed ++ [o] }

/-- Run the word written to CMD: the command it encodes, or `raise Violation(CC_ILLEGAL)` (30_encoding R95). -/
def runWord (w : Word) (s : State) : Host.Outcome State Fault Refusal :=
  match decode w with
  | .ok i => exec i s
  | .error _ => .next (raiseViolation .illegal s)

/-- A write of CMD: the command runs, and the host then has OBUF to look at (10_state R22, 70_reset_and_hazards
R310). -/
def launch (w : Word) (s : State) : Host.Outcome State Fault Refusal :=
  match runWord w s with
  | .next t => .next (observe (.output t.obuf) t)
  | .fault f => .fault f
  | .refused r => .refused r

/-- The hardware reset: every element of the core's state takes its reset value; IBUF and OBUF are not the core's and
are not touched (70_reset_and_hazards R290). The model's own fields are not the core's state either (entries 1, 2, 3,
11). -/
def hardwareReset (s : State) : State :=
  { State.reset with
    ibuf := s.ibuf, obuf := s.obuf, hashTable := s.hashTable, script := s.script, observed := s.observed,
    cutOffs := s.cutOffs }

/-- The commands that write OBUF (20_memory R64). -/
def writesOutput : Instr → Bool
  | .sendHeader => true
  | .encode _ => true
  | .finish => true
  | .tblinit => false
  | .init _ _ => false
  | .crc32Byte _ => false
  | .crc32Block => false
  | .adler32Byte _ => false
  | .adler32Block => false

/-- The number of OBUF bytes the word's command has written when it ends in `t`: RESULT where it writes OBUF and is not
refused (10_state R23, 20_memory R64, 60_exceptions R266). -/
def bytesWritten (w : Word) (t : State) : Nat :=
  match decode w with
  | .ok i => if writesOutput i && decide (t.cc = .ok) then t.result.toNat else 0
  | .error _ => 0

/-- A command cut off by the hardware reset: the core's state is the reset state, and the bytes the command would have
written to OBUF are without meaning, each a free value; all other bytes are as they were (70_reset_and_hazards R290,
93_implementation_defined U13). A command that would have overflowed OBUF is the undefined outcome as ever. Entry 11. -/
def cutOff (w : Word) (s : State) : Host.Outcome State Fault Refusal :=
  match runWord w s with
  | .next t => .next { hardwareReset s with
      obuf := s.obuf.storeFrom 0 ((List.range (bytesWritten w t)).map (Config.freeByte s.cutOffs))
      cutOffs := s.cutOffs + 1 }
  | .fault f => .fault f
  | .refused r => .refused r

/-- What one host action does to the machine (70_reset_and_hazards R310). -/
def takeAction (a : HostAction) (s : State) : Host.Outcome State Fault Refusal :=
  match a with
  | .write offset value =>
    match regAt offset with
    | none => .fault .regMisaligned
    | some r => if r = .cmd then launch value s else .next (writeReg s r value)
  | .read offset =>
    match regAt offset with
    | none => .fault .regMisaligned
    | some r => .next (observe (.value (readReg s r)) s)
  | .bindInput bytes => .next { s with ibuf := Memory.ofBytes bytes }
  | .bindOutput bytes => .next { s with obuf := Memory.ofBytes bytes }
  | .reset => .next (hardwareReset s)
  | .resetDuring value => cutOff value s

/-- The next host action is taken off the script and done; with none waiting the core awaits one and nothing changes
(60_exceptions R266, 70_reset_and_hazards R310). Entry 2. -/
def takeNext (s : State) : Host.Outcome State Fault Refusal :=
  match s.script with
  | [] => .next s
  | a :: rest => takeAction a { s with script := rest }

/-- Put a write of CMD with this word in front of the host's script. Entry 2. -/
def queueCommand (s : State) (w : Word) : State := { s with script := .write 0x00#8 w :: s.script }

end Sys2Proof.Machine
end

