-- ==== Sys2Proof/Machine/Step.lean ====
section
/-! DEFINITION. One step of the machine: the next action of the host (70_reset_and_hazards R310). A command is one
action, the write of CMD (10_state R22, R24: there is no program counter and no fetch). -/

namespace Sys2Proof.Machine

/-- One step: three outcomes (00_scope R7: complete and violation are next states, undefined is a fault). -/
def step (s : State) : Host.Outcome State Fault Refusal := takeNext s

/-- The state whose next step runs the command word `w`, numbered as spec/opcode_table.json numbers it (bits above
`nbits` zero): the host's next action is the write of CMD. Entry 2. -/
def State.withFetchWord (s : State) (nbits w : Nat) : State := queueCommand s (BitVec.ofNat 32 (w % 2 ^ nbits))

end Sys2Proof.Machine
end

