-- ==== Sys2Proof/Machine/Script.lean ====
section
/-! DEFINITION. The script notation of 30_encoding R99: each line as the host actions it stands for, and the
pseudo-commands with their expansions. -/

namespace Sys2Proof.Machine.Script

/-- A command: one CMD write of its word. -/
def command (i : Instr) : List HostAction := [.write 0x00#8 (encode i)]

/-- `WR SEED, v`. -/
def wrSeed (v : Word) : List HostAction := [.write 0x0C#8 v]

/-- `RD RESULT`. -/
def rdResult : List HostAction := [.read 0x10#8]

/-- `IBUF bytes`: binds the input bytes and writes IN_LEN with their count, modulo `2^32` where the count is no 32-bit
number: DESIGN CHOICE, entry 20. -/
def ibuf (bytes : List Byte) : List HostAction := [.bindInput bytes, .write 0x04#8 (BitVec.ofNat 32 bytes.length)]

/-- `OCAP n`: writes OUT_CAP, modulo `2^32` where `n` is no 32-bit number, as WCE of more than about 3.8e9 bytes is none:
DESIGN CHOICE, entry 20. -/
def ocap (n : Nat) : List HostAction := [.write 0x08#8 (BitVec.ofNat 32 n)]

/-- `ENC more, bytes`. -/
def enc (more : BitVec 1) (bytes : List Byte) : List HostAction :=
  ibuf bytes ++ ocap (wce bytes.length) ++ command (.encode more)

/-- `FIN`. -/
def fin : List HostAction := ocap finishCap ++ command .finish

/-- `COMPRESS level, format, bytes`, the source's `encode_to_completion`. -/
def compress (level : BitVec 1) (fmt : BitVec 2) (bytes : List Byte) : List HostAction :=
  command (.init level fmt) ++ enc 0#1 bytes ++ fin

/-- `CRC32 bytes`. -/
def crc32 (bytes : List Byte) : List HostAction := wrSeed 0#32 ++ ibuf bytes ++ command .crc32Block ++ rdResult

/-- `ADLER32 bytes`. -/
def adler32 (bytes : List Byte) : List HostAction := wrSeed 1#32 ++ ibuf bytes ++ command .adler32Block ++ rdResult

end Sys2Proof.Machine.Script
end

