-- ==== Sys2Proof/Safety.lean ====
section
/-! DEFINITION. The words claims are stated in: bit streams, what a sequence of events stands for, the sound states
(10_state R29, R32 and the facts the rules keep), the capacity contract (70_reset_and_hazards R297), and the edges of
the phase graph (60_exceptions R275). -/

namespace Sys2Proof.Machine

/-- The low `w` bits of a word in stream order, least-significant first (20_memory R65). -/
def bitsOf (v : Word) (w : Nat) : List Bool := (List.range w).map v.getLsbD

/-- The eight bits of an output byte in stream order (20_memory R65). -/
def byteBits (b : Byte) : List Bool := (List.range 8).map b.getLsbD

/-- The bit stream a sequence of output bytes holds (20_memory R65). -/
def streamBits (bytes : List Byte) : List Bool := bytes.flatMap byteBits

/-- The bits a push inserts, in order (43_bit_packer R201). -/
def Push.bits (x : Push) : List Bool := bitsOf x.code x.width

/-- The bits a sequence of pushes inserts, in order. -/
def pushBits (xs : List Push) : List Bool := xs.flatMap Push.bits

/-- The number of bits a sequence of pushes inserts. -/
def totalWidth : List Push → Nat
  | [] => 0
  | x :: xs => x.width + totalWidth xs

/-- The premise of a push: `width <= 24` and `code < 2^width` (43_bit_packer R201). -/
def Push.fits (x : Push) : Bool := decide (x.width ≤ 24) && decide (x.code.toNat < 2 ^ x.width)

/-- The packer's entry and exit condition: `cnt <= 7` and `pend < 2^cnt` (43_bit_packer R200, R201). -/
def Packer.fits (p : Packer) : Bool := decide (p.cnt ≤ 7) && decide (p.pend.toNat < 2 ^ p.cnt)

/-- The pending bits, oldest first (10_state R29). -/
def Packer.bits (p : Packer) : List Bool := bitsOf p.pend p.cnt

/-- The number of bits that code an event (44_block_encoder R218). -/
def eventCost (e : Event) : Nat := totalWidth (eventPushes Tables.contents e)

/-- `length` bytes copied one by one from `distance` back, onto the end of what there is (42_match_finder R184: a copy
may read bytes it has itself produced). -/
def copyBack : Nat → Nat → List Byte → List Byte
  | 0, _, h => h
  | length + 1, distance, h => copyBack length distance (h ++ [h.getD (h.length - distance) 0#8])

/-- What a sequence of events stands for, after the bytes `h`; none where a match reaches before the first byte
(42_match_finder R180). -/
def expandEvents : List Byte → List Event → Option (List Byte)
  | h, [] => some h
  | h, .literal b :: es => expandEvents (h ++ [b]) es
  | h, .copy length distance :: es =>
    if 1 ≤ distance ∧ distance ≤ h.length then expandEvents (copyBack length distance h) es else none

/-- Lengths and distances are in the format's ranges (42_match_finder R180). -/
def Event.inRange : Event → Bool
  | .literal _ => true
  | .copy length distance =>
    decide (minMatch ≤ length) && decide (length ≤ maxMatch) && decide (1 ≤ distance) && decide (distance ≤ window)

/-- What holds of every state a run from reset can be in between commands (10_state R29, R32; 42_match_finder R182;
45_stream_commands R230, R240; 60_exceptions R266). -/
structure State.Sound (s : State) : Prop where
  /-- IBUF is in canonical form -/
  ibufWf : s.ibuf.wf = true
  /-- OBUF is in canonical form -/
  obufWf : s.obuf.wf = true
  /-- MTAB is in canonical form, every slot index below 8192 -/
  mtabWf : s.mtab.wf = true
  /-- every bit of `pend` at or above position `cnt` is 0 (10_state R29) -/
  pendFits : s.pend.toNat < 2 ^ s.cnt.toNat
  /-- LAST_SENT is entered and left inside one ENCODE (10_state R26) -/
  notLastSent : s.phase ≠ .lastSent
  /-- TBL holds its contents once `tables_ready` is set (40_tables_init R141, R145) -/
  tablesFilled : s.tablesReady = true → s.tbl = Tables.contents
  /-- a block is never opened, nor a stream closed, before TBLINIT (45_stream_commands R240) -/
  openNeedsTables : s.phase = .inBlock ∨ s.phase = .trailerPending → s.tablesReady = true
  /-- no bit is pending before the first block and after FINISH (45_stream_commands R230, R240) -/
  aligned : s.phase = .init ∨ s.phase = .eob ∨ s.phase = .done → s.cnt = 0#3
  /-- before the first block the session has consumed nothing and the match table is all invalid (42_match_finder R182,
  45_stream_commands R237, R238) -/
  fresh : s.phase = .init ∨ s.phase = .eob →
    s.checksum = emptyChecksum s.format ∧ s.totalIn = 0#32 ∧ s.mtab = Mtab.cleared
  /-- a command that failed has left the sticky flag set (60_exceptions R266) -/
  failureSticks : s.cc ≠ .ok → s.viol = true
  /-- the Adler-32 sub-sums are reduced (00_scope R16) -/
  adlerReduced : s.format = .zlib → (adlerHalves s.checksum).1 < adlerMod ∧ (adlerHalves s.checksum).2 < adlerMod

/-- The capacity contract for one command: OUT_CAP is at least the figure the host owes it (70_reset_and_hazards R297,
R298); the other commands write nothing. -/
def capacityKept : Instr → State → Bool
  | .sendHeader, s => decide (sendHeaderCap ≤ s.outCap.toNat)
  | .encode _, s => decide (wce s.inLen.toNat ≤ s.outCap.toNat)
  | .finish, s => decide (finishCap ≤ s.outCap.toNat)
  | .tblinit, _ => true
  | .init _ _, _ => true
  | .crc32Byte _, _ => true
  | .crc32Block, _ => true
  | .adler32Byte _, _ => true
  | .adler32Block, _ => true

/-- The command is refused in this phase: the table of 60_exceptions R264. -/
def phaseRefuses : Instr → Phase → Bool
  | .sendHeader, p => decide (p ≠ .init)
  | .encode _, p => decide (p = .lastSent ∨ p = .trailerPending ∨ p = .done)
  | .finish, p => decide (p ≠ .trailerPending)
  | .tblinit, _ => false
  | .init _ _, _ => false
  | .crc32Byte _, _ => false
  | .crc32Block, _ => false
  | .adler32Byte _, _ => false
  | .adler32Block, _ => false

/-- The bytes one command left in OBUF for the host to take: the first RESULT bytes (70_reset_and_hazards R300). -/
def outputOf (s : State) : List Byte := s.obuf.firstBytes s.result.toNat

/-- What the host does before an ENCODE of `bytes`: bind them, write IN_LEN, and write OUT_CAP with WCE of their number
(30_encoding R99, `ENC`); both modulo `2^32`, DESIGN CHOICE, entry 20. -/
def feed (bytes : List Byte) (s : State) : State :=
  { s with
    ibuf := Memory.ofBytes bytes
    inLen := BitVec.ofNat 32 bytes.length
    outCap := BitVec.ofNat 32 (wce bytes.length) }

/-- What ENCODE writes to the stream after the envelope header: `B0`, `B1`, `DATA`, `E` of 45_stream_commands R241. -/
inductive StreamItem where
  | blockStart (final : Bool)
  | data
  | endOfBlock
deriving DecidableEq, Repr

/-- The rows of the table of 45_stream_commands R241: phase at entry, number of input bytes, MORE. -/
def encodeItems : Phase → Nat → Bool → List StreamItem
  | .init, 0, true => []
  | .init, _ + 1, true => [.blockStart false, .data]
  | .init, _, false => [.blockStart true, .data, .endOfBlock]
  | .eob, 0, true => []
  | .eob, _ + 1, true => [.blockStart false, .data]
  | .eob, _, false => [.blockStart true, .data, .endOfBlock]
  | .inBlock, _, true => [.data]
  | .inBlock, _, false => [.data, .endOfBlock, .blockStart true, .endOfBlock]
  | .lastSent, _, _ => []
  | .trailerPending, _, _ => []
  | .done, _, _ => []

/-- The column "phase at exit" of the same table. -/
def encodeExit : Phase → Nat → Bool → Phase
  | .init, 0, true => .init
  | .init, _ + 1, true => .inBlock
  | .init, _, false => .trailerPending
  | .eob, 0, true => .eob
  | .eob, _ + 1, true => .inBlock
  | .eob, _, false => .trailerPending
  | .inBlock, _, true => .inBlock
  | .inBlock, _, false => .trailerPending
  | .lastSent, _, _ => .lastSent
  | .trailerPending, _, _ => .trailerPending
  | .done, _, _ => .done

/-- The pushes of one item, for the input and tables of a state. -/
def itemPushes (s : State) : StreamItem → List Push
  | .blockStart final => blockHeader final
  | .data => dataPushes s
  | .endOfBlock => eobPushes s.tbl

/-- The bytes ENCODE writes to OBUF and the packer it leaves, by the table of 45_stream_commands R241: the envelope
header `H` in phase INIT where anything is written, then the items through the packer. -/
def encodeOutput (more : Bool) (s : State) : List Byte × Packer :=
  let items := encodeItems s.phase s.inLen.toNat more
  let packed := pushAll ⟨s.pend, s.cnt.toNat⟩ (items.flatMap (itemPushes s))
  ((if s.phase = .init ∧ items ≠ [] then envelopeHeader s.format else []) ++ packed.1, packed.2)

/-- The phase after a command that is not refused, by the table of 60_exceptions R275. -/
def phaseAfter : Instr → State → Phase
  | .init _ _, _ => .init
  | .sendHeader, _ => .eob
  | .encode more, s => encodeExit s.phase s.inLen.toNat (moreFollows more)
  | .finish, _ => .done
  | .tblinit, s => s.phase
  | .crc32Byte _, s => s.phase
  | .crc32Block, s => s.phase
  | .adler32Byte _, s => s.phase
  | .adler32Block, s => s.phase

/-- A byte-wise checksum command for each byte in turn, each seeded with the RESULT before it; the last RESULT, SEED
where there is no byte (41_checksum R165). -/
def chainBytes (command : Byte → Instr) : List Byte → State → Option Word
  | [], s => some s.seed
  | b :: bs, s =>
    match exec (command b) s with
    | .next t => chainBytes command bs { t with seed := t.result }
    | .fault _ => none
    | .refused _ => none

/-- The commands that may stand anywhere in a session (45_stream_commands R242). -/
inductive SideCommand where
  | tblinit
  | crc32Byte (byte : Byte)
  | crc32Block
  | adler32Byte (byte : Byte)
  | adler32Block
deriving DecidableEq, Repr

/-- The command itself. -/
def SideCommand.instr : SideCommand → Instr
  | .tblinit => .tblinit
  | .crc32Byte byte => .crc32Byte byte
  | .crc32Block => .crc32Block
  | .adler32Byte byte => .adler32Byte byte
  | .adler32Block => .adler32Block

/-- One command of the host after INIT, with the operands the host sets just before it: the input of an ENCODE, or SEED
and the input of a command that is no part of the stream (45_stream_commands R242). -/
inductive SessionCall where
  | sendHeader
  | more (piece : List Byte)
  | last (piece : List Byte)
  | finish
  | side (command : SideCommand) (seed : Word) (bytes : List Byte)
deriving DecidableEq, Repr

/-- The command itself. -/
def SessionCall.instr : SessionCall → Instr
  | .sendHeader => .sendHeader
  | .more _ => .encode 1#1
  | .last _ => .encode 0#1
  | .finish => .finish
  | .side command _ _ => command.instr

/-- What the host does just before the command: it binds the input and writes IN_LEN, OUT_CAP (with the capacity owed)
and SEED (70_reset_and_hazards R296, R297). -/
def SessionCall.prepare : SessionCall → State → State
  | .sendHeader, s => { s with outCap := BitVec.ofNat 32 sendHeaderCap }
  | .more piece, s => feed piece s
  | .last piece, s => feed piece s
  | .finish, s => { s with outCap := BitVec.ofNat 32 finishCap }
  | .side _ seed bytes, s => { feed bytes s with seed := seed }

/-- The command is a stream command: no TBLINIT and no checksum command (45_stream_commands R242). -/
def SessionCall.isStream : SessionCall → Bool
  | .sendHeader => true
  | .more _ => true
  | .last _ => true
  | .finish => true
  | .side _ _ _ => false

/-- The bytes of OBUF that belong to the stream: those of a stream command, none of the others
(70_reset_and_hazards R300, R310). -/
def SessionCall.takes (c : SessionCall) (t : State) : List Byte := if c.isStream then outputOf t else []

/-- The commands in turn, each to complete without violation: the bytes they leave, concatenated, and the last state; none
where one of them does not complete (70_reset_and_hazards R300, R310). -/
def runCalls : List SessionCall → State → Option (List Byte × State)
  | [], s => some ([], s)
  | c :: cs, s =>
    match exec c.instr (c.prepare s) with
    | .next t =>
      if t.cc = .ok then
        match runCalls cs t with
        | some (out, u) => some (c.takes t ++ out, u)
        | none => none
      else none
    | .fault _ => none
    | .refused _ => none

/-- A session: INIT, then the commands given; the stream they leave and the last state. -/
def runSession (level : BitVec 1) (fmt : BitVec 2) (calls : List SessionCall) (s : State) : Option (List Byte × State) :=
  match exec (.init level fmt) s with
  | .next t => runCalls calls t
  | .fault _ => none
  | .refused _ => none

/-- The stream commands of a completed session after INIT, in order (45_stream_commands R242): SEND_HEADER or not, the
pieces sent with `ENCODE MORE`, `ENCODE LAST`, FINISH. In front, `idle` times, an `ENCODE MORE` of no byte, which leaves
phase INIT and so still allows SEND_HEADER (R239, R241; 60_exceptions R264). Entry 19. -/
def sessionShape (idle : Nat) (header : Bool) (pieces : List (List Byte)) (last : List Byte) : List SessionCall :=
  List.replicate idle (.more []) ++ (if header then [.sendHeader] else []) ++ pieces.map .more ++ [.last last, .finish]

/-- TBLINIT comes before the first command that requires it, if it was not issued before the session
(70_reset_and_hazards R294). -/
def tablesBeforeUse : Bool → List SessionCall → Bool
  | true, _ => true
  | false, [] => true
  | false, .side .tblinit _ _ :: _ => true
  | false, .sendHeader :: cs => tablesBeforeUse false cs
  | false, .finish :: cs => tablesBeforeUse false cs
  | false, .more _ :: _ => false
  | false, .last _ :: _ => false
  | false, .side (.crc32Byte _) _ _ :: _ => false
  | false, .side .crc32Block _ _ :: _ => false
  | false, .side (.adler32Byte _) _ _ :: _ => false
  | false, .side .adler32Block _ _ :: _ => false

end Sys2Proof.Machine
end

