-- ==== Sys2Proof/Safety/Inflate.lean ====
section
/-! DEFINITION. A reference reader of the output stream's block bits, written from the tables of 30_encoding R101 to
R110 and used in claims only: the core has no decompressor (00_scope R4). Entry 15. -/

namespace Sys2Proof.Machine

/-- An integer of `n` bits, least-significant first: block type and extra bits (30_encoding R102, R105). -/
def readInt : Nat → List Bool → Option (Nat × List Bool)
  | 0, bits => some (0, bits)
  | _ + 1, [] => none
  | n + 1, b :: bits =>
    match readInt n bits with
    | some (v, rest) => some (b.toNat + 2 * v, rest)
    | none => none

/-- `n` more bits of a Huffman code, most-significant first (30_encoding R105). -/
def readCode : Nat → Nat → List Bool → Option (Nat × List Bool)
  | 0, code, bits => some (code, bits)
  | _ + 1, _, [] => none
  | n + 1, code, b :: bits => readCode n (2 * code + b.toNat) bits

/-- A literal/length symbol by the ranges of code values of 30_encoding R104. -/
def readSymbol (bits : List Bool) : Option (Nat × List Bool) :=
  match readCode 7 0 bits with
  | none => none
  | some (c7, rest7) =>
    if c7 ≤ 0x17 then some (256 + c7, rest7)
    else
      match readCode 1 c7 rest7 with
      | none => none
      | some (c8, rest8) =>
        if c8 ≤ 0xBF then some (c8 - 0x30, rest8)
        else if c8 ≤ 0xC7 then some (280 + (c8 - 0xC0), rest8)
        else
          match readCode 1 c8 rest8 with
          | none => none
          | some (c9, rest9) => some (144 + (c9 - 0x190), rest9)

/-- A base plus extra bits, for the row of a symbol (30_encoding R106, R108). -/
def readRange (rows : List RangeRow) (sym : Nat) (bits : List Bool) : Option (Nat × List Bool) :=
  match rows.find? (fun row => row.sym == sym) with
  | none => none
  | some row =>
    match readInt row.extra bits with
    | none => none
    | some (v, rest) => some (row.base + v, rest)

/-- The data items of a block up to its end-of-block symbol, appended to the bytes so far (30_encoding R101, R110). -/
def readItems : Nat → List Byte → List Bool → Option (List Byte × List Bool)
  | 0, _, _ => none
  | fuel + 1, h, bits =>
    match readSymbol bits with
    | none => none
    | some (sym, rest) =>
      if sym ≤ 255 then readItems fuel (h ++ [BitVec.ofNat 8 sym]) rest
      else if sym = 256 then some (h, rest)
      else
        match readRange lengthRows sym rest with
        | none => none
        | some (length, rest) =>
          match readCode 5 0 rest with
          | none => none
          | some (dsym, rest) =>
            match readRange distanceRows dsym rest with
            | none => none
            | some (distance, rest) =>
              if 1 ≤ distance ∧ distance ≤ h.length then readItems fuel (copyBack length distance h) rest
              else none

/-- Blocks up to and with the one whose final flag is set; every block must be fixed-Huffman (30_encoding R101,
R102). The bytes they stand for, and the bits after them. -/
def readBlocks : Nat → List Byte → List Bool → Option (List Byte × List Bool)
  | 0, _, _ => none
  | fuel + 1, h, bits =>
    match readInt 1 bits with
    | none => none
    | some (final, rest) =>
      match readInt 2 rest with
      | none => none
      | some (btype, rest) =>
        if btype = 1 then
          match readItems (rest.length + 1) h rest with
          | none => none
          | some (h', rest') => if final = 1 then some (h', rest') else readBlocks fuel h' rest'
        else none

/-- The content of a raw stream and the bits left after its final block; every block takes at least one bit, so the
number of bits is fuel enough. -/
def inflate (bytes : List Byte) : Option (List Byte × List Bool) :=
  readBlocks (streamBits bytes).length [] (streamBits bytes)

end Sys2Proof.Machine
end

