-- ==== Sys2Proof/Certificates/Slice0/Obligations.lean ====
section
/-! DEFINITION. The statements about the model, for the provers. Each says which rule of spec/ it comes from; one that
rests on a choice of the model names its log entry. -/

open Sys2Proof Sys2Proof.Machine Host

/-! ## Command words -/

/-- The worked encodings of 30_encoding R98, in both directions, and its illegal examples. -/
def Obligations.WorkedEncodingsDecode : Prop :=
  (∀ p ∈ [(Instr.tblinit, 0x00000001#32), (.init 0#1 0#2, 0x00000002#32), (.init 1#1 0#2, 0x00000022#32),
      (.init 0#1 1#2, 0x00000042#32), (.init 1#1 1#2, 0x00000062#32), (.init 0#1 2#2, 0x00000082#32),
      (.init 1#1 2#2, 0x000000A2#32), (.sendHeader, 0x00000003#32), (.encode 0#1, 0x00000004#32),
      (.encode 1#1, 0x00000014#32), (.finish, 0x00000005#32), (.crc32Byte 0x61#8, 0x00006108#32),
      (.crc32Block, 0x00000009#32), (.adler32Byte 0x61#8, 0x0000610A#32), (.adler32Block, 0x0000000B#32)],
    encode p.1 = p.2 ∧ decodeTableWord 32 p.2.toNat = some p.1) ∧
  decodeTableWord 32 0x00000000 = none ∧ decodeTableWord 32 0x000000C2 = none ∧
  decodeTableWord 32 0x00000015 = none ∧ decodeTableWord 32 0x00010004 = none

/-- Every command with a legal encoding is read back from its word, every operand at every value (30_encoding R91 to
R96). -/
def Obligations.DecodeReadsBackEveryCommand : Prop :=
  ∀ i : Instr, i.wellFormed = true → decode (encode i) = .ok i

/-- Every word that decodes is the one encoding of its command: "every legal command [has] exactly one encoding per
operand value" (30_encoding R96). -/
def Obligations.EveryLegalWordIsTheEncoding : Prop :=
  ∀ (w : Word) (i : Instr), decode w = .ok i → i.wellFormed = true ∧ encode i = w

/-- The reserved and illegal encodings of 30_encoding R97, in full: reserved opcodes, a non-zero reserved bit, a non-zero
field the command does not use (R91, R96), INIT with FMT = 3. All behave the same way in every state, and every other
word is a command. -/
def Obligations.IllegalWordsAreRefused : Prop :=
  ∀ w : Word,
    let illegal : Prop :=
      opcField w ∈ [0x0#4, 0x6#4, 0x7#4, 0xC#4, 0xD#4, 0xE#4, 0xF#4] ∨
      w.extractLsb' 16 16 ≠ 0#16 ∨
      (moreField w ≠ 0#1 ∧ opcField w ≠ 0x4#4) ∨
      (levelField w ≠ 0#1 ∧ opcField w ≠ 0x2#4) ∨
      (fmtField w ≠ 0#2 ∧ opcField w ≠ 0x2#4) ∨
      (byteField w ≠ 0#8 ∧ opcField w ≠ 0x8#4 ∧ opcField w ≠ 0xA#4) ∨
      (opcField w = 0x2#4 ∧ fmtField w = 3#2)
    (illegal → ∀ s : State, runWord w s = .next { s with cc := .illegal, viol := true, result := 0xFFFFFFFF#32 }) ∧
    (¬illegal → ∃ i, decode w = .ok i)

/-! ## Steps and registers -/

/-- A step whose action is the write of CMD with a legal word is exec of that command, after which the host has OBUF to
look at (10_state R22, 70_reset_and_hazards R310; how the action waits and what is observed: entries 2 and 3). -/
def Obligations.StepRunsTheDecodedCommand : Prop :=
  ∀ (s : State) (w : Word) (rest : List HostAction) (i : Instr),
    s.script = .write 0x00#8 w :: rest → decode w = .ok i →
    step s = match exec i { s with script := rest } with
      | .next t => .next { t with observed := t.observed ++ [.output t.obuf] }
      | .fault f => .fault f
      | .refused r => .refused r

/-- `withFetchWord` makes the next step run the command of the word given, with everything else as it was
(10_state R22; entry 2). -/
def Obligations.FetchedWordIsTheNextCommand : Prop :=
  ∀ (s : State) (n w : Nat) (i : Instr),
    decodeTableWord n w = some i →
    step (s.withFetchWord n w) = match exec i s with
      | .next t => .next { t with observed := t.observed ++ [.output t.obuf] }
      | .fault f => .fault f
      | .refused r => .refused r

/-- The register file of 10_state R21 to R23: reads give the register and change nothing else, CMD and the reserved
offsets read 0; writes reach IN_LEN, OUT_CAP and SEED only. -/
def Obligations.RegisterFileReadsAndWrites : Prop :=
  ∀ (s : State) (rest : List HostAction) (v : Word),
    (∀ p ∈ [(0x00#8, 0#32), (0x04#8, s.inLen), (0x08#8, s.outCap), (0x0C#8, s.seed), (0x10#8, s.result),
        (0x14#8, statusWord s), (0x18#8, s.checksum), (0x1C#8, s.totalIn), (0x20#8, s.pend)],
      step { s with script := .read p.1 :: rest }
        = .next { s with script := rest, observed := s.observed ++ [.value p.2] }) ∧
    (∀ o : BitVec 8, o.extractLsb' 0 2 = 0#2 → 0x24 ≤ o.toNat →
      step { s with script := .read o :: rest }
        = .next { s with script := rest, observed := s.observed ++ [.value 0#32] } ∧
      step { s with script := .write o v :: rest } = .next { s with script := rest }) ∧
    step { s with script := .write 0x04#8 v :: rest } = .next { s with script := rest, inLen := v } ∧
    step { s with script := .write 0x08#8 v :: rest } = .next { s with script := rest, outCap := v } ∧
    step { s with script := .write 0x0C#8 v :: rest } = .next { s with script := rest, seed := v } ∧
    (∀ o ∈ [0x10#8, 0x14#8, 0x18#8, 0x1C#8, 0x20#8],
      step { s with script := .write o v :: rest } = .next { s with script := rest })

/-- The STATUS word, field by field, its value at reset, and that the host cannot write it (10_state R33). -/
def Obligations.StatusLayout : Prop :=
  (∀ s : State,
    (statusWord s).extractLsb' 0 3 = phaseCode s.phase ∧
    (statusWord s).extractLsb' 3 1 = flagBit s.compEn ∧
    (statusWord s).extractLsb' 4 2 = formatCode s.format ∧
    (statusWord s).extractLsb' 6 1 = flagBit s.tablesReady ∧
    (statusWord s).extractLsb' 7 1 = flagBit s.viol ∧
    (statusWord s).extractLsb' 8 4 = completionCode s.cc ∧
    (statusWord s).extractLsb' 12 3 = s.cnt ∧
    (statusWord s).extractLsb' 15 17 = 0#17) ∧
  (∀ (s : State) (v : Word), writeReg s .status v = s) ∧
  statusWord State.reset = 0x00000005#32

/-- Binding input or output storage changes that buffer only, and the bound bytes are read back at indices from 0 on
(20_memory R61, R62; the byte at an index nothing was bound to: entries 4 and 5). -/
def Obligations.BoundBuffersHoldTheirBytes : Prop :=
  ∀ (s : State) (rest : List HostAction) (bytes : List Byte), bytes.length ≤ 4294967296 →
    (∃ mem : Memory, step { s with script := .bindInput bytes :: rest } = .next { s with script := rest, ibuf := mem } ∧
      mem.wf = true ∧ ∀ i, mem.read i = bytes.getD i 0#8) ∧
    (∃ mem : Memory, step { s with script := .bindOutput bytes :: rest } = .next { s with script := rest, obuf := mem } ∧
      mem.wf = true ∧ ∀ i, mem.read i = bytes.getD i 0#8)

/-! ## Reset -/

/-- The reset values of 10_state R40; TBL is left out, its contents being unspecified there. -/
def Obligations.ResetValues : Prop :=
  State.reset.inLen = 0#32 ∧ State.reset.outCap = 0#32 ∧ State.reset.seed = 0#32 ∧ State.reset.result = 0#32 ∧
  State.reset.tablesReady = false ∧ State.reset.viol = false ∧ State.reset.cc = .ok ∧ State.reset.phase = .done ∧
  State.reset.compEn = false ∧ State.reset.format = .raw ∧ State.reset.pend = 0#32 ∧ State.reset.cnt = 0#3 ∧
  State.reset.checksum = 0#32 ∧ State.reset.totalIn = 0#32 ∧
  (∀ h : SlotIndex, State.reset.mtab.slot h = none) ∧ statusWord State.reset = 0x00000005#32

/-- The hardware reset, applied in any state, gives the reset values and leaves IBUF and OBUF untouched
(70_reset_and_hazards R290; when it is applied: entry 11). -/
def Obligations.HardwareResetLeavesBuffers : Prop :=
  ∀ (s : State) (rest : List HostAction), s.script = .reset :: rest →
    ∃ t, step s = .next t ∧ t.ibuf = s.ibuf ∧ t.obuf = s.obuf ∧ t.script = rest ∧ t.observed = s.observed ∧
      t.cutOffs = s.cutOffs ∧
      t.hashTable = s.hashTable ∧ t.inLen = 0#32 ∧ t.outCap = 0#32 ∧ t.seed = 0#32 ∧ t.result = 0#32 ∧
      t.tablesReady = false ∧ t.viol = false ∧ t.cc = .ok ∧ t.phase = .done ∧ t.compEn = false ∧ t.format = .raw ∧
      t.pend = 0#32 ∧ t.cnt = 0#3 ∧ t.checksum = 0#32 ∧ t.totalIn = 0#32 ∧ (∀ h : SlotIndex, t.mtab.slot h = none)

/-- The hardware reset during a command: "a command cut off by reset has no defined result", so the state is the reset
state, and only OBUF bytes that the whole command would have written can have changed; a command that writes none leaves
OBUF (70_reset_and_hazards R290; the free values of those bytes: entry 11). -/
def Obligations.ResetCutsACommandOff : Prop :=
  ∀ (s u : State) (i : Instr) (rest : List HostAction), i.wellFormed = true →
    s.script = .resetDuring (encode i) :: rest → exec i { s with script := rest } = .next u →
    ∃ t, step s = .next t ∧
      t = { hardwareReset { s with script := rest } with obuf := t.obuf, cutOffs := s.cutOffs + 1 } ∧
      (s.obuf.wf = true → t.obuf.wf = true) ∧
      (∀ a, u.result.toNat ≤ a → t.obuf.read a = s.obuf.read a) ∧
      (u.cc ≠ .ok ∨ (i ≠ .sendHeader ∧ i ≠ .finish ∧ ∀ more, i ≠ .encode more) → t.obuf = s.obuf)

/-! ## TBLINIT -/

/-- TBLINIT, the word 1, completes in every state: the first one fills the tables with the contents of 40_tables_init R142 and
30_encoding R104, R106, R108 and sets `tables_ready`; a later one changes RESULT and `cc` only (40_tables_init R141). -/
def Obligations.TblinitFillsTheTablesOnce : Prop :=
  encode .tblinit = 0x00000001#32 ∧
  (∀ s : State, s.tablesReady = false → ∃ t : Tables,
    exec .tblinit s = .next { s with tbl := t, tablesReady := true, result := 0#32, cc := .ok } ∧
    t.crc.length = 256 ∧ (∀ i, i < 256 → t.crc.getD i 0#32 = crcEntry i) ∧
    t.litLen.length = 286 ∧ (∀ n, n < 286 → t.litLen.getD n ⟨0#32, 0⟩ = fixedCode n) ∧
    t.lengths = lengthRows ∧ t.dists = distanceRows) ∧
  (∀ s : State, s.tablesReady = true → exec .tblinit s = .next { s with result := 0#32, cc := .ok }) ∧
  (∃ t, exec .tblinit State.reset = .next t ∧ statusWord t = 0x00000045#32 ∧ t.result = 0#32)

/-- The table-driven byte step of 41_checksum R161, with the table of 40_tables_init R142, is eight rounds of the
bitwise division of the CRC register with the byte in its low bits. -/
def Obligations.CrcTableStepIsEightBitwiseRounds : Prop :=
  ∀ (c : Word) (b : Byte), crcStep Tables.contents.crc c b = crcRounds 8 (c ^^^ b.setWidth 32)

/-! ## Checksum commands -/

/-- The four checksum commands complete in every state with tables ready, whatever the phase: RESULT is the new
checksum, `cc` is CC_OK, and nothing else changes (41_checksum R166 to R169). -/
def Obligations.ChecksumCommandsComplete : Prop :=
  ∀ (s : State) (b : Byte), s.tablesReady = true →
    exec (.crc32Byte b) s = .next { s with result := crc32Update s.tbl.crc s.seed [b], cc := .ok } ∧
    exec .crc32Block s = .next { s with result := crc32Update s.tbl.crc s.seed (inputBytes s), cc := .ok } ∧
    exec (.adler32Byte b) s = .next { s with result := adler32Update s.seed [b], cc := .ok } ∧
    exec .adler32Block s = .next { s with result := adler32Update s.seed (inputBytes s), cc := .ok }

/-- Composition across calls (41_checksum R164), for both functions, every starting value and all sequences. -/
def Obligations.ChecksumsCompose : Prop :=
  ∀ (table : List Word) (v : Word) (s1 s2 : List Byte),
    crc32Update table (crc32Update table v s1) s2 = crc32Update table v (s1 ++ s2) ∧
    crc32Update table v [] = v ∧
    adler32Update (adler32Update v s1) s2 = adler32Update v (s1 ++ s2) ∧
    adler32Update v [] = v

/-- "After at least one byte both halves are in 0 .. 65520" (41_checksum R163), whatever the starting value. -/
def Obligations.AdlerHalvesAreReduced : Prop :=
  ∀ (v : Word) (b : Byte) (bytes : List Byte),
    (adlerHalves (adler32Update v (b :: bytes))).1 < 65521 ∧ (adlerHalves (adler32Update v (b :: bytes))).2 < 65521

/-- The block-wise command over `s` gives what `len(s)` byte-wise commands give, each seeded with the RESULT before it
(41_checksum R165). -/
def Obligations.BlockCommandEqualsByteCommands : Prop :=
  ∀ s : State, s.tablesReady = true →
    (∃ t, exec .crc32Block s = .next t ∧ chainBytes .crc32Byte (inputBytes s) s = some t.result) ∧
    (∃ t, exec .adler32Block s = .next t ∧ chainBytes .adler32Byte (inputBytes s) s = some t.result)

/-! ## Match finder -/

/-- Soundness of the match finder for every hash function and input: putting back the bytes the matches refer to
reproduces the input, so every match refers to equal bytes of the same input, and literals and matches tile it in order
(42_match_finder R180, R191). -/
def Obligations.EventsReproduceTheInput : Prop :=
  ∀ (hash : Byte → Byte → Byte → SlotIndex) (compEn : Bool) (input : List Byte),
    expandEvents [] (findEvents hash compEn input).1 = some input

/-- Every match has a length in 3..258 and a distance in 1..32768 (42_match_finder R180, R184, R185). -/
def Obligations.MatchesAreInRange : Prop :=
  ∀ (hash : Byte → Byte → Byte → SlotIndex) (compEn : Bool) (input : List Byte),
    ∀ e ∈ (findEvents hash compEn input).1, e.inRange = true

/-- For every hash function, one byte value repeated `r >= 4` times is a literal, matches of length 258 at distance 1,
and one shorter match or one or two literals for what is left (42_match_finder R191 (c)). -/
def Obligations.RunOfOneByte : Prop :=
  ∀ (hash : Byte → Byte → Byte → SlotIndex) (x : Byte) (r : Nat), 4 ≤ r → r < 4294967296 →
    (findEvents hash true (List.replicate r x)).1 =
      Event.literal x :: List.replicate ((r - 1) / 258) (Event.copy 258 1) ++
        (if 3 ≤ (r - 1) % 258 then [Event.copy ((r - 1) % 258) 1]
         else List.replicate ((r - 1) % 258) (Event.literal x))

/-- The match table a command leaves remembers, for every slot, the latest position whose three-byte prefix hashes to it,
whether that position was a literal, began a match or lay inside one: "only the later is remembered"
(42_match_finder R186, R187, R191 (b)). -/
def Obligations.TableKeepsTheLatestPosition : Prop :=
  ∀ (hash : Byte → Byte → Byte → SlotIndex) (input : List Byte) (k : SlotIndex), input.length < 4294967296 →
    let slot := (findEvents hash true input).2.slot k
    (∀ c, slot = some c → hashAt hash input c.toNat = some k ∧ ∀ q, c.toNat < q → hashAt hash input q ≠ some k) ∧
    (slot = none → ∀ q, hashAt hash input q ≠ some k)

/-- Pieces of fewer than 4 bytes are all literals, whatever the hash function and level (70_reset_and_hazards R303). -/
def Obligations.ShortPiecesAreLiterals : Prop :=
  ∀ (hash : Byte → Byte → Byte → SlotIndex) (compEn : Bool) (input : List Byte), input.length < 4 →
    (findEvents hash compEn input).1 = input.map Event.literal

/-- The plain-data form of HASH3 is as open as the parameter: every total function from three bytes to a slot index is
given by some list (00_scope R10; the form is the model's choice, entry 1). -/
def Obligations.EveryHashFunctionIsExpressible : Prop :=
  ∀ f : Byte → Byte → Byte → SlotIndex, ∃ table : Config.HashTable, ∀ b0 b1 b2, hash3 table b0 b1 b2 = f b0 b1 b2

/-! ## Bit packer and codes -/

/-- `rev(v, w)`: bit `i` of the result is bit `w - 1 - i` of `v`, nothing above, `rev(v, 0) = 0`, and the rule's three
examples (00_scope R15). -/
def Obligations.RevReversesBits : Prop :=
  (∀ (v : Word) (w i : Nat), w ≤ 32 → i < w → (rev v w).getLsbD i = v.getLsbD (w - 1 - i)) ∧
  (∀ (v : Word) (w i : Nat), w ≤ 32 → w ≤ i → (rev v w).getLsbD i = false) ∧
  (∀ v : Word, rev v 0 = 0#32) ∧
  rev 0b00110000#32 8 = 0b00001100#32 ∧ rev 0b10001#32 5 = 0b10001#32 ∧ rev 0b00011#32 5 = 0b11000#32

/-- The packer keeps the bit stream: the bits written and the bits left pending are the bits that were pending followed
by the bits pushed, in order; and its entry condition holds again (43_bit_packer R200, R201). -/
def Obligations.PackerKeepsTheBitStream : Prop :=
  ∀ (p : Packer) (xs : List Push), p.fits = true → (∀ x ∈ xs, x.fits = true) →
    streamBits (pushAll p xs).1 ++ (pushAll p xs).2.bits = p.bits ++ pushBits xs ∧ (pushAll p xs).2.fits = true

/-- Grouping does not matter: two pushes have the same effect as one of both codes, when their widths fit one push
(43_bit_packer R202). -/
def Obligations.PushGroupingDoesNotMatter : Prop :=
  ∀ (p : Packer) (x y : Push), p.fits = true → x.fits = true → y.fits = true → x.width + y.width ≤ 24 →
    pushAll p [x, y] = push p ⟨x.code ||| (y.code <<< x.width), x.width + y.width⟩

/-- One command that starts with `cnt = c0` and pushes `p` bits writes `floor((c0 + p) / 8)` bytes and leaves
`(c0 + p) mod 8`; a flush then brings the total to `ceil((c0 + p) / 8)` (43_bit_packer R205). -/
def Obligations.PackerAccounting : Prop :=
  ∀ (p : Packer) (xs : List Push), p.cnt ≤ 7 →
    (pushAll p xs).1.length = (p.cnt + totalWidth xs) / 8 ∧
    (pushAll p xs).2.cnt = (p.cnt + totalWidth xs) % 8 ∧
    ((pushAll p xs).1 ++ (flushToByte (pushAll p xs).2).1).length = (p.cnt + totalWidth xs + 7) / 8

/-- `flush_to_byte`: nothing with no pending bit, else one byte with the pending bits below and zeros above; no bit is
pending afterwards (43_bit_packer R203). -/
def Obligations.FlushPadsWithZeros : Prop :=
  ∀ p : Packer, p.fits = true →
    (flushToByte p).2 = ⟨0#32, 0⟩ ∧
    (p.cnt = 0 → (flushToByte p).1 = []) ∧
    (0 < p.cnt → ∃ b, (flushToByte p).1 = [b] ∧
      (∀ i, i < p.cnt → b.getLsbD i = p.pend.getLsbD i) ∧ (∀ i, p.cnt ≤ i → b.getLsbD i = false))

/-- A literal is one push of its reversed code: 8 bits for a byte up to 143, else 9 (44_block_encoder R213). -/
def Obligations.LiteralCodes : Prop :=
  ∀ b : Byte, literalPushes Tables.contents b =
    if b.toNat ≤ 143 then [⟨rev (BitVec.ofNat 32 (0x30 + b.toNat)) 8, 8⟩]
    else [⟨rev (BitVec.ofNat 32 (0x190 + (b.toNat - 144))) 9, 9⟩]

/-- The distance lookup: for every distance of the format the row with the largest base at most it, and the extra-bits
value fits (30_encoding R109). -/
def Obligations.DistanceLookup : Prop :=
  ∀ d : Nat, 1 ≤ d → d ≤ 32768 →
    rowFor distanceRows d ∈ distanceRows ∧ (rowFor distanceRows d).base ≤ d ∧
    (∀ row ∈ distanceRows, row.base ≤ d → row.base ≤ (rowFor distanceRows d).base) ∧
    d - (rowFor distanceRows d).base < 2 ^ (rowFor distanceRows d).extra

/-- The length lookup: for lengths up to 257 the row of 257..284 with the largest base at most it, for 258 the row 285
without extra bits; the extra-bits value fits (30_encoding R107). -/
def Obligations.LengthLookup : Prop :=
  (∀ l : Nat, 3 ≤ l → l ≤ 257 →
    rowFor lengthRows l ∈ lengthRows ∧ (rowFor lengthRows l).sym ≤ 284 ∧ (rowFor lengthRows l).base ≤ l ∧
    (∀ row ∈ lengthRows, row.sym ≤ 284 → row.base ≤ l → row.base ≤ (rowFor lengthRows l).base) ∧
    l - (rowFor lengthRows l).base < 2 ^ (rowFor lengthRows l).extra) ∧
  rowFor lengthRows 258 = ⟨285, 258, 0⟩

/-- Cost bounds: a literal costs 8 or 9 bits, a match 12 to 31, one of length 3 at most 25, so `n` input bytes cost at
most `9 * n` bits at both levels, and at level 0 exactly `8 * n` plus one for each byte from 144 on
(44_block_encoder R218). -/
def Obligations.DataCostsAtMostNineBitsPerByte : Prop :=
  (∀ b : Byte, eventCost (.literal b) = 8 ∨ eventCost (.literal b) = 9) ∧
  (∀ l d : Nat, (Event.copy l d).inRange = true → 12 ≤ eventCost (.copy l d) ∧ eventCost (.copy l d) ≤ 31) ∧
  (∀ d : Nat, (Event.copy 3 d).inRange = true → eventCost (.copy 3 d) ≤ 25) ∧
  (∀ s : State, s.tbl = Tables.contents → totalWidth (dataPushes s) ≤ 9 * s.inLen.toNat) ∧
  (∀ s : State, s.tbl = Tables.contents → s.compEn = false →
    totalWidth (dataPushes s) = 8 * s.inLen.toNat + (inputBytes s).countP (fun b => decide (144 ≤ b.toNat)))

/-! ## Stream commands -/

/-- INIT completes in every state: the descriptor of a fresh session, MTAB all invalid, nothing else touched
(45_stream_commands R237). -/
def Obligations.InitStartsASession : Prop :=
  ∀ (s : State) (level : BitVec 1) (fmt : BitVec 2) (f : Format), formatCode f = fmt →
    exec (.init level fmt) s = .next { s with
      format := f, compEn := decide (level = 1#1), pend := 0#32, cnt := 0#3,
      checksum := if f = .zlib then 1#32 else 0#32, totalIn := 0#32, mtab := Mtab.cleared, phase := .init,
      result := 0#32, cc := .ok }

/-- SEND_HEADER in phase INIT writes the header of the session's format from OBUF index 0 on, moves to EOB and returns
the number of bytes; with less capacity than that it is the undefined outcome, a fault (45_stream_commands R231 to R233,
R238; 60_exceptions R270). -/
def Obligations.SendHeaderWritesTheEnvelopeHeader : Prop :=
  ∀ s : State, s.phase = .init →
    let header : List Byte := match s.format with
      | .raw => []
      | .zlib => [0x78#8, 0x01#8]
      | .gzip => [0x1F#8, 0x8B#8, 0x08#8, 0x00#8, 0x00#8, 0x00#8, 0x00#8, 0x00#8, 0x04#8, 0x03#8]
    if header.length ≤ s.outCap.toNat then
      exec .sendHeader s = .next { s with
        phase := .eob, obuf := s.obuf.storeFrom 0 header, result := BitVec.ofNat 32 header.length, cc := .ok }
    else exec .sendHeader s = .fault .obufOverflow

/-- FINISH in phase TRAILER_PENDING writes the pending bits as one byte, if there are any, and the trailer of the
session's format, and moves to DONE with no bit pending; with less capacity than that it is the undefined outcome; with
the contract's 12 bytes it always completes, and writes at most 9 (45_stream_commands R234 to R236, R240;
60_exceptions R270). -/
def Obligations.FinishFlushesAndWritesTheTrailer : Prop :=
  ∀ s : State, s.phase = .trailerPending →
    let c := s.checksum
    let n := s.totalIn
    let trailer : List Byte := match s.format with
      | .raw => []
      | .zlib => [c.extractLsb' 24 8, c.extractLsb' 16 8, c.extractLsb' 8 8, c.extractLsb' 0 8]
      | .gzip => [c.extractLsb' 0 8, c.extractLsb' 8 8, c.extractLsb' 16 8, c.extractLsb' 24 8,
          n.extractLsb' 0 8, n.extractLsb' 8 8, n.extractLsb' 16 8, n.extractLsb' 24 8]
    let out := (if s.cnt = 0#3 then [] else [s.pend.extractLsb' 0 8]) ++ trailer
    (if out.length ≤ s.outCap.toNat then
      exec .finish s = .next { s with
        phase := .done, pend := 0#32, cnt := 0#3, obuf := s.obuf.storeFrom 0 out,
        result := BitVec.ofNat 32 out.length, cc := .ok }
    else exec .finish s = .fault .obufOverflow) ∧
    out.length ≤ 9 ∧ (12 ≤ s.outCap.toNat → ∃ t, exec .finish s = .next t)

/-- ENCODE by the table of 45_stream_commands R241: with tables ready, in a phase that allows it, the bytes written are
the envelope header and the items of the row through the packer, and the next state is the row's, with the checksum and
length updated and MTAB rebuilt where data is sent; with less capacity than the bytes written it is the undefined
outcome (45_stream_commands R239, R241; 44_block_encoder R216, R217; 60_exceptions R270). -/
def Obligations.EncodeFollowsTheCaseTable : Prop :=
  ∀ (s : State) (more : BitVec 1), s.tablesReady = true →
    s.phase = .init ∨ s.phase = .eob ∨ s.phase = .inBlock →
    let m := decide (more = 1#1)
    let out := encodeOutput m s
    let sends := !(encodeItems s.phase s.inLen.toNat m).isEmpty
    if out.1.length ≤ s.outCap.toNat then
      exec (.encode more) s = .next { s with
        phase := encodeExit s.phase s.inLen.toNat m
        pend := out.2.pend
        cnt := BitVec.ofNat 3 out.2.cnt
        checksum := if sends then sessionChecksum s.format s.tbl.crc s.checksum (inputBytes s) else s.checksum
        totalIn := if sends then s.totalIn + s.inLen else s.totalIn
        mtab := if sends then (sessionEvents s).2 else s.mtab
        obuf := s.obuf.storeFrom 0 out.1
        result := BitVec.ofNat 32 out.1.length
        cc := .ok }
    else exec (.encode more) s = .fault .obufOverflow

/-- The capacity contract is enough: from every sound state, a command whose capacity duty is kept (`WCE(n)` for ENCODE,
12 for FINISH, 10 for SEND_HEADER) ends in a next state, and an ENCODE that is not refused writes at most `WCE(n)` bytes
(70_reset_and_hazards R297, R298). -/
def Obligations.CapacityContractPreventsOverflow : Prop :=
  ∀ (s : State) (i : Instr), s.Sound → capacityKept i s = true →
    ∃ t, exec i s = .next t ∧
      (∀ more, i = .encode more → t.cc = .ok → t.result.toNat ≤ s.inLen.toNat + s.inLen.toNat / 8 + 12)

/-- The only undefined outcome is the overflow of OBUF, it belongs to the three commands that write OBUF, and no command
is without a meaning (60_exceptions R260, R270). -/
def Obligations.OverflowIsTheOnlyFault : Prop :=
  ∀ (i : Instr) (s : State), (∀ r, exec i s ≠ .refused r) ∧
    (∀ f, exec i s = .fault f → f = .obufOverflow ∧ (i = .sendHeader ∨ i = .finish ∨ ∃ more, i = .encode more))

/-! ## Violations and the phase graph -/

/-- ENCODE and the four checksum commands before TBLINIT raise CC_TABLES, whatever the phase; the other four commands
never do (60_exceptions R263, R267). -/
def Obligations.TablesMissingIsDetected : Prop :=
  (∀ (s : State) (i : Instr), s.tablesReady = false →
    (∃ more, i = .encode more) ∨ (∃ b, i = .crc32Byte b) ∨ i = .crc32Block ∨ (∃ b, i = .adler32Byte b) ∨
      i = .adler32Block →
    exec i s = .next { s with cc := .tables, viol := true, result := 0xFFFFFFFF#32 }) ∧
  (∀ (s t : State) (i : Instr), i = .tblinit ∨ (∃ l f, i = .init l f) ∨ i = .sendHeader ∨ i = .finish →
    exec i s = .next t → t.cc ≠ .tables)

/-- The table of 60_exceptions R264: SEND_HEADER only in INIT, ENCODE only in INIT, EOB and IN_BLOCK (tables being
ready), FINISH only in TRAILER_PENDING; elsewhere CC_PHASE, and nowhere else. -/
def Obligations.PhaseTable : Prop :=
  ∀ (s : State) (i : Instr), (∀ more, i = .encode more → s.tablesReady = true) →
    (phaseRefuses i s.phase = true →
      exec i s = .next { s with cc := .phase, viol := true, result := 0xFFFFFFFF#32 }) ∧
    (phaseRefuses i s.phase = false → ∀ t, exec i s = .next t → t.cc ≠ .phase)

/-- Violations are precise: whatever word was written, if the command ends with a code other than CC_OK, then `cc`,
`viol` and RESULT are all that changed (60_exceptions R266). -/
def Obligations.ViolationsChangeNothingElse : Prop :=
  ∀ (w : Word) (s t : State), runWord w s = .next t → t.cc ≠ .ok →
    t = { s with cc := t.cc, viol := true, result := 0xFFFFFFFF#32 }

/-- The phase graph: a command that ends with CC_OK leads along its edge of 60_exceptions R275, from a phase in which the
command has one, and a refused one leaves the phase as it was; there is no other edge. Only INIT makes the phase number
smaller, so DONE is left by INIT only. -/
def Obligations.PhaseGraph : Prop :=
  ∀ (i : Instr) (s t : State), exec i s = .next t →
    (t.cc = .ok → phaseRefuses i s.phase = false ∧ ((∃ more, i = .encode more) → s.tablesReady = true) ∧
      t.phase = phaseAfter i s) ∧ (t.cc ≠ .ok → t.phase = s.phase) ∧
    ((∀ l f, i ≠ .init l f) → (phaseCode s.phase).toNat ≤ (phaseCode t.phase).toNat)

/-- What no command touches: the operand registers, the input, the parameter and the host's own fields; `viol` and
`tables_ready` are never cleared, TBL is written by the first TBLINIT only, and the session's format and level by INIT
only (10_state R23, R25, R27, R28; 40_tables_init R145). -/
def Obligations.CommandFrame : Prop :=
  ∀ (i : Instr) (s t : State), exec i s = .next t →
    t.inLen = s.inLen ∧ t.outCap = s.outCap ∧ t.seed = s.seed ∧ t.ibuf = s.ibuf ∧ t.hashTable = s.hashTable ∧
    t.script = s.script ∧ t.observed = s.observed ∧ t.cutOffs = s.cutOffs ∧
    (s.viol = true → t.viol = true) ∧ (s.tablesReady = true → t.tablesReady = true) ∧
    (i ≠ .tblinit → t.tablesReady = s.tablesReady) ∧
    (i ≠ .tblinit ∨ s.tablesReady = true → t.tbl = s.tbl) ∧
    ((∀ l f, i ≠ .init l f) → t.format = s.format ∧ t.compEn = s.compEn)

/-- What the commands outside the session leave of it: TBLINIT and the checksum commands touch no part of the descriptor
and not MTAB; SEND_HEADER touches of them the phase only; FINISH keeps checksum and length; ENCODE keeps none of these
but what its own rule says (41_checksum R166, R170; 45_stream_commands R238, R240). -/
def Obligations.DescriptorFrame : Prop :=
  ∀ (i : Instr) (s t : State), exec i s = .next t → (∀ more, i ≠ .encode more) → (∀ l f, i ≠ .init l f) →
    t.checksum = s.checksum ∧ t.totalIn = s.totalIn ∧ t.mtab = s.mtab ∧
    (i ≠ .finish → t.pend = s.pend ∧ t.cnt = s.cnt) ∧
    (i ≠ .finish → i ≠ .sendHeader → t.phase = s.phase)

/-- The frame of memory: IBUF is never written; every byte of OBUF a command did not write reads as before, and the
bytes written are those at the indices below RESULT of a SEND_HEADER, ENCODE or FINISH that completed
(20_memory R60, R63, R64; 60_exceptions R266). -/
def Obligations.MemoryFrame : Prop :=
  ∀ (i : Instr) (s t : State), exec i s = .next t →
    t.ibuf = s.ibuf ∧
    (∀ a, t.result.toNat ≤ a → t.obuf.read a = s.obuf.read a) ∧
    (t.cc ≠ .ok ∨ (i ≠ .sendHeader ∧ i ≠ .finish ∧ ∀ more, i ≠ .encode more) →
      ∀ a, t.obuf.read a = s.obuf.read a)

/-- `viol` stays 1, and TBL and `tables_ready` stay as they are once set, through every step but the hardware reset
(60_exceptions R268, 40_tables_init R145, 70_reset_and_hazards R306). -/
def Obligations.OnlyResetClearsTheFlags : Prop :=
  ∀ s t : State, step s = .next t → (∀ rest, s.script ≠ .reset :: rest) →
    (∀ w rest, s.script ≠ .resetDuring w :: rest) →
    (s.viol = true → t.viol = true) ∧ (s.tablesReady = true → t.tablesReady = true ∧ t.tbl = s.tbl)

/-! ## Sessions and whole-machine claims -/

/-- Everything State.Sound says holds at reset (with the model's choice of TBL and unbound bytes, entries 4 to 6, none
of which it mentions). -/
def Obligations.ResetIsSound : Prop := State.reset.Sound

/-- Every step keeps State.Sound, from every state that has it (10_state R29, R32; 20_memory R64). -/
def Obligations.StepKeepsSound : Prop :=
  ∀ s t : State, s.Sound → step s = .next t → t.Sound

/-- What one ENCODE writes is a function of phase, level, format, pending bits, input, command word and HASH3 alone: no
other part of the state shows in its output (10_state R37). -/
def Obligations.EncodeOutputDependsOnlyOnItsInputs : Prop :=
  ∀ (s1 s2 t1 t2 : State) (more : BitVec 1), s1.Sound → s2.Sound → s1.tablesReady = true → s2.tablesReady = true →
    s1.phase = s2.phase → s1.compEn = s2.compEn → s1.format = s2.format → s1.pend = s2.pend → s1.cnt = s2.cnt →
    s1.inLen = s2.inLen → inputBytes s1 = inputBytes s2 → s1.hashTable = s2.hashTable →
    exec (.encode more) s1 = .next t1 → exec (.encode more) s2 = .next t2 → t1.cc = .ok →
    t2.cc = .ok ∧ t1.result = t2.result ∧ outputOf t1 = outputOf t2 ∧ t1.phase = t2.phase ∧ t1.pend = t2.pend ∧
      t1.cnt = t2.cnt

/-- Chunking transparency of checksum and length: two ENCODEs leave the checksum and the length of the concatenation of
their inputs (45_stream_commands R243, 44_block_encoder R217, 10_state R32). Inputs whose WCE no 32-bit OUT_CAP holds are
left out, DESIGN CHOICE, entry 20. -/
def Obligations.ChunkingKeepsChecksumAndLength : Prop :=
  ∀ (s : State) (a b : List Byte) (more : BitVec 1), s.Sound → s.tablesReady = true →
    s.phase = .init ∨ s.phase = .eob ∨ s.phase = .inBlock →
    wce a.length < 4294967296 → wce b.length < 4294967296 →
    ∃ t u, exec (.encode 1#1) (feed a s) = .next t ∧ exec (.encode more) (feed b t) = .next u ∧
      u.checksum = sessionChecksum s.format s.tbl.crc s.checksum (a ++ b) ∧
      u.totalIn = s.totalIn + BitVec.ofNat 32 (a.length + b.length)

/-- The empty session gives the streams of 45_stream_commands R244, for either level; their block bits are a stream whose
content is empty. The last clause rests on `inflate`, a reader that is the model's own, DESIGN CHOICE, entry 15. -/
def Obligations.EmptySessionStreams : Prop :=
  ∀ (s : State) (level : BitVec 1), s.tablesReady = true → s.tbl = Tables.contents →
    let stream := fun fmt => (runSession level fmt [.last [], .finish] s).map Prod.fst
    stream 0#2 = some [0x03#8, 0x00#8] ∧
    stream 1#2 = some [0x78#8, 0x01#8, 0x03#8, 0x00#8, 0x00#8, 0x00#8, 0x00#8, 0x01#8] ∧
    stream 2#2 = some [0x1F#8, 0x8B#8, 0x08#8, 0x00#8, 0x00#8, 0x00#8, 0x00#8, 0x00#8, 0x04#8,
      0x03#8, 0x03#8, 0x00#8, 0x00#8, 0x00#8, 0x00#8, 0x00#8, 0x00#8, 0x00#8, 0x00#8, 0x00#8] ∧
    ∃ pad, inflate [0x03#8, 0x00#8] = some ([], pad) ∧ pad.length < 8

/-- The output of every session that follows the grammar of 45_stream_commands R242 (with or without SEND_HEADER, TBLINIT
and checksum commands anywhere in it), in every format, at both levels, however the input is cut into pieces and
whatever HASH3 is: the session completes, and what it leaves is the envelope header, a body that a reader of fixed-Huffman
blocks restores to exactly the input with fewer than 8 bits of padding left, and the trailer with the checksum and
length of the input (30_encoding R100, R111; 95_test_vectors S3, S6). The reader `inflate` is the model's own, DESIGN
CHOICE, entry 15; empty ENCODEs before SEND_HEADER: DEDUCED, entry 19; pieces whose WCE no 32-bit OUT_CAP holds are left
out, DESIGN CHOICE, entry 20. -/
def Obligations.SessionsRoundTrip : Prop :=
  ∀ (s : State) (level : BitVec 1) (fmt : BitVec 2) (f : Format) (calls : List SessionCall) (idle : Nat) (header : Bool)
    (pieces : List (List Byte)) (last : List Byte),
    (s.tablesReady = true → s.tbl = Tables.contents) → tablesBeforeUse s.tablesReady calls = true →
    formatCode f = fmt → calls.filter SessionCall.isStream = sessionShape idle header pieces last →
    (∀ piece ∈ last :: pieces, wce piece.length < 4294967296) →
    let content := pieces.flatten ++ last
    let checksum := sessionChecksum f Tables.contents.crc (emptyChecksum f) content
    let length := BitVec.ofNat 32 content.length
    ∃ body pad t,
      runSession level fmt calls s = some (envelopeHeader f ++ body ++ envelopeTrailer f checksum length, t) ∧
      inflate body = some (content, pad) ∧ pad.length < 8 ∧
      t.phase = .done ∧ t.pend = 0#32 ∧ t.cnt = 0#3 ∧ t.checksum = checksum ∧ t.totalIn = length

/-- A session that completes without violation follows the grammar of 45_stream_commands R242, with TBLINIT and checksum
commands anywhere in it. The one sequence that R242 does not list and the commands' own rules allow, `ENCODE MORE` of no
byte before SEND_HEADER, is in the shape too (R239, 60_exceptions R264; DEDUCED, entry 19). Pieces of `2^32` bytes or more,
which no IN_LEN counts, are left out, DESIGN CHOICE, entry 20. -/
def Obligations.CompletedSessionsFollowTheGrammar : Prop :=
  ∀ (s t : State) (level : BitVec 1) (fmt : BitVec 2) (calls : List SessionCall) (out : List Byte),
    fmt ≠ 3#2 → (∀ piece, .more piece ∈ calls → piece.length < 4294967296) →
    runSession level fmt calls s = some (out, t) → t.phase = .done →
    ∃ idle header pieces last, calls.filter SessionCall.isStream = sessionShape idle header pieces last
end

