-- ==== Sys2Proof/Laws/Memory.lean ====
section
/-! SUPPORT. What the sparse storage does: read after write, every other address kept, and the canonical form kept by
every operation of IBUF, OBUF and the match table. -/

namespace Sys2Proof.Machine

section Cells
variable {β : Type}

@[simp] theorem cellAt_nil (a : Nat) : cellAt ([] : List (Nat × β)) a = none := rfl

theorem cellAt_putCell_same (cells : List (Nat × β)) (a : Nat) (v : β) : cellAt (putCell cells a v) a = some v := by
  induction cells with
  | nil => simp [putCell, cellAt]
  | cons c rest ih =>
    obtain ⟨k, w⟩ := c
    by_cases h1 : a < k
    · simp [putCell, cellAt, h1]
    · by_cases h2 : a = k
      · simp [putCell, cellAt, h2]
      · simp [putCell, cellAt, h1, h2, ih]

theorem cellAt_putCell_other (cells : List (Nat × β)) {a b : Nat} (v : β) (h : b ≠ a) :
    cellAt (putCell cells a v) b = cellAt cells b := by
  induction cells with
  | nil => simp [putCell, cellAt, h]
  | cons c rest ih =>
    obtain ⟨k, w⟩ := c
    by_cases h1 : a < k
    · simp [putCell, cellAt, h1, h]
    · by_cases h2 : a = k
      · subst h2; simp [putCell, cellAt, h]
      · by_cases h3 : b = k <;> simp [putCell, cellAt, h1, h2, h3, ih]

theorem cellAt_dropCell_same (cells : List (Nat × β)) (a : Nat) : cellAt (dropCell cells a) a = none := by
  induction cells with
  | nil => rfl
  | cons c rest ih =>
    obtain ⟨k, w⟩ := c
    by_cases h : a = k
    · subst h; simpa [dropCell] using ih
    · have hk : k ≠ a := fun e => h e.symm
      simpa [dropCell, hk, cellAt, h] using ih

theorem cellAt_dropCell_other (cells : List (Nat × β)) {a b : Nat} (h : b ≠ a) :
    cellAt (dropCell cells a) b = cellAt cells b := by
  induction cells with
  | nil => rfl
  | cons c rest ih =>
    obtain ⟨k, w⟩ := c
    by_cases hk : k = a
    · subst hk; simpa [dropCell, cellAt, h] using ih
    · by_cases hb : b = k
      · simp [dropCell, hk, cellAt, hb]
      · simpa [dropCell, hk, cellAt, hb] using ih

/-- `rising` as the library's pairwise order of the addresses. -/
theorem rising_iff_pairwise (cells : List (Nat × β)) :
    rising cells = true ↔ cells.Pairwise (fun c d => c.1 < d.1) := by
  induction cells with
  | nil => simp [rising]
  | cons c rest ih =>
    obtain ⟨j, v⟩ := c
    cases rest with
    | nil => simp [rising]
    | cons d more =>
      obtain ⟨k, w⟩ := d
      rw [rising, Bool.and_eq_true, ih]
      constructor
      · rintro ⟨hjk, hp⟩
        have hjk' : j < k := by simpa using hjk
        refine List.pairwise_cons.2 ⟨fun e he => ?_, hp⟩
        rcases List.mem_cons.1 he with rfl | he
        · exact hjk'
        · exact Nat.lt_trans hjk' ((List.pairwise_cons.1 hp).1 e he)
      · intro hp
        exact ⟨by simpa using (List.pairwise_cons.1 hp).1 (k, w) (by simp), (List.pairwise_cons.1 hp).2⟩

theorem mem_putCell {cells : List (Nat × β)} {a : Nat} {v : β} {c : Nat × β} (h : c ∈ putCell cells a v) :
    c = (a, v) ∨ c ∈ cells := by
  induction cells with
  | nil => simpa [putCell] using h
  | cons d rest ih =>
    obtain ⟨k, w⟩ := d
    by_cases h1 : a < k
    · simpa [putCell, h1] using h
    · by_cases h2 : a = k
      · have : c = (a, v) ∨ c ∈ rest := by simpa [putCell, h2] using h
        rcases this with e | e
        · exact .inl e
        · exact .inr (List.mem_cons_of_mem _ e)
      · have : c = (k, w) ∨ c ∈ putCell rest a v := by simpa [putCell, h1, h2] using h
        rcases this with e | e
        · exact .inr (by simp [e])
        · rcases ih e with e | e
          · exact .inl e
          · exact .inr (List.mem_cons_of_mem _ e)

theorem rising_putCell {cells : List (Nat × β)} (h : rising cells = true) (a : Nat) (v : β) :
    rising (putCell cells a v) = true := by
  rw [rising_iff_pairwise] at h ⊢
  induction cells with
  | nil => simp [putCell]
  | cons d rest ih =>
    obtain ⟨k, w⟩ := d
    obtain ⟨hk, hrest⟩ := List.pairwise_cons.1 h
    by_cases h1 : a < k
    · simp only [putCell, if_pos h1]
      refine List.pairwise_cons.2 ⟨fun e he => ?_, h⟩
      rcases List.mem_cons.1 he with rfl | he
      · exact h1
      · exact Nat.lt_trans h1 (hk e he)
    · by_cases h2 : a = k
      · subst h2
        simp only [putCell, if_neg h1, if_pos]
        exact List.pairwise_cons.2 ⟨hk, hrest⟩
      · simp only [putCell, if_neg h1, if_neg h2]
        refine List.pairwise_cons.2 ⟨fun e he => ?_, ih hrest⟩
        rcases mem_putCell he with rfl | he
        · exact (by omega : k < a)
        · exact hk e he

theorem rising_dropCell {cells : List (Nat × β)} (h : rising cells = true) (a : Nat) :
    rising (dropCell cells a) = true := by
  rw [rising_iff_pairwise] at h ⊢
  exact h.sublist List.filter_sublist

end Cells

namespace Memory

/-- A read after a write to the same index gives the value written. -/
theorem read_write_same (mem : Memory) (a : Nat) (v : Byte) : (mem.write a v).read a = v := by
  by_cases h : v = unlisted
  · simp [write, h, read, cellAt_dropCell_same]
  · simp [write, h, read, cellAt_putCell_same]

/-- A write leaves every other index alone. -/
theorem read_write_other (mem : Memory) {a b : Nat} (v : Byte) (h : b ≠ a) : (mem.write a v).read b = mem.read b := by
  by_cases hv : v = unlisted
  · simp [write, hv, read, cellAt_dropCell_other _ h]
  · simp [write, hv, read, cellAt_putCell_other _ v h]

theorem wf_iff (mem : Memory) :
    mem.wf = true ↔ rising mem = true ∧ ∀ c ∈ mem, c.1 < Config.indexSpace ∧ c.2 ≠ unlisted := by
  simp [wf, List.all_eq_true]

/-- A write inside the index space keeps the canonical form. -/
theorem wf_write {mem : Memory} (h : mem.wf = true) {a : Nat} (ha : a < Config.indexSpace) (v : Byte) :
    (mem.write a v).wf = true := by
  rw [wf_iff] at h ⊢
  by_cases hv : v = unlisted
  · simp only [write, if_pos hv]
    exact ⟨rising_dropCell h.1 a, fun c hc => h.2 c (List.mem_filter.1 hc).1⟩
  · simp only [write, if_neg hv]
    refine ⟨rising_putCell h.1 a v, fun c hc => ?_⟩
    rcases mem_putCell hc with rfl | hc
    · exact ⟨ha, hv⟩
    · exact h.2 c hc

/-- What a store of several bytes leaves at each index (20_memory R63, R64). -/
theorem read_storeFrom (bytes : List Byte) (mem : Memory) (a b : Nat) :
    (mem.storeFrom a bytes).read b = if a ≤ b ∧ b < a + bytes.length then bytes.getD (b - a) 0#8 else mem.read b := by
  induction bytes generalizing mem a with
  | nil => simp [storeFrom]
  | cons v vs ih =>
    rw [storeFrom, ih]
    by_cases hb : b = a
    · subst hb
      simp [read_write_same]
    · rw [read_write_other _ _ hb]
      by_cases h : a + 1 ≤ b ∧ b < a + 1 + vs.length
      · have h' : a ≤ b ∧ b < a + (v :: vs).length := by simp only [List.length_cons]; omega
        rw [if_pos h, if_pos h']
        obtain ⟨k, hk⟩ : ∃ k, b - a = k + 1 := ⟨b - a - 1, by omega⟩
        have : b - (a + 1) = k := by omega
        simp [hk, this]
      · have h' : ¬ (a ≤ b ∧ b < a + (v :: vs).length) := by simp only [List.length_cons]; omega
        rw [if_neg h, if_neg h']

/-- A store inside the index space keeps the canonical form. -/
theorem wf_storeFrom (bytes : List Byte) {mem : Memory} (h : mem.wf = true) (a : Nat)
    (ha : a + bytes.length ≤ Config.indexSpace) : (mem.storeFrom a bytes).wf = true := by
  induction bytes generalizing mem a with
  | nil => exact h
  | cons v vs ih =>
    simp only [List.length_cons] at ha
    exact ih (wf_write h (by omega) v) (a + 1) (by omega)

/-- The first bytes after a store from index 0 are the bytes stored. -/
theorem firstBytes_storeFrom (mem : Memory) (bytes : List Byte) :
    (mem.storeFrom 0 bytes).firstBytes bytes.length = bytes := by
  apply List.ext_getElem
  · simp [firstBytes]
  · intro i h1 h2
    simp only [firstBytes, List.getElem_map, List.getElem_range, read_storeFrom]
    simp [h2]

theorem length_firstBytes (mem : Memory) (n : Nat) : (mem.firstBytes n).length = n := by simp [firstBytes]

theorem mem_cellsFrom {bytes : List Byte} {a : Nat} {c : Nat × Byte} (h : c ∈ cellsFrom a bytes) :
    a ≤ c.1 ∧ c.1 < a + bytes.length ∧ c.2 ≠ unlisted := by
  induction bytes generalizing a with
  | nil => simp [cellsFrom] at h
  | cons v vs ih =>
    simp only [List.length_cons]
    by_cases hv : v = unlisted
    · rw [cellsFrom, if_pos hv] at h
      have := ih h
      exact ⟨by omega, by omega, this.2.2⟩
    · rw [cellsFrom, if_neg hv] at h
      rcases List.mem_cons.1 h with rfl | h
      · exact ⟨Nat.le_refl _, by simp, hv⟩
      · have := ih h
        exact ⟨by omega, by omega, this.2.2⟩

theorem rising_cellsFrom (bytes : List Byte) (a : Nat) : rising (cellsFrom a bytes) = true := by
  rw [rising_iff_pairwise]
  induction bytes generalizing a with
  | nil => simp [cellsFrom]
  | cons v vs ih =>
    by_cases hv : v = unlisted
    · rw [cellsFrom, if_pos hv]; exact ih (a + 1)
    · rw [cellsFrom, if_neg hv]
      exact List.pairwise_cons.2 ⟨fun e he => (mem_cellsFrom he).1, ih (a + 1)⟩

/-- What the host binds is in canonical form. -/
theorem wf_ofBytes (bytes : List Byte) : (ofBytes bytes).wf = true := by
  rw [wf_iff]
  refine ⟨rising_cellsFrom _ 0, fun c hc => ?_⟩
  have h := mem_cellsFrom hc
  simp only [List.length_take, Nat.zero_add] at h
  exact ⟨by omega, h.2.2⟩

theorem cellAt_cellsFrom_below (bytes : List Byte) {a b : Nat} (h : b < a) : cellAt (cellsFrom a bytes) b = none := by
  induction bytes generalizing a with
  | nil => rfl
  | cons v vs ih =>
    by_cases hv : v = unlisted
    · rw [cellsFrom, if_pos hv]; exact ih (by omega)
    · rw [cellsFrom, if_neg hv, cellAt, if_neg (by omega)]; exact ih (by omega)

theorem read_cellsFrom (bytes : List Byte) (a i : Nat) : (cellsFrom a bytes).read (a + i) = bytes.getD i 0#8 := by
  induction bytes generalizing a i with
  | nil => simp [cellsFrom, read, unlisted]
  | cons v vs ih =>
    cases i with
    | zero =>
      by_cases hv : v = unlisted
      · rw [cellsFrom, if_pos hv]
        simp [read, cellAt_cellsFrom_below vs (Nat.lt_succ_self a), hv, unlisted]
      · rw [cellsFrom, if_neg hv]; simp [read, cellAt]
    | succ i =>
      have e : a + (i + 1) = a + 1 + i := by omega
      by_cases hv : v = unlisted
      · rw [cellsFrom, if_pos hv, e, ih]; simp
      · rw [cellsFrom, if_neg hv, e]
        have hne : a + 1 + i ≠ a := by omega
        have := ih (a + 1) i
        simp only [read, cellAt, if_neg hne] at this ⊢
        simpa using this

/-- Bound bytes are read back. -/
theorem firstBytes_ofBytes {bytes : List Byte} (h : bytes.length ≤ Config.indexSpace) :
    (ofBytes bytes).firstBytes bytes.length = bytes := by
  apply List.ext_getElem
  · simp [firstBytes]
  · intro i h1 h2
    have := read_cellsFrom bytes 0 i
    simp only [Nat.zero_add] at this
    simp [firstBytes, ofBytes, List.take_of_length_le h, this, h2]

end Memory

namespace Mtab

theorem wf_iff (m : Mtab) : m.wf = true ↔ rising m = true ∧ ∀ c ∈ m, c.1 < Config.slotCount := by
  simp [wf, List.all_eq_true]

theorem wf_cleared : cleared.wf = true := by decide

/-- An insertion keeps the canonical form. -/
theorem wf_insert {m : Mtab} (h : m.wf = true) (hh : SlotIndex) (pos : Nat) : (m.insert hh pos).wf = true := by
  rw [wf_iff] at h ⊢
  refine ⟨rising_putCell h.1 _ _, fun c hc => ?_⟩
  rcases mem_putCell hc with rfl | hc
  · exact hh.isLt
  · exact h.2 c hc

/-- An inserted position is found at its slot. -/
theorem slot_insert_same (m : Mtab) (h : SlotIndex) (pos : Nat) :
    (m.insert h pos).slot h = some (BitVec.ofNat 32 pos) := cellAt_putCell_same _ _ _

/-- An insertion leaves every other slot alone. -/
theorem slot_insert_other (m : Mtab) {h k : SlotIndex} (pos : Nat) (hne : k ≠ h) :
    (m.insert h pos).slot k = m.slot k :=
  cellAt_putCell_other _ _ (fun e => hne (BitVec.eq_of_toNat_eq e))

theorem slot_cleared (h : SlotIndex) : cleared.slot h = none := rfl

end Mtab

end Sys2Proof.Machine
end

