-- ==== Sys2Proof/Laws/MatchFinder.lean ====
section
/-! SUPPORT. What the match finder can answer at one position: the one inversion lemma of `find`, with the bound it
keeps on the positions in the match table (42_match_finder R180 to R190). -/

namespace Sys2Proof.Machine

/-- Every position in the table is below `p` (42_match_finder R183: a candidate is smaller than the position). -/
def Mtab.below (m : Mtab) (p : Nat) : Prop := ∀ c ∈ m, c.2.toNat < p

theorem Mtab.below_cleared (p : Nat) : Mtab.cleared.below p := by simp [Mtab.below, Mtab.cleared]

theorem Mtab.below_mono {m : Mtab} {p q : Nat} (h : m.below p) (hpq : p ≤ q) : m.below q :=
  fun c hc => Nat.lt_of_lt_of_le (h c hc) hpq

theorem Mtab.below_insert {m : Mtab} {p : Nat} (h : m.below p) (k : SlotIndex) :
    (m.insert k p).below (p + 1) := by
  intro c hc
  rcases mem_putCell hc with rfl | hc
  · simp only [BitVec.toNat_ofNat]
    exact Nat.lt_of_le_of_lt (Nat.mod_le _ _) (Nat.lt_succ_self p)
  · exact Nat.lt_of_lt_of_le (h c hc) (Nat.le_succ p)

theorem mem_of_cellAt {β : Type} {cells : List (Nat × β)} {a : Nat} {v : β} (h : cellAt cells a = some v) :
    (a, v) ∈ cells := by
  induction cells with
  | nil => simp at h
  | cons c rest ih =>
    obtain ⟨k, w⟩ := c
    by_cases hk : a = k
    · subst hk
      simp only [cellAt, if_true, Option.some.injEq] at h
      simp [h]
    · simp only [cellAt, if_neg hk] at h
      exact List.mem_cons_of_mem _ (ih h)

theorem Mtab.slot_below {m : Mtab} {p : Nat} (h : m.below p) {k : SlotIndex} {c : Word} (hc : m.slot k = some c) :
    c.toNat < p := h _ (mem_of_cellAt hc)

/-- Positions with a hash have three bytes left (42_match_finder R181). -/
theorem hashAt_some {hash : Byte → Byte → Byte → SlotIndex} {input : List Byte} {p : Nat} {k : SlotIndex}
    (h : hashAt hash input p = some k) : p + 3 ≤ input.length := by
  unfold hashAt at h
  split at h
  · rename_i b0 b1 b2 rest hd
    have := congrArg List.length hd
    simp only [List.length_drop, List.length_cons] at this
    omega
  · cases h

/-- Positions without a hash have at most two bytes left (42_match_finder R188). -/
theorem hashAt_none {hash : Byte → Byte → Byte → SlotIndex} {input : List Byte} {p : Nat}
    (h : hashAt hash input p = none) : input.length < p + 3 := by
  unfold hashAt at h
  split at h
  · cases h
  · rename_i hd
    by_contra hc
    have hl : 3 ≤ (input.drop p).length := by simp only [List.length_drop]; omega
    match hx : input.drop p, hl with
    | b0 :: b1 :: b2 :: rest, _ => exact hd b0 b1 b2 rest hx

theorem Mtab.below_insertAt {hash : Byte → Byte → Byte → SlotIndex} {input : List Byte} {m : Mtab} {q : Nat}
    (h : m.below q) : (insertAt hash input q m).below (q + 1) := by
  unfold insertAt
  split
  · exact Mtab.below_insert h _
  · exact Mtab.below_mono h (Nat.le_succ q)

theorem Mtab.below_insertCovered {hash : Byte → Byte → Byte → SlotIndex} {input : List Byte} (count : Nat) {m : Mtab}
    {q : Nat} (h : m.below q) : (insertCovered hash input count q m).below (q + count) := by
  induction count generalizing q m with
  | zero => exact h
  | succ count ih =>
    have := ih (q := q + 1) (Mtab.below_insertAt (hash := hash) (input := input) h)
    rwa [show q + (count + 1) = q + 1 + count by omega]

theorem Mtab.wf_insertAt {hash : Byte → Byte → Byte → SlotIndex} {input : List Byte} {m : Mtab} (q : Nat)
    (h : m.wf = true) : (insertAt hash input q m).wf = true := by
  unfold insertAt
  split
  · exact Mtab.wf_insert h _ _
  · exact h

theorem Mtab.wf_insertCovered {hash : Byte → Byte → Byte → SlotIndex} {input : List Byte} (count q : Nat) {m : Mtab}
    (h : m.wf = true) : (insertCovered hash input count q m).wf = true := by
  induction count generalizing q m with
  | zero => exact h
  | succ count ih => exact ih (q + 1) (Mtab.wf_insertAt q h)

/-- The run of equal bytes: bounded by the limit and by the end of the later sequence, and equal throughout
(42_match_finder R185). -/
theorem equalRun_spec (limit : Nat) (xs ys : List Byte) :
    equalRun limit xs ys ≤ limit ∧ equalRun limit xs ys ≤ xs.length ∧ equalRun limit xs ys ≤ ys.length ∧
      xs.take (equalRun limit xs ys) = ys.take (equalRun limit xs ys) := by
  induction limit generalizing xs ys with
  | zero => simp [equalRun]
  | succ limit ih =>
    match xs, ys with
    | [], _ => simp [equalRun]
    | _ :: _, [] => simp [equalRun]
    | x :: xs, y :: ys =>
      by_cases h : x = y
      · subst h
        have := ih xs ys
        have he : equalRun (limit + 1) (x :: xs) (x :: ys) = equalRun limit xs ys + 1 := by simp [equalRun]
        rw [he, List.take_succ_cons, List.take_succ_cons, this.2.2.2]
        simp only [List.length_cons, and_true]
        omega
      · simp [equalRun, h]

/-- The extended length of an accepted candidate: between 3 and 258, inside the input, over equal bytes
(42_match_finder R185). -/
theorem extend_spec {input : List Byte} {pos c : Nat} (hn : pos + 3 ≤ input.length)
    (h3 : (input.drop c).take 3 = (input.drop pos).take 3) :
    3 ≤ extend input pos c ∧ extend input pos c ≤ 258 ∧ pos + extend input pos c ≤ input.length ∧
      (input.drop c).take (extend input pos c) = (input.drop pos).take (extend input pos c) := by
  obtain ⟨h1, h2, h4, h5⟩ := equalRun_spec 255 (input.drop (c + 3)) (input.drop (pos + 3))
  have he : extend input pos c = 3 + equalRun 255 (input.drop (c + 3)) (input.drop (pos + 3)) := rfl
  rw [he]
  generalize equalRun 255 (input.drop (c + 3)) (input.drop (pos + 3)) = r at h1 h2 h4 h5 ⊢
  rw [List.length_drop] at h4
  refine ⟨by omega, by omega, by omega, ?_⟩
  have split : ∀ p : Nat, (input.drop p).take (3 + r) = (input.drop p).take 3 ++ (input.drop (p + 3)).take r := by
    intro p
    rw [List.take_add, List.drop_drop]
  rw [split, split, h3, h5]

/-- What `find` can answer (42_match_finder R190): the byte at the position as a literal, or a match of a length in
3..258 with an earlier position of the same input at most WINDOW back; the table afterwards holds only positions the
cursor has passed. -/
theorem find_spec (hash : Byte → Byte → Byte → SlotIndex) {input : List Byte} {pos : Nat} {m : Mtab}
    (hm : m.below pos) :
    ((find hash input pos m).2).below (pos + (find hash input pos m).1.span) ∧
    ((find hash input pos m).1 = literalAt input pos ∨
      ∃ length c, (find hash input pos m).1 = .copy length (pos - c) ∧ c < pos ∧ pos - c ≤ 32768 ∧ 3 ≤ length ∧
        length ≤ 258 ∧ pos + length ≤ input.length ∧ (input.drop c).take length = (input.drop pos).take length) := by
  unfold find
  split
  · exact ⟨Mtab.below_mono hm (Nat.le_add_right _ _), .inl rfl⟩
  · rename_i k hk
    have hn := hashAt_some hk
    have hins : (m.insert k pos).below (pos + 1) := Mtab.below_insert hm k
    split
    · exact ⟨hins, .inl rfl⟩
    · rename_i c hc
      have hcp := Mtab.slot_below hm hc
      split
      · rename_i hacc
        simp only [accepted, Bool.and_eq_true, decide_eq_true_eq] at hacc
        obtain ⟨e1, e2, e3, e4⟩ := extend_spec hn hacc.2
        refine ⟨?_, .inr ⟨_, c.toNat, rfl, hcp, hacc.1, e1, e2, e3, e4⟩⟩
        have := Mtab.below_insertCovered (hash := hash) (input := input) (extend input pos c.toNat - 1) hins
        simp only [Event.span]
        rwa [show pos + 1 + (extend input pos c.toNat - 1) = pos + extend input pos c.toNat by omega] at this
      · exact ⟨hins, .inl rfl⟩

/-- `find` keeps the table's canonical form. -/
theorem wf_find (hash : Byte → Byte → Byte → SlotIndex) (input : List Byte) (pos : Nat) {m : Mtab} (h : m.wf = true) :
    (find hash input pos m).2.wf = true := by
  unfold find
  split
  · exact h
  · split
    · exact Mtab.wf_insert h _ _
    · split
      · exact Mtab.wf_insertCovered _ _ (Mtab.wf_insert h _ _)
      · exact Mtab.wf_insert h _ _

/-- The loop keeps the table's canonical form. -/
theorem wf_findLoop (hash : Byte → Byte → Byte → SlotIndex) (input : List Byte) (fuel pos : Nat) {m : Mtab}
    (h : m.wf = true) : (findLoop hash input fuel pos m).2.wf = true := by
  induction fuel generalizing pos m with
  | zero => exact h
  | succ fuel ih =>
    unfold findLoop
    split
    · exact ih _ (wf_find hash input pos h)
    · exact h

/-- What a command leaves in the match table is in canonical form. -/
theorem wf_findEvents (hash : Byte → Byte → Byte → SlotIndex) (compEn : Bool) (input : List Byte) :
    (findEvents hash compEn input).2.wf = true := by
  unfold findEvents
  split
  · exact wf_findLoop hash input _ 0 Mtab.wf_cleared
  · exact Mtab.wf_cleared

end Sys2Proof.Machine
end

