-- ==== Sys2Proof/Laws/Packer.lean ====
section
/-! SUPPORT. What the bit packer does: how many bytes a push writes, what stays pending, and that the entry condition of
43_bit_packer R200 is the exit condition of every push. -/

namespace Sys2Proof.Machine

@[simp] theorem pushAll_nil (p : Packer) : pushAll p [] = ([], p) := rfl

theorem pushAll_cons (p : Packer) (x : Push) (xs : List Push) :
    pushAll p (x :: xs) = ((push p x).1 ++ (pushAll (push p x).2 xs).1, (pushAll (push p x).2 xs).2) := rfl

/-- Pushes in two groups: the second starts where the first ended. -/
theorem pushAll_append (p : Packer) (xs ys : List Push) :
    pushAll p (xs ++ ys) = ((pushAll p xs).1 ++ (pushAll (pushAll p xs).2 ys).1, (pushAll (pushAll p xs).2 ys).2) := by
  induction xs generalizing p with
  | nil => simp
  | cons x xs ih => simp only [List.cons_append, pushAll_cons, ih, List.append_assoc]

theorem length_shiftOut (n : Nat) (v : Word) : (shiftOut n v).1.length = n := by
  induction n generalizing v with
  | zero => rfl
  | succ n ih => simp [shiftOut, ih]

theorem shiftOut_rest (n : Nat) (v : Word) : (shiftOut n v).2.toNat = v.toNat / 2 ^ (8 * n) := by
  induction n generalizing v with
  | zero => simp [shiftOut]
  | succ n ih =>
    simp only [shiftOut, ih, BitVec.toNat_ushiftRight, Nat.shiftRight_eq_div_pow]
    rw [Nat.div_div_eq_div_mul, ← Nat.pow_add]
    congr 2
    omega

theorem push_cnt (p : Packer) (x : Push) : (push p x).2.cnt = (p.cnt + x.width) % 8 := rfl

theorem length_push (p : Packer) (x : Push) : (push p x).1.length = (p.cnt + x.width) / 8 := length_shiftOut _ _

theorem totalWidth_append (xs ys : List Push) : totalWidth (xs ++ ys) = totalWidth xs + totalWidth ys := by
  induction xs with
  | nil => simp [totalWidth]
  | cons x xs ih => simp only [List.cons_append, totalWidth, ih]; omega

theorem Packer.fits_iff (p : Packer) : p.fits = true ↔ p.cnt ≤ 7 ∧ p.pend.toNat < 2 ^ p.cnt := by
  simp [Packer.fits]

theorem Push.fits_iff (x : Push) : x.fits = true ↔ x.width ≤ 24 ∧ x.code.toNat < 2 ^ x.width := by
  simp [Push.fits]

/-- The accumulator with the new code above the pending bits: no bit is lost (00_scope R16). -/
theorem accumulated_lt {p : Packer} {x : Push} (hp : p.fits = true) (hx : x.fits = true) :
    (p.pend ||| (x.code <<< p.cnt)).toNat < 2 ^ (p.cnt + x.width) := by
  rw [Packer.fits_iff] at hp
  rw [Push.fits_iff] at hx
  rw [BitVec.toNat_or]
  apply Nat.or_lt_two_pow
  · exact Nat.lt_of_lt_of_le hp.2 (Nat.pow_le_pow_right (by omega) (by omega))
  · rw [BitVec.toNat_shiftLeft, Nat.shiftLeft_eq]
    refine Nat.lt_of_le_of_lt (Nat.mod_le _ _) ?_
    rw [Nat.add_comm, Nat.pow_add]
    exact Nat.mul_lt_mul_of_pos_right hx.2 (Nat.two_pow_pos _)

/-- The exit condition of a push (43_bit_packer R201). -/
theorem push_fits {p : Packer} {x : Push} (hp : p.fits = true) (hx : x.fits = true) : (push p x).2.fits = true := by
  have h := accumulated_lt hp hx
  rw [Packer.fits_iff]
  refine ⟨by rw [push_cnt]; omega, ?_⟩
  have e : (push p x).2.pend.toNat
      = (p.pend ||| (x.code <<< p.cnt)).toNat / 2 ^ (8 * ((p.cnt + x.width) / 8)) := shiftOut_rest _ _
  rw [e, push_cnt, Nat.div_lt_iff_lt_mul (Nat.two_pow_pos _), ← Nat.pow_add]
  have : (p.cnt + x.width) % 8 + 8 * ((p.cnt + x.width) / 8) = p.cnt + x.width := by omega
  rwa [this]

/-- The exit condition of several pushes. -/
theorem pushAll_fits {p : Packer} {xs : List Push} (hp : p.fits = true) (hxs : ∀ x ∈ xs, x.fits = true) :
    (pushAll p xs).2.fits = true := by
  induction xs generalizing p with
  | nil => exact hp
  | cons x xs ih =>
    exact ih (push_fits hp (hxs x (by simp))) (fun y hy => hxs y (by simp [hy]))

/-- What a flush leaves and how much it writes (43_bit_packer R203). -/
theorem length_flushToByte (p : Packer) : (flushToByte p).1.length = if 0 < p.cnt then 1 else 0 := by
  unfold flushToByte
  split <;> simp_all

@[simp] theorem flushToByte_rest (p : Packer) : (flushToByte p).2 = ⟨0#32, 0⟩ := rfl

end Sys2Proof.Machine
end

