-- ==== Sys2Proof/Laws/BlockEncoder.lean ====
section
/-! SUPPORT. The lookups in the code tables and the pushes the emit operations make: every push the block encoder makes
meets the packer's premise (43_bit_packer R201). -/

namespace Sys2Proof.Machine

/-- A reversed code stays within its width (00_scope R15). -/
theorem rev_lt (v : Word) (w : Nat) : (rev v w).toNat < 2 ^ w := by
  induction w generalizing v with
  | zero => simp [rev]
  | succ w ih =>
    rw [rev, BitVec.toNat_or]
    apply Nat.or_lt_two_pow
    · rw [BitVec.toNat_shiftLeft, Nat.shiftLeft_eq]
      refine Nat.lt_of_le_of_lt (Nat.mod_le _ _) ?_
      have h1 : (v &&& 1#32).toNat ≤ 1 := by
        rw [BitVec.toNat_and]
        exact Nat.and_le_right
      calc (v &&& 1#32).toNat * 2 ^ w ≤ 1 * 2 ^ w := Nat.mul_le_mul_right _ h1
        _ < 2 ^ (w + 1) := by rw [Nat.pow_succ]; have := Nat.two_pow_pos w; omega
    · exact Nat.lt_of_lt_of_le (ih _) (Nat.pow_le_pow_right (by omega) (by omega))

/-- A table whose rows leave no gap below `limit`: each row's range reaches the next base, the last one's the limit. -/
def rowsReach (limit : Nat) : List RangeRow → Bool
  | [] => false
  | [row] => decide (limit ≤ row.base + 2 ^ row.extra)
  | row :: next :: rest => decide (next.base ≤ row.base + 2 ^ row.extra) && rowsReach limit (next :: rest)

/-- The row a lookup finds holds the value: base at most it, and the extra bits reach it (30_encoding R107, R109). -/
theorem rowFor_spec {limit v : Nat} (rows : List RangeRow) (h : rowsReach limit rows = true) (hv : v < limit)
    (hfirst : ∀ row ∈ rows.head?, row.base ≤ v) :
    rowFor rows v ∈ rows ∧ (rowFor rows v).base ≤ v ∧ v < (rowFor rows v).base + 2 ^ (rowFor rows v).extra := by
  induction rows with
  | nil => simp [rowsReach] at h
  | cons row rest ih =>
    have hrow : row.base ≤ v := hfirst row (by simp)
    cases rest with
    | nil =>
      have hl : limit ≤ row.base + 2 ^ row.extra := by simpa [rowsReach] using h
      simp only [rowFor, List.mem_singleton, true_and]
      omega
    | cons next more =>
      simp only [rowsReach, Bool.and_eq_true, decide_eq_true_eq] at h
      by_cases hn : next.base ≤ v
      · obtain ⟨h1, h2⟩ := ih h.2 (by intro r hr; simp at hr; subst hr; exact hn)
        have he : rowFor (row :: next :: more) v = rowFor (next :: more) v := by rw [rowFor]; simp [hn]
        rw [he]
        exact ⟨List.mem_cons_of_mem _ h1, h2⟩
      · have he : rowFor (row :: next :: more) v = row := by rw [rowFor]; simp [hn]
        rw [he]
        exact ⟨by simp, hrow, by omega⟩

theorem lengthRows_reach : rowsReach 259 lengthRows = true := by decide

theorem distanceRows_reach : rowsReach 32769 distanceRows = true := by decide

/-- The length row of a length of the format (30_encoding R107). -/
theorem lengthRow_spec {l : Nat} (h3 : 3 ≤ l) (h : l ≤ 258) :
    rowFor lengthRows l ∈ lengthRows ∧ (rowFor lengthRows l).base ≤ l ∧
      l < (rowFor lengthRows l).base + 2 ^ (rowFor lengthRows l).extra :=
  rowFor_spec _ lengthRows_reach (by omega) (by simp [lengthRows]; omega)

/-- The distance row of a distance of the format (30_encoding R109). -/
theorem distanceRow_spec {d : Nat} (h1 : 1 ≤ d) (h : d ≤ 32768) :
    rowFor distanceRows d ∈ distanceRows ∧ (rowFor distanceRows d).base ≤ d ∧
      d < (rowFor distanceRows d).base + 2 ^ (rowFor distanceRows d).extra :=
  rowFor_spec _ distanceRows_reach (by omega) (by simp [distanceRows]; omega)

theorem lengthRows_small : ∀ row ∈ lengthRows, row.extra ≤ 5 ∧ row.sym ≤ 285 ∧ 257 ≤ row.sym := by decide

theorem distanceRows_small : ∀ row ∈ distanceRows, row.extra ≤ 13 ∧ row.sym ≤ 29 := by decide

/-- An entry of the literal/length code (30_encoding R104). -/
theorem litLen_getD {n : Nat} (h : n < 286) : Tables.contents.litLen.getD n ⟨0#32, 0⟩ = fixedCode n := by
  simp [Tables.contents, List.getD, h]

theorem fixedCode_width (n : Nat) : (fixedCode n).width ≤ 9 ∧ 7 ≤ (fixedCode n).width := by
  unfold fixedCode
  split
  · simp
  · split
    · simp
    · split <;> simp

/-- A symbol's push meets the packer's premise. -/
theorem symbolPushes_fit {n : Nat} (h : n < 286) : ∀ x ∈ symbolPushes Tables.contents n, x.fits = true := by
  intro x hx
  have hx : x = ⟨rev (fixedCode n).code (fixedCode n).width, (fixedCode n).width⟩ := by
    simpa only [symbolPushes, litLen_getD h, List.mem_singleton] using hx
  subst hx
  rw [Push.fits_iff]
  exact ⟨Nat.le_trans (fixedCode_width n).1 (by omega), rev_lt _ _⟩

/-- An extra-bits push meets the packer's premise. -/
theorem extraPush_fit {v width : Nat} (hw : width ≤ 24) (hv : v < 2 ^ width) :
    (Push.mk (BitVec.ofNat 32 v) width).fits = true := by
  rw [Push.fits_iff]
  have : (2 : Nat) ^ width ≤ 2 ^ 24 := Nat.pow_le_pow_right (by omega) hw
  refine ⟨hw, ?_⟩
  simp only [BitVec.toNat_ofNat]
  exact Nat.lt_of_le_of_lt (Nat.mod_le _ _) hv

/-- Every push for an event of the finder meets the packer's premise (43_bit_packer R201, 44_block_encoder R213,
R214). -/
theorem eventPushes_fit {e : Event} (he : e.inRange = true) : ∀ x ∈ eventPushes Tables.contents e, x.fits = true := by
  cases e with
  | literal b => exact symbolPushes_fit (by have := b.isLt; omega)
  | copy l d =>
    simp only [Event.inRange, Bool.and_eq_true, decide_eq_true_eq] at he
    obtain ⟨⟨⟨h3, h258⟩, h1⟩, hw⟩ := he
    obtain ⟨lm, lb, le⟩ := lengthRow_spec h3 h258
    obtain ⟨dm, db, de⟩ := distanceRow_spec h1 hw
    have ls := lengthRows_small _ lm
    have ds := distanceRows_small _ dm
    intro x hx
    simp only [eventPushes, matchPushes, List.mem_append, List.mem_cons, List.not_mem_nil, or_false] at hx
    rcases hx with hx | rfl | rfl | rfl
    · exact symbolPushes_fit (by show (rowFor lengthRows l).sym < 286; omega) x hx
    · exact extraPush_fit (by show (rowFor lengthRows l).extra ≤ 24; omega)
        (by show l - (rowFor lengthRows l).base < 2 ^ (rowFor lengthRows l).extra; omega)
    · rw [Push.fits_iff]
      exact ⟨by show 5 ≤ 24; omega, rev_lt _ 5⟩
    · exact extraPush_fit (by show (rowFor distanceRows d).extra ≤ 24; omega)
        (by show d - (rowFor distanceRows d).base < 2 ^ (rowFor distanceRows d).extra; omega)

theorem blockHeader_fit (final : Bool) : ∀ x ∈ blockHeader final, x.fits = true := by
  cases final <;> decide

theorem eobPushes_fit : ∀ x ∈ eobPushes Tables.contents, x.fits = true := symbolPushes_fit (by omega)

end Sys2Proof.Machine
end

