-- ==== Sys2Proof/Laws/State.lean ====
section
/-! SUPPORT. One lemma per field per update, all true by rfl: what each named update of State (and of the command in
progress, Run) does to each field. Later proofs use these instead of unfolding the updates. -/

namespace Sys2Proof.Machine

section
variable (code : Completion) (s : State)

@[simp] theorem raiseViolation_inLen : (raiseViolation code s).inLen = s.inLen := rfl
@[simp] theorem raiseViolation_outCap : (raiseViolation code s).outCap = s.outCap := rfl
@[simp] theorem raiseViolation_seed : (raiseViolation code s).seed = s.seed := rfl
@[simp] theorem raiseViolation_result : (raiseViolation code s).result = 0xFFFFFFFF#32 := rfl
@[simp] theorem raiseViolation_tablesReady : (raiseViolation code s).tablesReady = s.tablesReady := rfl
@[simp] theorem raiseViolation_viol : (raiseViolation code s).viol = true := rfl
@[simp] theorem raiseViolation_cc : (raiseViolation code s).cc = code := rfl
@[simp] theorem raiseViolation_phase : (raiseViolation code s).phase = s.phase := rfl
@[simp] theorem raiseViolation_compEn : (raiseViolation code s).compEn = s.compEn := rfl
@[simp] theorem raiseViolation_format : (raiseViolation code s).format = s.format := rfl
@[simp] theorem raiseViolation_pend : (raiseViolation code s).pend = s.pend := rfl
@[simp] theorem raiseViolation_cnt : (raiseViolation code s).cnt = s.cnt := rfl
@[simp] theorem raiseViolation_checksum : (raiseViolation code s).checksum = s.checksum := rfl
@[simp] theorem raiseViolation_totalIn : (raiseViolation code s).totalIn = s.totalIn := rfl
@[simp] theorem raiseViolation_mtab : (raiseViolation code s).mtab = s.mtab := rfl
@[simp] theorem raiseViolation_tbl : (raiseViolation code s).tbl = s.tbl := rfl
@[simp] theorem raiseViolation_ibuf : (raiseViolation code s).ibuf = s.ibuf := rfl
@[simp] theorem raiseViolation_obuf : (raiseViolation code s).obuf = s.obuf := rfl
@[simp] theorem raiseViolation_hashTable : (raiseViolation code s).hashTable = s.hashTable := rfl
@[simp] theorem raiseViolation_script : (raiseViolation code s).script = s.script := rfl
@[simp] theorem raiseViolation_observed : (raiseViolation code s).observed = s.observed := rfl
@[simp] theorem raiseViolation_cutOffs : (raiseViolation code s).cutOffs = s.cutOffs := rfl

end

section
variable (v : Word) (s : State)

@[simp] theorem complete_inLen : (complete v s).inLen = s.inLen := rfl
@[simp] theorem complete_outCap : (complete v s).outCap = s.outCap := rfl
@[simp] theorem complete_seed : (complete v s).seed = s.seed := rfl
@[simp] theorem complete_result : (complete v s).result = v := rfl
@[simp] theorem complete_tablesReady : (complete v s).tablesReady = s.tablesReady := rfl
@[simp] theorem complete_viol : (complete v s).viol = s.viol := rfl
@[simp] theorem complete_cc : (complete v s).cc = .ok := rfl
@[simp] theorem complete_phase : (complete v s).phase = s.phase := rfl
@[simp] theorem complete_compEn : (complete v s).compEn = s.compEn := rfl
@[simp] theorem complete_format : (complete v s).format = s.format := rfl
@[simp] theorem complete_pend : (complete v s).pend = s.pend := rfl
@[simp] theorem complete_cnt : (complete v s).cnt = s.cnt := rfl
@[simp] theorem complete_checksum : (complete v s).checksum = s.checksum := rfl
@[simp] theorem complete_totalIn : (complete v s).totalIn = s.totalIn := rfl
@[simp] theorem complete_mtab : (complete v s).mtab = s.mtab := rfl
@[simp] theorem complete_tbl : (complete v s).tbl = s.tbl := rfl
@[simp] theorem complete_ibuf : (complete v s).ibuf = s.ibuf := rfl
@[simp] theorem complete_obuf : (complete v s).obuf = s.obuf := rfl
@[simp] theorem complete_hashTable : (complete v s).hashTable = s.hashTable := rfl
@[simp] theorem complete_script : (complete v s).script = s.script := rfl
@[simp] theorem complete_observed : (complete v s).observed = s.observed := rfl
@[simp] theorem complete_cutOffs : (complete v s).cutOffs = s.cutOffs := rfl

end

section
variable (f : Format) (c : Bool) (s : State)

@[simp] theorem startSession_inLen : (startSession f c s).inLen = s.inLen := rfl
@[simp] theorem startSession_outCap : (startSession f c s).outCap = s.outCap := rfl
@[simp] theorem startSession_seed : (startSession f c s).seed = s.seed := rfl
@[simp] theorem startSession_result : (startSession f c s).result = s.result := rfl
@[simp] theorem startSession_tablesReady : (startSession f c s).tablesReady = s.tablesReady := rfl
@[simp] theorem startSession_viol : (startSession f c s).viol = s.viol := rfl
@[simp] theorem startSession_cc : (startSession f c s).cc = s.cc := rfl
@[simp] theorem startSession_phase : (startSession f c s).phase = .init := rfl
@[simp] theorem startSession_compEn : (startSession f c s).compEn = c := rfl
@[simp] theorem startSession_format : (startSession f c s).format = f := rfl
@[simp] theorem startSession_pend : (startSession f c s).pend = 0#32 := rfl
@[simp] theorem startSession_cnt : (startSession f c s).cnt = 0#3 := rfl
@[simp] theorem startSession_checksum : (startSession f c s).checksum = emptyChecksum f := rfl
@[simp] theorem startSession_totalIn : (startSession f c s).totalIn = 0#32 := rfl
@[simp] theorem startSession_mtab : (startSession f c s).mtab = Mtab.cleared := rfl
@[simp] theorem startSession_tbl : (startSession f c s).tbl = s.tbl := rfl
@[simp] theorem startSession_ibuf : (startSession f c s).ibuf = s.ibuf := rfl
@[simp] theorem startSession_obuf : (startSession f c s).obuf = s.obuf := rfl
@[simp] theorem startSession_hashTable : (startSession f c s).hashTable = s.hashTable := rfl
@[simp] theorem startSession_script : (startSession f c s).script = s.script := rfl
@[simp] theorem startSession_observed : (startSession f c s).observed = s.observed := rfl
@[simp] theorem startSession_cutOffs : (startSession f c s).cutOffs = s.cutOffs := rfl

end

section
variable (o : Observation) (s : State)

@[simp] theorem observe_inLen : (observe o s).inLen = s.inLen := rfl
@[simp] theorem observe_outCap : (observe o s).outCap = s.outCap := rfl
@[simp] theorem observe_seed : (observe o s).seed = s.seed := rfl
@[simp] theorem observe_result : (observe o s).result = s.result := rfl
@[simp] theorem observe_tablesReady : (observe o s).tablesReady = s.tablesReady := rfl
@[simp] theorem observe_viol : (observe o s).viol = s.viol := rfl
@[simp] theorem observe_cc : (observe o s).cc = s.cc := rfl
@[simp] theorem observe_phase : (observe o s).phase = s.phase := rfl
@[simp] theorem observe_compEn : (observe o s).compEn = s.compEn := rfl
@[simp] theorem observe_format : (observe o s).format = s.format := rfl
@[simp] theorem observe_pend : (observe o s).pend = s.pend := rfl
@[simp] theorem observe_cnt : (observe o s).cnt = s.cnt := rfl
@[simp] theorem observe_checksum : (observe o s).checksum = s.checksum := rfl
@[simp] theorem observe_totalIn : (observe o s).totalIn = s.totalIn := rfl
@[simp] theorem observe_mtab : (observe o s).mtab = s.mtab := rfl
@[simp] theorem observe_tbl : (observe o s).tbl = s.tbl := rfl
@[simp] theorem observe_ibuf : (observe o s).ibuf = s.ibuf := rfl
@[simp] theorem observe_obuf : (observe o s).obuf = s.obuf := rfl
@[simp] theorem observe_hashTable : (observe o s).hashTable = s.hashTable := rfl
@[simp] theorem observe_script : (observe o s).script = s.script := rfl
@[simp] theorem observe_observed : (observe o s).observed = s.observed ++ [o] := rfl
@[simp] theorem observe_cutOffs : (observe o s).cutOffs = s.cutOffs := rfl

end

section
variable (s : State)

@[simp] theorem hardwareReset_inLen : (hardwareReset s).inLen = State.reset.inLen := rfl
@[simp] theorem hardwareReset_outCap : (hardwareReset s).outCap = State.reset.outCap := rfl
@[simp] theorem hardwareReset_seed : (hardwareReset s).seed = State.reset.seed := rfl
@[simp] theorem hardwareReset_result : (hardwareReset s).result = State.reset.result := rfl
@[simp] theorem hardwareReset_tablesReady : (hardwareReset s).tablesReady = State.reset.tablesReady := rfl
@[simp] theorem hardwareReset_viol : (hardwareReset s).viol = State.reset.viol := rfl
@[simp] theorem hardwareReset_cc : (hardwareReset s).cc = State.reset.cc := rfl
@[simp] theorem hardwareReset_phase : (hardwareReset s).phase = State.reset.phase := rfl
@[simp] theorem hardwareReset_compEn : (hardwareReset s).compEn = State.reset.compEn := rfl
@[simp] theorem hardwareReset_format : (hardwareReset s).format = State.reset.format := rfl
@[simp] theorem hardwareReset_pend : (hardwareReset s).pend = State.reset.pend := rfl
@[simp] theorem hardwareReset_cnt : (hardwareReset s).cnt = State.reset.cnt := rfl
@[simp] theorem hardwareReset_checksum : (hardwareReset s).checksum = State.reset.checksum := rfl
@[simp] theorem hardwareReset_totalIn : (hardwareReset s).totalIn = State.reset.totalIn := rfl
@[simp] theorem hardwareReset_mtab : (hardwareReset s).mtab = State.reset.mtab := rfl
@[simp] theorem hardwareReset_tbl : (hardwareReset s).tbl = State.reset.tbl := rfl
@[simp] theorem hardwareReset_ibuf : (hardwareReset s).ibuf = s.ibuf := rfl
@[simp] theorem hardwareReset_obuf : (hardwareReset s).obuf = s.obuf := rfl
@[simp] theorem hardwareReset_hashTable : (hardwareReset s).hashTable = s.hashTable := rfl
@[simp] theorem hardwareReset_script : (hardwareReset s).script = s.script := rfl
@[simp] theorem hardwareReset_observed : (hardwareReset s).observed = s.observed := rfl
@[simp] theorem hardwareReset_cutOffs : (hardwareReset s).cutOffs = s.cutOffs := rfl

end

section
variable (s : State) (w : Word)

@[simp] theorem queueCommand_inLen : (queueCommand s w).inLen = s.inLen := rfl
@[simp] theorem queueCommand_outCap : (queueCommand s w).outCap = s.outCap := rfl
@[simp] theorem queueCommand_seed : (queueCommand s w).seed = s.seed := rfl
@[simp] theorem queueCommand_result : (queueCommand s w).result = s.result := rfl
@[simp] theorem queueCommand_tablesReady : (queueCommand s w).tablesReady = s.tablesReady := rfl
@[simp] theorem queueCommand_viol : (queueCommand s w).viol = s.viol := rfl
@[simp] theorem queueCommand_cc : (queueCommand s w).cc = s.cc := rfl
@[simp] theorem queueCommand_phase : (queueCommand s w).phase = s.phase := rfl
@[simp] theorem queueCommand_compEn : (queueCommand s w).compEn = s.compEn := rfl
@[simp] theorem queueCommand_format : (queueCommand s w).format = s.format := rfl
@[simp] theorem queueCommand_pend : (queueCommand s w).pend = s.pend := rfl
@[simp] theorem queueCommand_cnt : (queueCommand s w).cnt = s.cnt := rfl
@[simp] theorem queueCommand_checksum : (queueCommand s w).checksum = s.checksum := rfl
@[simp] theorem queueCommand_totalIn : (queueCommand s w).totalIn = s.totalIn := rfl
@[simp] theorem queueCommand_mtab : (queueCommand s w).mtab = s.mtab := rfl
@[simp] theorem queueCommand_tbl : (queueCommand s w).tbl = s.tbl := rfl
@[simp] theorem queueCommand_ibuf : (queueCommand s w).ibuf = s.ibuf := rfl
@[simp] theorem queueCommand_obuf : (queueCommand s w).obuf = s.obuf := rfl
@[simp] theorem queueCommand_hashTable : (queueCommand s w).hashTable = s.hashTable := rfl
@[simp] theorem queueCommand_script : (queueCommand s w).script = .write 0x00#8 w :: s.script := rfl
@[simp] theorem queueCommand_observed : (queueCommand s w).observed = s.observed := rfl
@[simp] theorem queueCommand_cutOffs : (queueCommand s w).cutOffs = s.cutOffs := rfl

end

section
variable (s : State) (nbits w : Nat)

@[simp] theorem withFetchWord_inLen : (s.withFetchWord nbits w).inLen = s.inLen := rfl
@[simp] theorem withFetchWord_outCap : (s.withFetchWord nbits w).outCap = s.outCap := rfl
@[simp] theorem withFetchWord_seed : (s.withFetchWord nbits w).seed = s.seed := rfl
@[simp] theorem withFetchWord_result : (s.withFetchWord nbits w).result = s.result := rfl
@[simp] theorem withFetchWord_tablesReady : (s.withFetchWord nbits w).tablesReady = s.tablesReady := rfl
@[simp] theorem withFetchWord_viol : (s.withFetchWord nbits w).viol = s.viol := rfl
@[simp] theorem withFetchWord_cc : (s.withFetchWord nbits w).cc = s.cc := rfl
@[simp] theorem withFetchWord_phase : (s.withFetchWord nbits w).phase = s.phase := rfl
@[simp] theorem withFetchWord_compEn : (s.withFetchWord nbits w).compEn = s.compEn := rfl
@[simp] theorem withFetchWord_format : (s.withFetchWord nbits w).format = s.format := rfl
@[simp] theorem withFetchWord_pend : (s.withFetchWord nbits w).pend = s.pend := rfl
@[simp] theorem withFetchWord_cnt : (s.withFetchWord nbits w).cnt = s.cnt := rfl
@[simp] theorem withFetchWord_checksum : (s.withFetchWord nbits w).checksum = s.checksum := rfl
@[simp] theorem withFetchWord_totalIn : (s.withFetchWord nbits w).totalIn = s.totalIn := rfl
@[simp] theorem withFetchWord_mtab : (s.withFetchWord nbits w).mtab = s.mtab := rfl
@[simp] theorem withFetchWord_tbl : (s.withFetchWord nbits w).tbl = s.tbl := rfl
@[simp] theorem withFetchWord_ibuf : (s.withFetchWord nbits w).ibuf = s.ibuf := rfl
@[simp] theorem withFetchWord_obuf : (s.withFetchWord nbits w).obuf = s.obuf := rfl
@[simp] theorem withFetchWord_hashTable : (s.withFetchWord nbits w).hashTable = s.hashTable := rfl
@[simp] theorem withFetchWord_script : (s.withFetchWord nbits w).script = .write 0x00#8 (BitVec.ofNat 32 (w % 2 ^ nbits)) :: s.script := rfl
@[simp] theorem withFetchWord_observed : (s.withFetchWord nbits w).observed = s.observed := rfl
@[simp] theorem withFetchWord_cutOffs : (s.withFetchWord nbits w).cutOffs = s.cutOffs := rfl

end

@[simp] theorem Run.start_st (s : State) : (Run.start s).st = s := rfl
@[simp] theorem Run.start_out (s : State) : (Run.start s).out = [] := rfl

section
variable (r : Run) (bytes : List Byte)

@[simp] theorem Run.outBytes_inLen : (r.outBytes bytes).st.inLen = r.st.inLen := rfl
@[simp] theorem Run.outBytes_outCap : (r.outBytes bytes).st.outCap = r.st.outCap := rfl
@[simp] theorem Run.outBytes_seed : (r.outBytes bytes).st.seed = r.st.seed := rfl
@[simp] theorem Run.outBytes_result : (r.outBytes bytes).st.result = r.st.result := rfl
@[simp] theorem Run.outBytes_tablesReady : (r.outBytes bytes).st.tablesReady = r.st.tablesReady := rfl
@[simp] theorem Run.outBytes_viol : (r.outBytes bytes).st.viol = r.st.viol := rfl
@[simp] theorem Run.outBytes_cc : (r.outBytes bytes).st.cc = r.st.cc := rfl
@[simp] theorem Run.outBytes_phase : (r.outBytes bytes).st.phase = r.st.phase := rfl
@[simp] theorem Run.outBytes_compEn : (r.outBytes bytes).st.compEn = r.st.compEn := rfl
@[simp] theorem Run.outBytes_format : (r.outBytes bytes).st.format = r.st.format := rfl
@[simp] theorem Run.outBytes_pend : (r.outBytes bytes).st.pend = r.st.pend := rfl
@[simp] theorem Run.outBytes_cnt : (r.outBytes bytes).st.cnt = r.st.cnt := rfl
@[simp] theorem Run.outBytes_checksum : (r.outBytes bytes).st.checksum = r.st.checksum := rfl
@[simp] theorem Run.outBytes_totalIn : (r.outBytes bytes).st.totalIn = r.st.totalIn := rfl
@[simp] theorem Run.outBytes_mtab : (r.outBytes bytes).st.mtab = r.st.mtab := rfl
@[simp] theorem Run.outBytes_tbl : (r.outBytes bytes).st.tbl = r.st.tbl := rfl
@[simp] theorem Run.outBytes_ibuf : (r.outBytes bytes).st.ibuf = r.st.ibuf := rfl
@[simp] theorem Run.outBytes_obuf : (r.outBytes bytes).st.obuf = r.st.obuf := rfl
@[simp] theorem Run.outBytes_hashTable : (r.outBytes bytes).st.hashTable = r.st.hashTable := rfl
@[simp] theorem Run.outBytes_script : (r.outBytes bytes).st.script = r.st.script := rfl
@[simp] theorem Run.outBytes_observed : (r.outBytes bytes).st.observed = r.st.observed := rfl
@[simp] theorem Run.outBytes_cutOffs : (r.outBytes bytes).st.cutOffs = r.st.cutOffs := rfl
@[simp] theorem Run.outBytes_out : (r.outBytes bytes).out = r.out ++ bytes := rfl

end

section
variable (r : Run) (p : Phase)

@[simp] theorem Run.setPhase_inLen : (r.setPhase p).st.inLen = r.st.inLen := rfl
@[simp] theorem Run.setPhase_outCap : (r.setPhase p).st.outCap = r.st.outCap := rfl
@[simp] theorem Run.setPhase_seed : (r.setPhase p).st.seed = r.st.seed := rfl
@[simp] theorem Run.setPhase_result : (r.setPhase p).st.result = r.st.result := rfl
@[simp] theorem Run.setPhase_tablesReady : (r.setPhase p).st.tablesReady = r.st.tablesReady := rfl
@[simp] theorem Run.setPhase_viol : (r.setPhase p).st.viol = r.st.viol := rfl
@[simp] theorem Run.setPhase_cc : (r.setPhase p).st.cc = r.st.cc := rfl
@[simp] theorem Run.setPhase_phase : (r.setPhase p).st.phase = p := rfl
@[simp] theorem Run.setPhase_compEn : (r.setPhase p).st.compEn = r.st.compEn := rfl
@[simp] theorem Run.setPhase_format : (r.setPhase p).st.format = r.st.format := rfl
@[simp] theorem Run.setPhase_pend : (r.setPhase p).st.pend = r.st.pend := rfl
@[simp] theorem Run.setPhase_cnt : (r.setPhase p).st.cnt = r.st.cnt := rfl
@[simp] theorem Run.setPhase_checksum : (r.setPhase p).st.checksum = r.st.checksum := rfl
@[simp] theorem Run.setPhase_totalIn : (r.setPhase p).st.totalIn = r.st.totalIn := rfl
@[simp] theorem Run.setPhase_mtab : (r.setPhase p).st.mtab = r.st.mtab := rfl
@[simp] theorem Run.setPhase_tbl : (r.setPhase p).st.tbl = r.st.tbl := rfl
@[simp] theorem Run.setPhase_ibuf : (r.setPhase p).st.ibuf = r.st.ibuf := rfl
@[simp] theorem Run.setPhase_obuf : (r.setPhase p).st.obuf = r.st.obuf := rfl
@[simp] theorem Run.setPhase_hashTable : (r.setPhase p).st.hashTable = r.st.hashTable := rfl
@[simp] theorem Run.setPhase_script : (r.setPhase p).st.script = r.st.script := rfl
@[simp] theorem Run.setPhase_observed : (r.setPhase p).st.observed = r.st.observed := rfl
@[simp] theorem Run.setPhase_cutOffs : (r.setPhase p).st.cutOffs = r.st.cutOffs := rfl
@[simp] theorem Run.setPhase_out : (r.setPhase p).out = r.out := rfl

end

section
variable (r : Run) (res : List Byte × Packer)

@[simp] theorem Run.takePacked_inLen : (r.takePacked res).st.inLen = r.st.inLen := rfl
@[simp] theorem Run.takePacked_outCap : (r.takePacked res).st.outCap = r.st.outCap := rfl
@[simp] theorem Run.takePacked_seed : (r.takePacked res).st.seed = r.st.seed := rfl
@[simp] theorem Run.takePacked_result : (r.takePacked res).st.result = r.st.result := rfl
@[simp] theorem Run.takePacked_tablesReady : (r.takePacked res).st.tablesReady = r.st.tablesReady := rfl
@[simp] theorem Run.takePacked_viol : (r.takePacked res).st.viol = r.st.viol := rfl
@[simp] theorem Run.takePacked_cc : (r.takePacked res).st.cc = r.st.cc := rfl
@[simp] theorem Run.takePacked_phase : (r.takePacked res).st.phase = r.st.phase := rfl
@[simp] theorem Run.takePacked_compEn : (r.takePacked res).st.compEn = r.st.compEn := rfl
@[simp] theorem Run.takePacked_format : (r.takePacked res).st.format = r.st.format := rfl
@[simp] theorem Run.takePacked_pend : (r.takePacked res).st.pend = res.2.pend := rfl
@[simp] theorem Run.takePacked_cnt : (r.takePacked res).st.cnt = BitVec.ofNat 3 res.2.cnt := rfl
@[simp] theorem Run.takePacked_checksum : (r.takePacked res).st.checksum = r.st.checksum := rfl
@[simp] theorem Run.takePacked_totalIn : (r.takePacked res).st.totalIn = r.st.totalIn := rfl
@[simp] theorem Run.takePacked_mtab : (r.takePacked res).st.mtab = r.st.mtab := rfl
@[simp] theorem Run.takePacked_tbl : (r.takePacked res).st.tbl = r.st.tbl := rfl
@[simp] theorem Run.takePacked_ibuf : (r.takePacked res).st.ibuf = r.st.ibuf := rfl
@[simp] theorem Run.takePacked_obuf : (r.takePacked res).st.obuf = r.st.obuf := rfl
@[simp] theorem Run.takePacked_hashTable : (r.takePacked res).st.hashTable = r.st.hashTable := rfl
@[simp] theorem Run.takePacked_script : (r.takePacked res).st.script = r.st.script := rfl
@[simp] theorem Run.takePacked_observed : (r.takePacked res).st.observed = r.st.observed := rfl
@[simp] theorem Run.takePacked_cutOffs : (r.takePacked res).st.cutOffs = r.st.cutOffs := rfl
@[simp] theorem Run.takePacked_out : (r.takePacked res).out = r.out ++ res.1 := rfl

end

section
variable (r : Run) (ps : List Push)

@[simp] theorem Run.emit_inLen : (r.emit ps).st.inLen = r.st.inLen := rfl
@[simp] theorem Run.emit_outCap : (r.emit ps).st.outCap = r.st.outCap := rfl
@[simp] theorem Run.emit_seed : (r.emit ps).st.seed = r.st.seed := rfl
@[simp] theorem Run.emit_result : (r.emit ps).st.result = r.st.result := rfl
@[simp] theorem Run.emit_tablesReady : (r.emit ps).st.tablesReady = r.st.tablesReady := rfl
@[simp] theorem Run.emit_viol : (r.emit ps).st.viol = r.st.viol := rfl
@[simp] theorem Run.emit_cc : (r.emit ps).st.cc = r.st.cc := rfl
@[simp] theorem Run.emit_phase : (r.emit ps).st.phase = r.st.phase := rfl
@[simp] theorem Run.emit_compEn : (r.emit ps).st.compEn = r.st.compEn := rfl
@[simp] theorem Run.emit_format : (r.emit ps).st.format = r.st.format := rfl
@[simp] theorem Run.emit_pend : (r.emit ps).st.pend = (pushAll r.packer ps).2.pend := rfl
@[simp] theorem Run.emit_cnt : (r.emit ps).st.cnt = BitVec.ofNat 3 (pushAll r.packer ps).2.cnt := rfl
@[simp] theorem Run.emit_checksum : (r.emit ps).st.checksum = r.st.checksum := rfl
@[simp] theorem Run.emit_totalIn : (r.emit ps).st.totalIn = r.st.totalIn := rfl
@[simp] theorem Run.emit_mtab : (r.emit ps).st.mtab = r.st.mtab := rfl
@[simp] theorem Run.emit_tbl : (r.emit ps).st.tbl = r.st.tbl := rfl
@[simp] theorem Run.emit_ibuf : (r.emit ps).st.ibuf = r.st.ibuf := rfl
@[simp] theorem Run.emit_obuf : (r.emit ps).st.obuf = r.st.obuf := rfl
@[simp] theorem Run.emit_hashTable : (r.emit ps).st.hashTable = r.st.hashTable := rfl
@[simp] theorem Run.emit_script : (r.emit ps).st.script = r.st.script := rfl
@[simp] theorem Run.emit_observed : (r.emit ps).st.observed = r.st.observed := rfl
@[simp] theorem Run.emit_cutOffs : (r.emit ps).st.cutOffs = r.st.cutOffs := rfl
@[simp] theorem Run.emit_out : (r.emit ps).out = r.out ++ (pushAll r.packer ps).1 := rfl

end

section
variable (r : Run)

@[simp] theorem Run.flush_inLen : (r.flush).st.inLen = r.st.inLen := rfl
@[simp] theorem Run.flush_outCap : (r.flush).st.outCap = r.st.outCap := rfl
@[simp] theorem Run.flush_seed : (r.flush).st.seed = r.st.seed := rfl
@[simp] theorem Run.flush_result : (r.flush).st.result = r.st.result := rfl
@[simp] theorem Run.flush_tablesReady : (r.flush).st.tablesReady = r.st.tablesReady := rfl
@[simp] theorem Run.flush_viol : (r.flush).st.viol = r.st.viol := rfl
@[simp] theorem Run.flush_cc : (r.flush).st.cc = r.st.cc := rfl
@[simp] theorem Run.flush_phase : (r.flush).st.phase = r.st.phase := rfl
@[simp] theorem Run.flush_compEn : (r.flush).st.compEn = r.st.compEn := rfl
@[simp] theorem Run.flush_format : (r.flush).st.format = r.st.format := rfl
@[simp] theorem Run.flush_pend : (r.flush).st.pend = 0#32 := rfl
@[simp] theorem Run.flush_cnt : (r.flush).st.cnt = 0#3 := rfl
@[simp] theorem Run.flush_checksum : (r.flush).st.checksum = r.st.checksum := rfl
@[simp] theorem Run.flush_totalIn : (r.flush).st.totalIn = r.st.totalIn := rfl
@[simp] theorem Run.flush_mtab : (r.flush).st.mtab = r.st.mtab := rfl
@[simp] theorem Run.flush_tbl : (r.flush).st.tbl = r.st.tbl := rfl
@[simp] theorem Run.flush_ibuf : (r.flush).st.ibuf = r.st.ibuf := rfl
@[simp] theorem Run.flush_obuf : (r.flush).st.obuf = r.st.obuf := rfl
@[simp] theorem Run.flush_hashTable : (r.flush).st.hashTable = r.st.hashTable := rfl
@[simp] theorem Run.flush_script : (r.flush).st.script = r.st.script := rfl
@[simp] theorem Run.flush_observed : (r.flush).st.observed = r.st.observed := rfl
@[simp] theorem Run.flush_cutOffs : (r.flush).st.cutOffs = r.st.cutOffs := rfl
@[simp] theorem Run.flush_out : (r.flush).out = r.out ++ (flushToByte r.packer).1 := rfl

end

section
variable (r : Run)

@[simp] theorem encodeData_inLen : (encodeData r).st.inLen = r.st.inLen := rfl
@[simp] theorem encodeData_outCap : (encodeData r).st.outCap = r.st.outCap := rfl
@[simp] theorem encodeData_seed : (encodeData r).st.seed = r.st.seed := rfl
@[simp] theorem encodeData_result : (encodeData r).st.result = r.st.result := rfl
@[simp] theorem encodeData_tablesReady : (encodeData r).st.tablesReady = r.st.tablesReady := rfl
@[simp] theorem encodeData_viol : (encodeData r).st.viol = r.st.viol := rfl
@[simp] theorem encodeData_cc : (encodeData r).st.cc = r.st.cc := rfl
@[simp] theorem encodeData_phase : (encodeData r).st.phase = r.st.phase := rfl
@[simp] theorem encodeData_compEn : (encodeData r).st.compEn = r.st.compEn := rfl
@[simp] theorem encodeData_format : (encodeData r).st.format = r.st.format := rfl
@[simp] theorem encodeData_pend : (encodeData r).st.pend = (pushAll r.packer (dataPushes r.st)).2.pend := rfl
@[simp] theorem encodeData_cnt : (encodeData r).st.cnt = BitVec.ofNat 3 (pushAll r.packer (dataPushes r.st)).2.cnt := rfl
@[simp] theorem encodeData_checksum : (encodeData r).st.checksum = sessionChecksum r.st.format r.st.tbl.crc r.st.checksum (inputBytes r.st) := rfl
@[simp] theorem encodeData_totalIn : (encodeData r).st.totalIn = r.st.totalIn + r.st.inLen := rfl
@[simp] theorem encodeData_mtab : (encodeData r).st.mtab = (sessionEvents r.st).2 := rfl
@[simp] theorem encodeData_tbl : (encodeData r).st.tbl = r.st.tbl := rfl
@[simp] theorem encodeData_ibuf : (encodeData r).st.ibuf = r.st.ibuf := rfl
@[simp] theorem encodeData_obuf : (encodeData r).st.obuf = r.st.obuf := rfl
@[simp] theorem encodeData_hashTable : (encodeData r).st.hashTable = r.st.hashTable := rfl
@[simp] theorem encodeData_script : (encodeData r).st.script = r.st.script := rfl
@[simp] theorem encodeData_observed : (encodeData r).st.observed = r.st.observed := rfl
@[simp] theorem encodeData_cutOffs : (encodeData r).st.cutOffs = r.st.cutOffs := rfl
@[simp] theorem encodeData_out : (encodeData r).out = r.out ++ (pushAll r.packer (dataPushes r.st)).1 := rfl

end

section
variable (s : State) (v : Word)

@[simp] theorem writeReg_inLen : writeReg s .inLen v = { s with inLen := v } := rfl
@[simp] theorem writeReg_outCap : writeReg s .outCap v = { s with outCap := v } := rfl
@[simp] theorem writeReg_seed : writeReg s .seed v = { s with seed := v } := rfl
@[simp] theorem writeReg_cmd : writeReg s .cmd v = s := rfl
@[simp] theorem writeReg_result : writeReg s .result v = s := rfl
@[simp] theorem writeReg_status : writeReg s .status v = s := rfl
@[simp] theorem writeReg_checksum : writeReg s .checksum v = s := rfl
@[simp] theorem writeReg_totalIn : writeReg s .totalIn v = s := rfl
@[simp] theorem writeReg_pend : writeReg s .pend v = s := rfl
@[simp] theorem writeReg_reserved : writeReg s .reserved v = s := rfl

end

/-- TBLINIT's effect on TBL and the flag, in the two cases of 40_tables_init R141. -/
theorem fillTables_ready {s : State} (h : s.tablesReady = true) : fillTables s = s := by simp [fillTables, h]

theorem fillTables_fresh {s : State} (h : s.tablesReady = false) :
    fillTables s = { s with tbl := Tables.contents, tablesReady := true } := by simp [fillTables, h]

end Sys2Proof.Machine
end

