-- ==== Sys2Proof/Laws/Ops.lean ====
section
/-! SUPPORT. What the shared operations of Machine/Ops.lean can answer: the end of a stream command, said once in both
directions, and how emissions one after the other combine. -/

namespace Sys2Proof.Machine

/-- The state a stream command ends in when its output fits (20_memory R63, R64). -/
def Run.finished (r : Run) : State :=
  complete (BitVec.ofNat 32 r.out.length) { r.st with obuf := r.st.obuf.storeFrom 0 r.out }

theorem Run.finish_fits {r : Run} (h : r.out.length ≤ r.st.outCap.toNat) : r.finish = .next r.finished := by
  simp [Run.finish, h, Run.finished]

theorem Run.finish_overflow {r : Run} (h : r.st.outCap.toNat < r.out.length) : r.finish = .fault .obufOverflow := by
  simp [Run.finish, Nat.not_le.2 h]

/-- If a stream command answers a next state, its output fitted and the state is the finished one. -/
theorem Run.finish_next {r : Run} {t : State} (h : r.finish = .next t) :
    r.out.length ≤ r.st.outCap.toNat ∧ t = r.finished := by
  by_cases hf : r.out.length ≤ r.st.outCap.toNat
  · rw [Run.finish_fits hf] at h
    exact ⟨hf, by injection h with h; exact h.symm⟩
  · rw [Run.finish_overflow (by omega)] at h
    cases h

theorem Run.finish_fault {r : Run} {f : Fault} (h : r.finish = .fault f) : f = .obufOverflow := by
  unfold Run.finish at h
  split at h
  · cases h
  · injection h with h; exact h.symm

theorem Run.finish_not_refused (r : Run) (x : Refusal) : r.finish ≠ .refused x := by
  unfold Run.finish
  split <;> simp

/-- RESULT counts the bytes written exactly: the capacity is a 32-bit number, so the count does not wrap. -/
theorem Run.finished_result {r : Run} (h : r.out.length ≤ r.st.outCap.toNat) :
    r.finished.result.toNat = r.out.length := by
  simp only [Run.finished, complete_result, BitVec.toNat_ofNat]
  exact Nat.mod_eq_of_lt (Nat.lt_of_le_of_lt h r.st.outCap.isLt)

/-- A session's pending count is a packer count: below 8. -/
theorem Run.packer_cnt_le (r : Run) : r.packer.cnt ≤ 7 := by
  have := r.st.cnt.isLt
  simp only [Run.packer]
  omega

/-- The packer after an emission is the one the pushes leave, for pushes that leave fewer than 8 pending bits. -/
theorem Run.packer_emit (r : Run) (ps : List Push) (h : (pushAll r.packer ps).2.cnt ≤ 7) :
    (r.emit ps).packer = (pushAll r.packer ps).2 := by
  have h8 : (pushAll r.packer ps).2.cnt % 2 ^ 3 = (pushAll r.packer ps).2.cnt := Nat.mod_eq_of_lt (by omega)
  simp only [Run.packer, Run.emit_pend, Run.emit_cnt, BitVec.toNat_ofNat]
  exact congrArg (Packer.mk _) h8

/-- Pushes leave fewer than 8 pending bits. -/
theorem pushAll_cnt_le {p : Packer} (h : p.cnt ≤ 7) (ps : List Push) : (pushAll p ps).2.cnt ≤ 7 := by
  induction ps generalizing p with
  | nil => exact h
  | cons x xs ih => exact ih (by rw [push_cnt]; omega)

/-- Two emissions one after the other are one emission of both. -/
theorem Run.emit_emit (r : Run) (ps qs : List Push) : (r.emit ps).emit qs = r.emit (ps ++ qs) := by
  have h := Run.packer_emit r ps (pushAll_cnt_le r.packer_cnt_le ps)
  simp only [Run.emit, Run.takePacked] at h ⊢
  rw [h, pushAll_append]
  simp only [List.append_assoc]

/-- Emitting nothing changes nothing. -/
theorem Run.emit_nil (r : Run) : r.emit [] = r := by
  simp [Run.emit, Run.takePacked, Run.packer]

end Sys2Proof.Machine
end

