-- ==== Sys2Proof/Laws/Exec.lean ====
section
/-! SUPPORT. Everything one command and one step can do, said once: a claim about every next state follows from
`exec_cases` without unfolding a meaning, and a claim about every step from `step_cases`. -/

namespace Sys2Proof.Machine

/-- The command in progress that a legal SEND_HEADER ends with (45_stream_commands R238). -/
def headerRun (s : State) : Run := ((Run.start s).outBytes (envelopeHeader s.format)).setPhase .eob

/-- The command in progress that a legal FINISH ends with (45_stream_commands R240). -/
def finishRun (s : State) : Run :=
  ((Run.start s).flush.outBytes (envelopeTrailer s.format s.checksum s.totalIn)).setPhase .done

/-- The command in progress that a legal ENCODE ends with (45_stream_commands R239). -/
def encodeRun (more : Bool) (s : State) : Run := closeBlocks more (sendData (openBlock more (Run.start s)))

/-- ENCODE never writes OUT_CAP (10_state R23). -/
theorem encodeRun_outCap (more : Bool) (s : State) : (encodeRun more s).st.outCap = s.outCap := by
  have h1 : ∀ r : Run, (openBlock more r).st.outCap = r.st.outCap := by
    intro r
    unfold openBlock
    repeat' split
    all_goals simp
  have h2 : ∀ r : Run, (sendData r).st.outCap = r.st.outCap := by
    intro r
    unfold sendData
    split <;> simp
  have h3 : ∀ r : Run, (closeBlocks more r).st.outCap = r.st.outCap := by
    intro r
    unfold closeBlocks reopenFinal
    repeat' split
    all_goals simp
  rw [encodeRun, h3, h2, h1, Run.start_st]

/-- Which stream command, legal in which state, ends with the command in progress `r`. -/
inductive StreamRun (s : State) : Instr → Run → Prop where
  | header (hp : s.phase = .init) : StreamRun s .sendHeader (headerRun s)
  | finish (hp : s.phase = .trailerPending) : StreamRun s .finish (finishRun s)
  | encode (more : BitVec 1) (ht : s.tablesReady = true) (hp : s.phase.allowsEncode = true) :
    StreamRun s (.encode more) (encodeRun (moreFollows more) s)

/-- What a next state of a command is. -/
inductive ExecNext (s : State) : Instr → State → Prop where
  | violation (i : Instr) (code : Completion) (hc : code ≠ .ok) : ExecNext s i (raiseViolation code s)
  | tblinit : ExecNext s .tblinit (complete 0#32 (fillTables s))
  | init (level : BitVec 1) (fmt : BitVec 2) (f : Format) (hf : formatOf fmt = some f) :
    ExecNext s (.init level fmt) (complete 0#32 (startSession f (levelEnables level) s))
  | crc32Byte (b : Byte) (ht : s.tablesReady = true) :
    ExecNext s (.crc32Byte b) (complete (crc32Update s.tbl.crc s.seed [b]) s)
  | crc32Block (ht : s.tablesReady = true) :
    ExecNext s .crc32Block (complete (crc32Update s.tbl.crc s.seed (inputBytes s)) s)
  | adler32Byte (b : Byte) (ht : s.tablesReady = true) :
    ExecNext s (.adler32Byte b) (complete (adler32Update s.seed [b]) s)
  | adler32Block (ht : s.tablesReady = true) :
    ExecNext s .adler32Block (complete (adler32Update s.seed (inputBytes s)) s)
  | stream (i : Instr) (r : Run) (hr : StreamRun s i r) (hfit : r.out.length ≤ r.st.outCap.toNat) :
    ExecNext s i r.finished

theorem checksumCommand_next {i : Instr} {s t : State} {v : Word}
    (hok : s.tablesReady = true → ExecNext s i (complete v s))
    (h : (.next (checksumCommand v s) : Host.Outcome State Fault Refusal) = .next t) : ExecNext s i t := by
  injection h with h
  unfold checksumCommand at h
  split at h
  · exact h ▸ hok ‹_›
  · exact h ▸ .violation i _ (by decide)

/-- Everything a command that answers a next state can have done. -/
theorem exec_cases {i : Instr} {s t : State} (h : exec i s = .next t) : ExecNext s i t := by
  cases i with
  | tblinit => injection h with h; exact h ▸ .tblinit
  | init level fmt =>
    simp only [exec, execInit] at h
    split at h <;> injection h with h <;> subst h
    · exact .init level fmt _ ‹_›
    · exact .violation _ _ (by decide)
  | sendHeader =>
    simp only [exec, execSendHeader] at h
    split at h
    · obtain ⟨hfit, rfl⟩ := Run.finish_next h
      exact .stream _ _ (.header ‹_›) hfit
    · injection h with h; exact h ▸ .violation _ _ (by decide)
  | encode more =>
    simp only [exec, execEncode] at h
    split at h
    · injection h with h; exact h ▸ .violation _ _ (by decide)
    split at h
    · injection h with h; exact h ▸ .violation _ _ (by decide)
    obtain ⟨hfit, rfl⟩ := Run.finish_next h
    exact .stream _ _ (.encode more (by simp_all) (by simp_all)) hfit
  | finish =>
    simp only [exec, execFinish] at h
    split at h
    · obtain ⟨hfit, rfl⟩ := Run.finish_next h
      exact .stream _ _ (.finish ‹_›) hfit
    · injection h with h; exact h ▸ .violation _ _ (by decide)
  | crc32Byte b => exact checksumCommand_next (.crc32Byte b) h
  | crc32Block => exact checksumCommand_next .crc32Block h
  | adler32Byte b => exact checksumCommand_next (.adler32Byte b) h
  | adler32Block => exact checksumCommand_next .adler32Block h

/-- What a next state of a step is: the core waits, or one host action is done. -/
inductive StepNext (s : State) : State → Prop where
  | wait (hs : s.script = []) : StepNext s s
  | command (w : Word) (i : Instr) (rest : List HostAction) (t : State) (hw : decode w = .ok i)
    (hs : s.script = .write 0x00#8 w :: rest) (ht : exec i { s with script := rest } = .next t) :
    StepNext s (observe (.output t.obuf) t)
  | illegal (w : Word) (e : DecodeReject) (rest : List HostAction) (hw : decode w = .error e)
    (hs : s.script = .write 0x00#8 w :: rest) :
    StepNext s (observe (.output s.obuf) (raiseViolation .illegal { s with script := rest }))
  | write (o : BitVec 8) (r : Reg) (v : Word) (rest : List HostAction) (hs : s.script = .write o v :: rest)
    (hr : regAt o = some r) (hne : r ≠ .cmd) : StepNext s (writeReg { s with script := rest } r v)
  | read (o : BitVec 8) (r : Reg) (rest : List HostAction) (hs : s.script = .read o :: rest) (hr : regAt o = some r) :
    StepNext s (observe (.value (readReg { s with script := rest } r)) { s with script := rest })
  | bindInput (bytes : List Byte) (rest : List HostAction) (hs : s.script = .bindInput bytes :: rest) :
    StepNext s { s with script := rest, ibuf := Memory.ofBytes bytes }
  | bindOutput (bytes : List Byte) (rest : List HostAction) (hs : s.script = .bindOutput bytes :: rest) :
    StepNext s { s with script := rest, obuf := Memory.ofBytes bytes }
  | reset (rest : List HostAction) (hs : s.script = .reset :: rest) :
    StepNext s (hardwareReset { s with script := rest })
  | resetDuring (w : Word) (rest : List HostAction) (hs : s.script = .resetDuring w :: rest) (n : Nat)
    (hn : n ≤ s.outCap.toNat) :
    StepNext s { hardwareReset { s with script := rest } with
      obuf := s.obuf.storeFrom 0 ((List.range n).map (Config.freeByte s.cutOffs)), cutOffs := s.cutOffs + 1 }

/-- A command writes no more bytes than OUT_CAP when it ends in a next state (60_exceptions R270). -/
theorem bytesWritten_le {w : Word} {s t : State} (h : runWord w s = .next t) : bytesWritten w t ≤ s.outCap.toNat := by
  unfold bytesWritten
  split
  · rename_i i hi
    simp only [runWord, hi] at h
    split
    · rename_i hw
      cases exec_cases h with
      | stream i r hr hfit =>
        rw [Run.finished_result hfit]
        have hcap : r.st.outCap = s.outCap := by
          cases hr with
          | header hp => rfl
          | finish hp => rfl
          | encode more ht hp => exact encodeRun_outCap _ _
        exact hcap ▸ hfit
      | violation i code hc => simp_all
      | _ => simp [writesOutput] at hw
    · omega
  · omega

/-- The one offset at which a register is CMD (10_state R21). -/
theorem regAt_cmd {o : BitVec 8} (h : regAt o = some .cmd) : o = 0x00#8 := by
  unfold regAt at h
  repeat' split at h
  all_goals first | assumption | simp at h

/-- Everything a step that answers a next state can have done. -/
theorem step_cases {s t : State} (h : step s = .next t) : StepNext s t := by
  simp only [step, takeNext] at h
  split at h
  · injection h with h; exact h ▸ .wait ‹_›
  rename_i a rest hs
  cases a with
  | write o v =>
    simp only [takeAction] at h
    split at h
    · cases h
    rename_i r hr
    split at h
    · rename_i hc
      have ho : o = 0x00#8 := regAt_cmd (hc ▸ hr)
      subst ho
      simp only [launch, runWord] at h
      cases hw : decode v with
      | error e => rw [hw] at h; injection h with h; exact h ▸ .illegal v e rest hw hs
      | ok i =>
        rw [hw] at h
        cases he : exec i { s with script := rest } with
        | next u => simp only [he] at h; injection h with h; exact h ▸ .command v i rest u hw hs he
        | fault f => simp only [he] at h; cases h
        | refused f => simp only [he] at h; cases h
    · injection h with h; exact h ▸ .write o r v rest hs hr ‹_›
  | read o =>
    simp only [takeAction] at h
    split at h
    · cases h
    · injection h with h; exact h ▸ .read o _ rest hs ‹_›
  | bindInput bytes => injection h with h; exact h ▸ .bindInput bytes rest hs
  | bindOutput bytes => injection h with h; exact h ▸ .bindOutput bytes rest hs
  | reset => injection h with h; exact h ▸ .reset rest hs
  | resetDuring w =>
    simp only [takeAction, cutOff] at h
    split at h
    · rename_i t ht
      have hn := bytesWritten_le ht
      injection h with h
      exact h ▸ .resetDuring w rest hs _ hn
    · cases h
    · cases h

end Sys2Proof.Machine
end

