-- ==== Sys2Proof/Laws/PerInstr.lean ====
section
/-! SUPPORT. What holds of every command as syntax, one lemma per constructor: the word of a command lies in a row of
the opcode map (30_encoding R93), its fixed bits being the row's. -/

namespace Sys2Proof.Laws

/-- The command's word has an operation code of the opcode map and that row's fixed bits (30_encoding R93, R95). -/
def TableRow.Statement (i : Instr) : Prop :=
  ∃ row, rowOf (opcField (encode i)) = some row ∧ encode i &&& row.mask = row.pattern

theorem TableRow.tblinit : TableRow.Statement .tblinit := ⟨.tblinit, by decide, by decide⟩

theorem TableRow.init (level : BitVec 1) (fmt : BitVec 2) : TableRow.Statement (.init level fmt) :=
  ⟨.init, by revert level fmt; decide, by revert level fmt; decide⟩

theorem TableRow.sendHeader : TableRow.Statement .sendHeader := ⟨.sendHeader, by decide, by decide⟩

theorem TableRow.encode (more : BitVec 1) : TableRow.Statement (.encode more) :=
  ⟨.encode, by revert more; decide, by revert more; decide⟩

theorem TableRow.finish : TableRow.Statement .finish := ⟨.finish, by decide, by decide⟩

theorem TableRow.crc32Byte (byte : Byte) : TableRow.Statement (.crc32Byte byte) :=
  ⟨.crc32Byte, by revert byte; decide +kernel, by revert byte; decide +kernel⟩

theorem TableRow.crc32Block : TableRow.Statement .crc32Block := ⟨.crc32Block, by decide, by decide⟩

theorem TableRow.adler32Byte (byte : Byte) : TableRow.Statement (.adler32Byte byte) :=
  ⟨.adler32Byte, by revert byte; decide +kernel, by revert byte; decide +kernel⟩

theorem TableRow.adler32Block : TableRow.Statement .adler32Block := ⟨.adler32Block, by decide, by decide⟩

end Sys2Proof.Laws
end

