-- ==== Sys2Proof/Laws/Session.lean ====
section
/-! SUPPORT. What a session's commands do in turn: one call and the rest, two stretches one after the other, and what the
host sets before a call. -/

namespace Sys2Proof.Machine

/-- The host's preparation of a call touches the operand registers and the input only. -/
theorem SessionCall.prepare_frame (c : SessionCall) (s : State) :
    c.prepare s = { s with
      inLen := (c.prepare s).inLen, outCap := (c.prepare s).outCap, seed := (c.prepare s).seed,
      ibuf := (c.prepare s).ibuf } := by
  cases c <;> rfl

@[simp] theorem SessionCall.prepare_phase (c : SessionCall) (s : State) : (c.prepare s).phase = s.phase := by
  cases c <;> rfl

@[simp] theorem SessionCall.prepare_tablesReady (c : SessionCall) (s : State) :
    (c.prepare s).tablesReady = s.tablesReady := by
  cases c <;> rfl

@[simp] theorem SessionCall.prepare_tbl (c : SessionCall) (s : State) : (c.prepare s).tbl = s.tbl := by
  cases c <;> rfl

@[simp] theorem runCalls_nil (s : State) : runCalls [] s = some ([], s) := rfl

/-- A call that completes, and then the rest. -/
theorem runCalls_cons {c : SessionCall} {s t : State} (h : exec c.instr (c.prepare s) = .next t) (ht : t.cc = .ok)
    (cs : List SessionCall) : runCalls (c :: cs) s = (runCalls cs t).map fun r => (c.takes t ++ r.1, r.2) := by
  simp only [runCalls, h, ht, if_true]
  cases runCalls cs t <;> rfl

/-- Everything a run of at least one call can have done. -/
theorem runCalls_cases {c : SessionCall} {cs : List SessionCall} {s u : State} {out : List Byte}
    (h : runCalls (c :: cs) s = some (out, u)) :
    ∃ t rest, exec c.instr (c.prepare s) = .next t ∧ t.cc = .ok ∧ runCalls cs t = some (rest, u) ∧
      out = c.takes t ++ rest := by
  cases he : exec c.instr (c.prepare s) with
  | next t =>
    by_cases ht : t.cc = .ok
    · rw [runCalls_cons he ht] at h
      cases hr : runCalls cs t with
      | none => simp [hr] at h
      | some r =>
        simp only [hr, Option.map_some, Option.some.injEq, Prod.mk.injEq] at h
        obtain ⟨rfl, rfl⟩ := h
        exact ⟨t, r.1, rfl, ht, hr, rfl⟩
    · simp [runCalls, he, ht] at h
  | fault f => simp [runCalls, he] at h
  | refused f => simp [runCalls, he] at h

/-- Two stretches of calls one after the other. -/
theorem runCalls_append {cs ds : List SessionCall} {s t : State} {out : List Byte} (h : runCalls cs s = some (out, t)) :
    runCalls (cs ++ ds) s = (runCalls ds t).map fun r => (out ++ r.1, r.2) := by
  induction cs generalizing s out with
  | nil =>
    simp only [runCalls_nil, Option.some.injEq, Prod.mk.injEq] at h
    obtain ⟨rfl, rfl⟩ := h
    simp
  | cons c cs ih =>
    obtain ⟨u, rest, he, hu, hr, rfl⟩ := runCalls_cases h
    rw [List.cons_append, runCalls_cons he hu, ih hr]
    cases runCalls ds t <;> simp

end Sys2Proof.Machine
end

