-- ==== Sys2Proof/Tests/Slice0.lean ====
section
/-! SUPPORT. Checks of the model on the spec's own worked words and vectors (30_encoding R98, 40_tables_init R143,
95_test_vectors; the source of each expected value stands beside it), and a named witness for the hypotheses of every
statement that has some. Every stream vector uses HASH3_DEFAULT, the empty list. -/

namespace Sys2Proof.Tests

set_option Elab.async false

open Sys2Proof.Machine Host

/-! ## Small states -/

/-- After TBLINIT: STATUS 0x45. -/
def ready : State := { State.reset with tbl := Tables.contents, tablesReady := true }

/-- After TBLINIT and INIT. -/
def session (f : Format) (compEn : Bool) : State :=
  { ready with phase := .init, format := f, compEn := compEn, checksum := emptyChecksum f }

/-- A ready state with input bound, the capacity it is owed, and a seed. -/
def fed (seed : Word) (bytes : List Byte) (s : State) : State := feed bytes { s with seed := seed }

/-- RAW, level 1, after `ENCODE MORE` of "abc" (95_test_vectors 2.7, second row). -/
def opened : State :=
  { session .raw true with
    phase := .inBlock, pend := 0x6#32, cnt := 3#3, checksum := 0x352441C2#32, totalIn := 3#32, mtab := [(0xF11, 0#32)] }

/-- The state of the row after it, `ENCODE LAST` of nothing (95_test_vectors 2.7). -/
def ended : State := { opened with phase := .trailerPending, pend := 0#32, cnt := 4#3, mtab := [] }

/-- RESULT, STATUS and the bytes written, of a next state. -/
def shown : Outcome State Fault Refusal → Option (Word × Word × List Byte)
  | .next t => some (t.result, statusWord t, if t.cc = .ok then outputOf t else [])
  | .fault _ => none
  | .refused _ => none

/-- RESULT of a next state; the checksum commands put no bytes in OBUF. -/
def resultOf : Outcome State Fault Refusal → Option Word
  | .next t => some t.result
  | .fault _ => none
  | .refused _ => none

/-- PEND, CHECKSUM and TOTAL_IN of a next state. -/
def descriptorOf : Outcome State Fault Refusal → Option (Word × Word × Word)
  | .next t => some (t.pend, t.checksum, t.totalIn)
  | .fault _ => none
  | .refused _ => none

/-- The answer is a next state in which `p` holds. -/
def nextWith (p : State → Bool) : Outcome State Fault Refusal → Bool
  | .next t => p t
  | .fault _ => false
  | .refused _ => false

/-- The answer is the overflow fault. -/
def overflows : Outcome State Fault Refusal → Bool
  | .next _ => false
  | .fault f => decide (f = .obufOverflow)
  | .refused _ => false

/-- The decoder's answer, for comparing. -/
def decoded (w : Word) : Option Instr := decodeTableWord 32 w.toNat

/-- The decoder's reason. -/
def rejected (w : Word) : Option DecodeReject :=
  match decode w with
  | .ok _ => none
  | .error e => some e

/-- "abc" -/
def abc : List Byte := [0x61#8, 0x62#8, 0x63#8]

/-- "123456789" -/
def digits : List Byte := [0x31#8, 0x32#8, 0x33#8, 0x34#8, 0x35#8, 0x36#8, 0x37#8, 0x38#8, 0x39#8]

/-! ## Terms and words -/

/-- The check of WellFormed: FMT = 3 (30_encoding R97). -/
theorem test_wellFormed_refuses_fmt3 : (Instr.init 0#1 3#2).wellFormed = false ∧ (Instr.init 1#1 2#2).wellFormed = true := by
  decide

/-- 30_encoding R93, bit by bit: [31:16] 0, BYTE, FMT, LEVEL, MORE, OPC. -/
theorem test_decode_tblinit : decoded 0b0000000000000000_00000000_00_0_0_0001#32 = some .tblinit := by decide
theorem test_decode_init : decoded 0b0000000000000000_00000000_10_1_0_0010#32 = some (.init 1#1 2#2) := by decide
theorem test_decode_init_zlib : decoded 0b0000000000000000_00000000_01_0_0_0010#32 = some (.init 0#1 1#2) := by decide
theorem test_decode_sendHeader : decoded 0b0000000000000000_00000000_00_0_0_0011#32 = some .sendHeader := by decide
theorem test_decode_encode : decoded 0b0000000000000000_00000000_00_0_1_0100#32 = some (.encode 1#1) := by decide
theorem test_decode_finish : decoded 0b0000000000000000_00000000_00_0_0_0101#32 = some .finish := by decide
theorem test_decode_crc32Byte : decoded 0b0000000000000000_01100001_00_0_0_1000#32 = some (.crc32Byte 0x61#8) := by decide
theorem test_decode_crc32Block : decoded 0b0000000000000000_00000000_00_0_0_1001#32 = some .crc32Block := by decide
theorem test_decode_adler32Byte : decoded 0b0000000000000000_11111111_00_0_0_1010#32 = some (.adler32Byte 0xFF#8) := by
  decide
theorem test_decode_adler32Block : decoded 0b0000000000000000_00000000_00_0_0_1011#32 = some .adler32Block := by decide

/-- The right half of the table of 95_test_vectors 2.1. -/
theorem test_decode_illegal :
    [0x00000000#32, 0x6#32, 0x7#32, 0xC#32, 0xD#32, 0xE#32, 0xF#32, 0xFFFFFFFF#32].map rejected
      = List.replicate 8 (some .reservedOpcode) ∧
    [0x000000C2#32, 0x000000E2#32].map rejected = List.replicate 2 (some .reservedFormat) ∧
    [0x12#32, 0x15#32, 0x24#32, 0x101#32, 0x6109#32, 0x10004#32, 0x80000005#32, 0x18#32].map rejected
      = List.replicate 8 (some .strayBits) := by decide

/-- `nbits` cuts the word: the bits above are 0. -/
theorem test_decodeTableWord_cuts : decodeTableWord 8 0xFF09 = some .crc32Block := by decide

/-! ## Tables -/

/-- 40_tables_init R143, rows 0, 152 and 248. -/
theorem test_crc_table :
    (List.range 8).map crcEntry = [0x00000000#32, 0x77073096#32, 0xEE0E612C#32, 0x990951BA#32, 0x076DC419#32,
      0x706AF48F#32, 0xE963A535#32, 0x9E6495A3#32] ∧
    (List.range' 152 8).map crcEntry = [0xFED41B76#32, 0x89D32BE0#32, 0x10DA7A5A#32, 0x67DD4ACC#32, 0xF9B9DF6F#32,
      0x8EBEEFF9#32, 0x17B7BE43#32, 0x60B08ED5#32] ∧
    (List.range' 248 8).map crcEntry = [0xB3667A2E#32, 0xC4614AB8#32, 0x5D681B02#32, 0x2A6F2B94#32, 0xB40BBE37#32,
      0xC30C8EA1#32, 0x5A05DF1B#32, 0x2D02EF8D#32] := by decide +kernel

/-- 95_test_vectors 2.2. -/
theorem test_tblinit : shown (exec .tblinit State.reset) = some (0#32, 0x00000045#32, []) := by decide +kernel

/-! ## Checksums (95_test_vectors 2.3) -/

theorem test_crc32Byte :
    resultOf (exec (.crc32Byte 0x62#8) (fed 0xE8B7BE43#32 [] ready)) = some 0x9E83486D#32 ∧
    resultOf (exec (.crc32Byte 0x00#8) (fed 0xFFFFFFFF#32 [] ready)) = some 0xFFFFFFFF#32 := by decide +kernel

theorem test_crc32Block :
    resultOf (exec .crc32Block (fed 0#32 digits ready)) = some 0xCBF43926#32 ∧
    resultOf (exec .crc32Block (fed 0x12345678#32 [] ready)) = some 0x12345678#32 := by decide +kernel

theorem test_adler32Byte :
    resultOf (exec (.adler32Byte 0x62#8) (fed 0x00620062#32 [] ready)) = some 0x012600C4#32 ∧
    resultOf (exec (.adler32Byte 0x00#8) (fed 0xFFFFFFFF#32 [] ready)) = some 0x001C000E#32 := by decide +kernel

theorem test_adler32Block :
    resultOf (exec .adler32Block (fed 1#32 digits ready)) = some 0x091E01DE#32 ∧
    resultOf (exec .adler32Block (fed 0xFFFFFFFF#32 [] ready)) = some 0xFFFFFFFF#32 := by decide +kernel

/-! ## Match finder (95_test_vectors 2.4) -/

theorem test_hashDefault :
    hash3 [] 0x61#8 0x62#8 0x63#8 = 0xF11#13 ∧ hash3 [] 0x61#8 0x61#8 0x61#8 = 0xF49#13 ∧
    hash3 [] 0x78#8 0x78#8 0x78#8 = 0xCB8#13 ∧ hash3 [] 0xFF#8 0xFF#8 0xFF#8 = 0x18E7#13 := by decide

theorem test_finder_shortest : (findEvents hashDefault true (List.replicate 4 0x78#8)).1 = [.literal 0x78#8, .copy 3 1] := by
  decide +kernel

theorem test_finder_unequal_byte :
    (findEvents hashDefault true
      [0x61#8, 0x62#8, 0x63#8, 0x64#8, 0x65#8, 0x5F#8, 0x61#8, 0x62#8, 0x63#8, 0x64#8, 0x58#8]).1
      = [.literal 0x61#8, .literal 0x62#8, .literal 0x63#8, .literal 0x64#8, .literal 0x65#8, .literal 0x5F#8,
         .copy 4 6, .literal 0x58#8] := by decide +kernel

/-- Two prefixes of one slot: the collision check fails twice and the true repeat is lost. -/
theorem test_finder_eviction :
    (findEvents hashDefault true [0x08#8, 0x00#8, 0x00#8, 0x00#8, 0x01#8, 0x00#8, 0x08#8, 0x00#8, 0x00#8]).1
      = [0x08#8, 0x00#8, 0x00#8, 0x00#8, 0x01#8, 0x00#8, 0x08#8, 0x00#8, 0x00#8].map Event.literal := by decide +kernel

/-- 95_test_vectors P5: slot 0xF49 holds position 7 after ten bytes "a". -/
theorem test_finder_table : (findEvents hashDefault true (List.replicate 10 0x61#8)).2 = [(0xF49, 7#32)] := by
  decide +kernel

/-! ## Packer and codes (95_test_vectors 2.5, 2.6) -/

theorem test_push_trace :
    pushAll ⟨0#32, 0⟩ [⟨3#32, 3⟩, ⟨0x89#32, 8⟩, ⟨0x49#32, 8⟩, ⟨0xC9#32, 8⟩, ⟨0#32, 7⟩]
      = ([0x4B#8, 0x4C#8, 0x4A#8, 0x06#8], ⟨0#32, 2⟩) := by decide

theorem test_push_widest :
    push ⟨0x7F#32, 7⟩ ⟨0xFFFFFF#32, 24⟩ = ([0xFF#8, 0xFF#8, 0xFF#8], ⟨0x7F#32, 7⟩) ∧
    push ⟨0x7F#32, 7⟩ ⟨0x1FFF#32, 13⟩ = ([0xFF#8, 0xFF#8], ⟨0xF#32, 4⟩) := by decide

theorem test_flush : flushToByte ⟨0x5#32, 3⟩ = ([0x05#8], ⟨0#32, 0⟩) ∧ flushToByte ⟨0#32, 0⟩ = ([], ⟨0#32, 0⟩) := by
  decide

theorem test_literal_codes :
    literalPushes Tables.contents 0x8F#8 = [⟨0xFD#32, 8⟩] ∧ literalPushes Tables.contents 0x90#8 = [⟨0x013#32, 9⟩] ∧
    eobPushes Tables.contents = [⟨0#32, 7⟩] ∧ blockHeader false = [⟨2#32, 3⟩] := by decide +kernel

theorem test_match_codes :
    matchPushes Tables.contents 257 32768 = [⟨0x23#32, 8⟩, ⟨30#32, 5⟩, ⟨0x17#32, 5⟩, ⟨8191#32, 13⟩] ∧
    matchPushes Tables.contents 11 5 = [⟨0x48#32, 7⟩, ⟨0#32, 1⟩, ⟨0x04#32, 5⟩, ⟨0#32, 1⟩] ∧
    matchPushes Tables.contents 258 1 = [⟨0xA3#32, 8⟩, ⟨0#32, 0⟩, ⟨0#32, 5⟩, ⟨0#32, 0⟩] := by decide +kernel

/-! ## Stream commands (95_test_vectors 2.7, 2.8, P1) -/

/-- 45_stream_commands R237, example. -/
theorem test_init : shown (exec (.init 0#1 1#2) opened) = some (0#32, 0x00000050#32, []) ∧
    descriptorOf (exec (.init 0#1 1#2) opened) = some (0#32, 1#32, 0#32) := by decide +kernel

theorem test_sendHeader : shown (exec .sendHeader (fed 0#32 [] (session .zlib true)))
    = some (2#32, 0x00000059#32, [0x78#8, 0x01#8]) := by decide +kernel

/-- P1, step 3. -/
theorem test_encode_last : shown (exec (.encode 0#1) (fed 0#32 abc (session .gzip true)))
    = some (14#32, 0x0000206C#32, [0x1F#8, 0x8B#8, 0x08#8, 0x00#8, 0x00#8, 0x00#8, 0x00#8, 0x00#8, 0x04#8, 0x03#8,
        0x4B#8, 0x4C#8, 0x4A#8, 0x06#8]) := by decide +kernel

/-- 2.7, second and ninth rows. -/
theorem test_encode_more :
    shown (exec (.encode 1#1) (fed 0#32 abc (session .raw true)))
      = some (3#32, 0x0000304A#32, [0x4A#8, 0x4C#8, 0x4A#8]) ∧
    shown (exec (.encode 0#1) (fed 0#32 [] opened)) = some (2#32, 0x0000404C#32, [0x06#8, 0x0C#8]) := by decide +kernel

/-- P1, step 4. -/
theorem test_finish : shown (exec .finish
      (fed 0#32 [] { session .gzip true with phase := .trailerPending, cnt := 2#3, checksum := 0x352441C2#32, totalIn := 3#32 }))
    = some (9#32, 0x0000006D#32, [0x00#8, 0xC2#8, 0x41#8, 0x24#8, 0x35#8, 0x03#8, 0x00#8, 0x00#8, 0x00#8]) := by
  decide +kernel

/-- 2.8, first, third and eighth rows. -/
theorem test_violations :
    shown (exec (.encode 0#1) State.reset) = some (0xFFFFFFFF#32, 0x00000285#32, []) ∧
    shown (exec .finish State.reset) = some (0xFFFFFFFF#32, 0x00000385#32, []) ∧
    shown (exec .finish (session .raw true)) = some (0xFFFFFFFF#32, 0x000003C8#32, []) := by decide +kernel

/-- 60_exceptions R270: one byte too little. -/
theorem test_overflow : overflows (exec .sendHeader { session .zlib true with outCap := 1#32 }) = true := by decide +kernel

/-- The first step after reset with a command put in front runs it (95_test_vectors 2.8, `INIT 1, GZIP` at reset). -/
theorem test_step_runs_word : shown (step (State.reset.withFetchWord 32 0xA2)) = some (0#32, 0x00000028#32, []) := by
  decide +kernel

/-- An illegal word through a step: CC_ILLEGAL (95_test_vectors 2.1, last sentence). -/
theorem test_step_illegal_word : shown (step (State.reset.withFetchWord 32 0xC2)) = some (0xFFFFFFFF#32, 0x00000185#32, []) := by
  decide +kernel

/-! ## Witnesses: sound states -/

theorem sound_ready : ready.Sound := by constructor <;> decide +kernel
theorem sound_session : (session .zlib true).Sound := by constructor <;> decide +kernel
theorem sound_opened : opened.Sound := by constructor <;> decide +kernel
theorem sound_ended : ended.Sound := by constructor <;> decide +kernel

/-! ## Witnesses: words and steps -/

theorem witness_DecodeReadsBackEveryCommand : (Instr.init 1#1 2#2).wellFormed = true := by decide
theorem witness_EveryLegalWordIsTheEncoding : decode 0x00006108#32 = .ok (.crc32Byte 0x61#8) := rfl

/-- One word for each clause of the illegal encodings, at the edge of its field, and a word for none. -/
theorem witness_IllegalWordsAreRefused :
    opcField 0x0000000F#32 ∈ [0x0#4, 0x6#4, 0x7#4, 0xC#4, 0xD#4, 0xE#4, 0xF#4] ∧
    (0x80000005#32).extractLsb' 16 16 ≠ 0#16 ∧ (0x00010004#32).extractLsb' 16 16 ≠ 0#16 ∧
    (moreField 0x00000012#32 ≠ 0#1 ∧ opcField 0x00000012#32 ≠ 0x4#4) ∧
    (levelField 0x00000024#32 ≠ 0#1 ∧ opcField 0x00000024#32 ≠ 0x2#4) ∧
    (fmtField 0x00000081#32 ≠ 0#2 ∧ opcField 0x00000081#32 ≠ 0x2#4) ∧
    (byteField 0x00000101#32 ≠ 0#8 ∧ opcField 0x00000101#32 ≠ 0x8#4 ∧ opcField 0x00000101#32 ≠ 0xA#4) ∧
    (opcField 0x000000E2#32 = 0x2#4 ∧ fmtField 0x000000E2#32 = 3#2) ∧
    (opcField 0x000000A2#32 ∉ [0x0#4, 0x6#4, 0x7#4, 0xC#4, 0xD#4, 0xE#4, 0xF#4] ∧
      (0x000000A2#32).extractLsb' 16 16 = 0#16 ∧ moreField 0x000000A2#32 = 0#1 ∧ opcField 0x000000A2#32 = 0x2#4 ∧
      byteField 0x000000A2#32 = 0#8 ∧ fmtField 0x000000A2#32 ≠ 3#2) := by decide

theorem witness_StepRunsTheDecodedCommand :
    (ready.withFetchWord 32 0x9).script = .write 0x00#8 0x00000009#32 :: [] ∧ decode 0x00000009#32 = .ok .crc32Block :=
  ⟨rfl, rfl⟩

theorem witness_FetchedWordIsTheNextCommand : decodeTableWord 32 0x14 = some (.encode 1#1) := by decide

theorem witness_RegisterFileReadsAndWrites :
    ((0x24#8).extractLsb' 0 2 = 0#2 ∧ 0x24 ≤ (0x24#8).toNat) ∧ ((0xFC#8).extractLsb' 0 2 = 0#2 ∧ 0x24 ≤ (0xFC#8).toNat) := by
  decide

theorem witness_BoundBuffersHoldTheirBytes : abc.length ≤ 4294967296 ∧ ([] : List Byte).length ≤ 4294967296 := by decide

theorem witness_HardwareResetLeavesBuffers : ({ opened with script := [.reset] } : State).script = .reset :: [] := rfl

theorem witness_OnlyResetClearsTheFlags :
    nextWith (fun t => t.viol) (step { ready with viol := true, script := [.read 0x14#8] }) = true ∧
    (∀ rest, ({ ready with viol := true, script := [.read 0x14#8] } : State).script ≠ .reset :: rest) ∧
    (∀ w rest, ({ ready with viol := true, script := [.read 0x14#8] } : State).script ≠ .resetDuring w :: rest) :=
  ⟨by decide +kernel, by simp, by simp⟩

/-- An ENCODE that would write two bytes, a checksum command, and a refused FINISH, each cut off. -/
theorem witness_ResetCutsACommandOff :
    (Instr.encode 0#1).wellFormed = true ∧
    ({ opened with outCap := 2#32, script := [.resetDuring (encode (.encode 0#1))] } : State).script
      = .resetDuring (encode (.encode 0#1)) :: [] ∧
    nextWith (fun t => decide (t.cc = .ok) && decide (t.result = 2#32)) (exec (.encode 0#1) { opened with outCap := 2#32 }) = true ∧
    nextWith (fun t => decide (t.cc = .ok)) (exec .crc32Block opened) = true ∧
    nextWith (fun t => decide (t.cc ≠ .ok)) (exec .finish opened) = true := by decide +kernel

/-! ## Witnesses: commands -/

theorem witness_TblinitFillsTheTablesOnce : State.reset.tablesReady = false ∧ ready.tablesReady = true := by decide
theorem witness_ChecksumCommandsComplete : (fed 0#32 abc ready).tablesReady = true := by decide
theorem witness_BlockCommandEqualsByteCommands :
    (fed 7#32 abc ready).tablesReady = true ∧ inputBytes (fed 7#32 abc ready) = abc := by decide +kernel

theorem witness_InitStartsASession : formatCode .raw = 0#2 ∧ formatCode .zlib = 1#2 ∧ formatCode .gzip = 2#2 := by decide

/-- Both outcomes: 2 bytes fit in 2, not in 1. -/
theorem witness_SendHeaderWritesTheEnvelopeHeader :
    ({ session .zlib true with outCap := 2#32 } : State).phase = .init ∧
    nextWith (fun t => decide (t.phase = .eob)) (exec .sendHeader { session .zlib true with outCap := 2#32 }) = true ∧
    overflows (exec .sendHeader { session .zlib true with outCap := 1#32 }) = true := by decide +kernel

/-- Both outcomes: one flush byte fits in 1, not in 0. -/
theorem witness_FinishFlushesAndWritesTheTrailer :
    ended.phase = .trailerPending ∧
    nextWith (fun t => decide (t.phase = .done)) (exec .finish { ended with outCap := 1#32 }) = true ∧
    overflows (exec .finish { ended with outCap := 0#32 }) = true ∧
    nextWith (fun t => decide (t.phase = .done)) (exec .finish { ended with outCap := 12#32 }) = true := by decide +kernel

/-- Each phase, and both outcomes. -/
theorem witness_EncodeFollowsTheCaseTable :
    ((session .raw true).tablesReady = true ∧ (session .raw true).phase = .init) ∧
    ({ session .raw true with phase := .eob } : State).phase = .eob ∧
    (opened.tablesReady = true ∧ opened.phase = .inBlock) ∧
    nextWith (fun t => decide (t.phase = .trailerPending)) (exec (.encode 0#1) { opened with outCap := 2#32 }) = true ∧
    overflows (exec (.encode 0#1) { opened with outCap := 1#32 }) = true := by decide +kernel

theorem witness_CapacityContractPreventsOverflow :
    opened.Sound ∧ capacityKept (.encode 0#1) { opened with outCap := 12#32 } = true ∧
    nextWith (fun t => decide (t.cc = .ok)) (exec (.encode 0#1) { opened with outCap := 12#32 }) = true ∧
    capacityKept .finish { ended with outCap := 12#32 } = true ∧
    capacityKept .sendHeader { session .gzip true with outCap := 10#32 } = true ∧ capacityKept .tblinit State.reset = true :=
  ⟨sound_opened, by decide +kernel⟩

/-- The fault is reached by each of the three commands. -/
theorem witness_OverflowIsTheOnlyFault :
    overflows (exec .sendHeader (session .gzip true)) = true ∧ overflows (exec .finish ended) = true ∧
    overflows (exec (.encode 0#1) opened) = true := by decide +kernel

theorem witness_TablesMissingIsDetected :
    State.reset.tablesReady = false ∧ nextWith (fun t => decide (t.cc = .phase)) (exec .finish State.reset) = true ∧
    nextWith (fun t => decide (t.cc = .ok)) (exec (.init 1#1 2#2) State.reset) = true ∧
    nextWith (fun t => decide (t.cc = .phase)) (exec .sendHeader State.reset) = true ∧
    nextWith (fun t => decide (t.cc = .ok)) (exec .tblinit State.reset) = true := by decide +kernel

theorem witness_PhaseTable :
    phaseRefuses .finish opened.phase = true ∧ phaseRefuses (.encode 0#1) ended.phase = true ∧ ended.tablesReady = true ∧
    phaseRefuses (.encode 1#1) ready.phase = true ∧ phaseRefuses (.encode 1#1) opened.phase = false ∧
    phaseRefuses .sendHeader ready.phase = true ∧ phaseRefuses .crc32Block ready.phase = false ∧
    nextWith (fun t => decide (t.cc = .ok)) (exec .crc32Block ready) = true := by decide +kernel

theorem witness_ViolationsChangeNothingElse :
    nextWith (fun t => decide (t.cc ≠ .ok)) (runWord 0x00000005#32 opened) = true ∧
    nextWith (fun t => decide (t.cc ≠ .ok)) (runWord 0x00000000#32 opened) = true ∧
    nextWith (fun t => decide (t.cc ≠ .ok)) (runWord 0x00000009#32 State.reset) = true := by decide +kernel

theorem witness_PhaseGraph :
    nextWith (fun t => decide (t.cc = .ok) && decide (t.phase = .trailerPending))
      (exec (.encode 0#1) { opened with outCap := 12#32 }) = true ∧
    nextWith (fun t => decide (t.cc ≠ .ok)) (exec .finish opened) = true := by decide +kernel

theorem witness_CommandFrame :
    nextWith (fun t => t.viol && t.tablesReady) (exec .tblinit { ready with viol := true }) = true ∧
    nextWith (fun t => decide (t.tbl = Tables.contents)) (exec .crc32Block ready) = true := by decide +kernel

theorem witness_DescriptorFrame :
    nextWith (fun t => decide (t.pend = 6#32)) (exec .adler32Block opened) = true ∧
    nextWith (fun t => decide (t.cc = .ok)) (exec .finish { ended with outCap := 12#32 }) = true ∧
    nextWith (fun t => decide (t.cc = .ok)) (exec .sendHeader { session .gzip true with outCap := 10#32 }) = true := by
  decide +kernel

/-- A storing command and an index above RESULT; a completed command that stores nothing; a refused one. -/
theorem witness_MemoryFrame :
    nextWith (fun t => decide (t.result.toNat ≤ 2)) (exec (.encode 0#1) { opened with outCap := 12#32 }) = true ∧
    nextWith (fun t => decide (t.cc = .ok)) (exec .crc32Block ready) = true ∧
    nextWith (fun t => decide (t.cc ≠ .ok)) (exec .finish opened) = true := by decide +kernel

/-! ## Witnesses: finder, packer, codes -/

theorem witness_MatchesAreInRange :
    Event.copy 3 1 ∈ (findEvents hashDefault true (List.replicate 4 0x78#8)).1 ∧ (Event.copy 3 1).inRange = true ∧
    (Event.copy 258 32768).inRange = true ∧ (Event.copy 2 1).inRange = false ∧ (Event.copy 3 0).inRange = false := by
  decide +kernel

/-- The three ends of a run: 0, 1 or 2, and 3 or more bytes left, and the least and largest `r`. -/
theorem witness_RunOfOneByte :
    4 ≤ 4 ∧ 4 < 4294967296 ∧ 4 ≤ 259 ∧ (259 - 1) % 258 = 0 ∧ 4 ≤ 260 ∧ (260 - 1) % 258 = 1 ∧ 3 ≤ (4 - 1) % 258 ∧
    4294967295 < 4294967296 := by decide

theorem witness_TableKeepsTheLatestPosition :
    (List.replicate 10 0x61#8).length < 4294967296 ∧
    (findEvents hashDefault true (List.replicate 10 0x61#8)).2.slot 0xF49#13 = some 7#32 ∧
    (findEvents hashDefault true (List.replicate 10 0x61#8)).2.slot 0#13 = none := by decide +kernel

theorem witness_ShortPiecesAreLiterals : abc.length < 4 := by decide

theorem witness_RevReversesBits : 32 ≤ 32 ∧ 31 < 32 ∧ 0 ≤ 32 ∧ 5 ≤ 5 := by decide

/-- The fullest start and the widest push, and the empty ones. -/
theorem witness_PackerKeepsTheBitStream :
    (⟨0x7F#32, 7⟩ : Packer).fits = true ∧ (⟨0#32, 0⟩ : Packer).fits = true ∧
    ∀ x ∈ [(⟨0xFFFFFF#32, 24⟩ : Push), ⟨0#32, 0⟩], x.fits = true := by decide

theorem witness_PushGroupingDoesNotMatter :
    (⟨0x7F#32, 7⟩ : Packer).fits = true ∧ (⟨0x1FFF#32, 13⟩ : Push).fits = true ∧ (⟨0x7FF#32, 11⟩ : Push).fits = true ∧
    13 + 11 ≤ 24 := by decide

theorem witness_PackerAccounting : (⟨0x7F#32, 7⟩ : Packer).cnt ≤ 7 := by decide

theorem witness_FlushPadsWithZeros :
    ((⟨0x5#32, 3⟩ : Packer).fits = true ∧ 0 < 3) ∧ ((⟨0x7F#32, 7⟩ : Packer).fits = true ∧ 0 < 7) ∧
    (⟨0#32, 0⟩ : Packer).fits = true := by decide

theorem witness_DistanceLookup : (1 ≤ 1 ∧ 1 ≤ 32768) ∧ (1 ≤ 32768 ∧ 32768 ≤ 32768) := by decide
theorem witness_LengthLookup : (3 ≤ 3 ∧ 3 ≤ 257) ∧ (3 ≤ 257 ∧ 257 ≤ 257) := by decide

theorem witness_DataCostsAtMostNineBitsPerByte :
    (Event.copy 258 32768).inRange = true ∧ (Event.copy 3 32768).inRange = true ∧ (Event.copy 3 1).inRange = true ∧
    (session .raw false).tbl = Tables.contents ∧ (session .raw false).compEn = false := by decide +kernel

/-! ## Witnesses: sessions and invariants -/

theorem witness_StepKeepsSound :
    ({ opened with outCap := 12#32, script := [.write 0x00#8 0x00000004#32] } : State).Sound ∧
    nextWith (fun t => decide (t.phase = .trailerPending))
      (step { opened with outCap := 12#32, script := [.write 0x00#8 0x00000004#32] }) = true :=
  ⟨{ sound_opened with }, by decide +kernel⟩

/-- Two states that differ in total, match table, seed, result and flags. -/
theorem witness_EncodeOutputDependsOnlyOnItsInputs :
    let s1 : State := feed abc opened
    let s2 : State := { feed abc opened with totalIn := 9#32, mtab := [], seed := 5#32, result := 3#32, viol := true }
    s1.Sound ∧ s2.Sound ∧ s1 ≠ s2 ∧ s1.tablesReady = true ∧ s2.tablesReady = true ∧ inputBytes s1 = inputBytes s2 ∧
    nextWith (fun t => decide (t.cc = .ok)) (exec (.encode 1#1) s1) = true ∧
    nextWith (fun t => decide (t.cc = .ok)) (exec (.encode 1#1) s2) = true :=
  ⟨by constructor <;> decide +kernel, by constructor <;> decide +kernel, by decide +kernel⟩

theorem witness_ChunkingKeepsChecksumAndLength :
    (session .zlib true).Sound ∧ (session .zlib true).tablesReady = true ∧ (session .zlib true).phase = .init ∧
    wce abc.length < 4294967296 ∧ wce ([] : List Byte).length < 4294967296 :=
  ⟨sound_session, by decide +kernel⟩

theorem witness_EmptySessionStreams : ready.tablesReady = true ∧ ready.tbl = Tables.contents := ⟨rfl, rfl⟩

/-- P2 of 95_test_vectors with everything the grammar allows put into it: a header sent ahead, an empty piece in front and
one in the middle, TBLINIT after INIT, and checksum commands between the pieces and before FINISH. -/
def grammarCalls : List SessionCall :=
  [.more [], .side .tblinit 0#32 [], .sendHeader, .side .crc32Block 0#32 digits, .more (abc ++ abc), .more [],
   .side (.adler32Byte 0x61#8) 1#32 [], .last (abc ++ abc), .side .adler32Block 1#32 digits, .finish]

/-- 95_test_vectors P2: the stream of 18 bytes; the side commands and the empty piece in front add nothing to it. -/
theorem test_session_stream : (runSession 1#1 1#2 grammarCalls ready).map Prod.fst
    = some [0x78#8, 0x01#8, 0x4A#8, 0x4C#8, 0x4A#8, 0x06#8, 0xA2#8, 0xC4#8, 0xA4#8, 0x64#8, 0x20#8, 0x02#8, 0x0C#8,
        0x00#8, 0x1D#8, 0xE0#8, 0x04#8, 0x99#8] := by decide +kernel

theorem witness_CompletedSessionsFollowTheGrammar :
    (1#2 ≠ 3#2) ∧ (∀ piece, .more piece ∈ grammarCalls → piece.length < 4294967296) ∧
    ((runSession 1#1 1#2 grammarCalls ready).map fun r => r.2.phase) = some .done := by
  refine ⟨by decide, ?_, by decide +kernel⟩
  intro piece h
  simp [grammarCalls] at h
  rcases h with rfl | rfl | rfl <;> decide

/-- With tables ready and all of the grammar; and from reset, with TBLINIT issued inside the session, before its first
ENCODE. -/
theorem witness_SessionsRoundTrip :
    ((ready.tablesReady = true → ready.tbl = Tables.contents) ∧ tablesBeforeUse ready.tablesReady grammarCalls = true ∧
      formatCode .zlib = 1#2 ∧
      grammarCalls.filter SessionCall.isStream = sessionShape 1 true [abc ++ abc, []] (abc ++ abc) ∧
      ∀ piece ∈ [abc ++ abc, abc ++ abc, []], wce piece.length < 4294967296) ∧
    ((State.reset.tablesReady = true → State.reset.tbl = Tables.contents) ∧
      tablesBeforeUse State.reset.tablesReady [.sendHeader, .side .tblinit 0#32 [], .last abc, .finish] = true ∧
      [.sendHeader, .side .tblinit 0#32 [], .last abc, .finish].filter SessionCall.isStream = sessionShape 0 true [] abc ∧
      ((runSession 0#1 2#2 [.sendHeader, .side .tblinit 0#32 [], .last abc, .finish] State.reset).map fun r => r.2.phase)
        = some .done) := by
  decide +kernel

end Sys2Proof.Tests
end

/-! ## Bit reversal (00_scope R15) -/

section
namespace Sys2Proof.Machine

theorem getLsbD_lowBit_shiftLeft (v : Word) {w : Nat} (i : Nat) (hw : w < 32) :
    ((v &&& 1#32) <<< w).getLsbD i = (decide (i = w) && v.getLsbD 0) := by
  rw [BitVec.getLsbD_shiftLeft, BitVec.getLsbD_and, BitVec.getLsbD_one]
  obtain hlt | rfl | hgt := Nat.lt_trichotomy i w
  · simp [hlt, hlt.ne]
  · simp [hw]
  · simp [hgt.ne', show i - w ≠ 0 by omega]

/-- Every bit of a reversed code, those above its width included: one recursion step of `rev` puts bit 0 at the top,
and bit `j` of the shifted word is bit `j + 1` of the word. -/
theorem getLsbD_rev (v : Word) {w : Nat} (i : Nat) (hw : w ≤ 32) :
    (rev v w).getLsbD i = (decide (i < w) && v.getLsbD (w - 1 - i)) := by
  induction w generalizing v with
  | zero => simp [rev]
  | succ w ih =>
    rw [rev, BitVec.getLsbD_or, getLsbD_lowBit_shiftLeft v i hw, ih _ (by omega), BitVec.getLsbD_ushiftRight]
    obtain hlt | rfl | hgt := Nat.lt_trichotomy i w
    · have hbit : 1 + (w - 1 - i) = w + 1 - 1 - i := by omega
      simp [hlt, hlt.ne, Nat.lt_succ_of_lt hlt, hbit]
    · simp
    · simp [hgt.ne', hgt.not_gt, show ¬ i < w + 1 by omega]

/-- Settles O25, by the description of every bit of `rev v w`. -/
theorem revReversesBits : Obligations.RevReversesBits := by
  unfold Obligations.RevReversesBits
  refine ⟨fun v w i hw hi => ?_, fun v w i hw hi => ?_, fun _ => rfl, by decide, by decide, by decide⟩
  · simp [getLsbD_rev v i hw, hi]
  · simp [getLsbD_rev v i hw, hi.not_gt]

end Sys2Proof.Machine
end

/-! ## HASH3 as a list (00_scope R10; the model's log entry 1) -/

section
namespace Sys2Proof.Machine

/-- The cells that give each listed address the content `g` has for it. -/
def tabulate {β : Type} (g : Nat → β) (keys : List Nat) : List (Nat × β) := keys.map fun k => (k, g k)

theorem cellAt_tabulate {β : Type} (g : Nat → β) {keys : List Nat} {a : Nat} (ha : a ∈ keys) :
    cellAt (tabulate g keys) a = some (g a) := by
  induction keys with
  | nil => cases ha
  | cons k rest ih =>
    rw [tabulate, List.map_cons, cellAt]
    by_cases hk : a = k
    · rw [if_pos hk, hk]
    · rw [if_neg hk]
      exact ih (List.mem_of_ne_of_mem hk ha)

theorem prefixKey_lt (b0 b1 b2 : Byte) : prefixKey b0 b1 b2 < 2 ^ 24 := by
  unfold prefixKey
  omega

/-- A function of three bytes as a function of the prefix's number: the three bytes are its digits in base 256. -/
def slotOfKey (f : Byte → Byte → Byte → SlotIndex) (key : Nat) : SlotIndex :=
  f (BitVec.ofNat 8 key) (BitVec.ofNat 8 (key / 256)) (BitVec.ofNat 8 (key / 65536))

theorem slotOfKey_prefixKey (f : Byte → Byte → Byte → SlotIndex) (b0 b1 b2 : Byte) :
    slotOfKey f (prefixKey b0 b1 b2) = f b0 b1 b2 := by
  have digit {n : Nat} {b : Byte} (h : n % 256 = b.toNat) : BitVec.ofNat 8 n = b :=
    BitVec.eq_of_toNat_eq ((BitVec.toNat_ofNat n 8).trans h)
  have h0 : prefixKey b0 b1 b2 % 256 = b0.toNat := by unfold prefixKey; omega
  have h1 : prefixKey b0 b1 b2 / 256 % 256 = b1.toNat := by unfold prefixKey; omega
  have h2 : prefixKey b0 b1 b2 / 65536 % 256 = b2.toNat := by unfold prefixKey; omega
  rw [slotOfKey, digit h0, digit h1, digit h2]

/-- The list form of a hash function: one pair for each of the `2^24` prefixes. -/
def hashTableOf (f : Byte → Byte → Byte → SlotIndex) : Config.HashTable := tabulate (slotOfKey f) (List.range (2 ^ 24))

theorem hash3_hashTableOf (f : Byte → Byte → Byte → SlotIndex) (b0 b1 b2 : Byte) :
    hash3 (hashTableOf f) b0 b1 b2 = f b0 b1 b2 := by
  have hcell : cellAt (hashTableOf f) (prefixKey b0 b1 b2) = some (f b0 b1 b2) := by
    rw [hashTableOf, cellAt_tabulate _ (List.mem_range.mpr (prefixKey_lt b0 b1 b2)), slotOfKey_prefixKey]
  rw [hash3, hcell, Option.getD_some]

/-- Settles O24: the list that names the slot of every prefix leaves nothing to the default. -/
theorem everyHashFunctionIsExpressible : Obligations.EveryHashFunctionIsExpressible := by
  unfold Obligations.EveryHashFunctionIsExpressible
  exact fun f => ⟨hashTableOf f, hash3_hashTableOf f⟩

end Sys2Proof.Machine
end

/-! ## ENCODE by its case table (45_stream_commands R239, R241) -/

section
namespace Sys2Proof.Machine

/-- The data bookkeeping of `encode_data` apart from its bits: the match table, the checksum and the length
(44_block_encoder R216, R217). -/
def Run.recordData (r : Run) : Run :=
  { r with st := { r.st with
      mtab := (sessionEvents r.st).2
      checksum := sessionChecksum r.st.format r.st.tbl.crc r.st.checksum (inputBytes r.st)
      totalIn := r.st.totalIn + r.st.inLen } }

theorem encodeData_eq_recordData (r : Run) : encodeData r = (r.emit (dataPushes r.st)).recordData := rfl

theorem Run.emit_recordData (r : Run) (ps : List Push) : r.recordData.emit ps = (r.emit ps).recordData := rfl

theorem Run.emit_setPhase (r : Run) (p : Phase) (ps : List Push) :
    (r.setPhase p).emit ps = (r.emit ps).setPhase p := rfl

theorem Run.recordData_setPhase (r : Run) (p : Phase) : (r.setPhase p).recordData = r.recordData.setPhase p := rfl

theorem Run.setPhase_setPhase (r : Run) (p q : Phase) : (r.setPhase p).setPhase q = r.setPhase q := rfl

theorem Run.setPhase_self {r : Run} {p : Phase} (h : r.st.phase = p) : r.setPhase p = r := by subst h; rfl

theorem openBlock_opens {more : Bool} {r : Run} (hb : r.st.phase.beforeBlock = true)
    (hn : 0 < r.st.inLen.toNat ∨ more = false) :
    openBlock more r = ((r.outBytes (if r.st.phase = .init then envelopeHeader r.st.format else [])).emit
      (blockHeader (!more))).setPhase (if more then .inBlock else .lastSent) := by
  have hopen : (r.st.phase.beforeBlock && (decide (0 < r.st.inLen.toNat) || !more)) = true := by simpa [hb] using hn
  rw [openBlock, if_pos hopen]
  by_cases hp : r.st.phase = .init
  · simp only [if_pos hp]
  · simp only [if_neg hp]
    rw [show r.outBytes [] = r by simp [Run.outBytes]]

theorem openBlock_inBlock {r : Run} (more : Bool) (hp : r.st.phase = .inBlock) : openBlock more r = r := by
  simp [openBlock, hp, Phase.beforeBlock]

theorem sendData_blockOpen {r : Run} (h : r.st.phase.blockOpen = true) : sendData r = encodeData r := if_pos h

theorem closeBlocks_more (r : Run) : closeBlocks true r = r := rfl

theorem closeBlocks_lastSent {r : Run} (hp : r.st.phase = .lastSent) :
    closeBlocks false r = (r.emit (eobPushes r.st.tbl)).setPhase .trailerPending := by
  simp [closeBlocks, hp]

theorem closeBlocks_inBlock {r : Run} (hp : r.st.phase = .inBlock) :
    closeBlocks false r =
      (r.emit (eobPushes r.st.tbl ++ blockHeader true ++ eobPushes r.st.tbl)).setPhase .trailerPending := by
  simp [closeBlocks, hp, reopenFinal, Run.emit_setPhase, Run.setPhase_setPhase, Run.emit_emit]

/-- The command in progress that has written `header`, made `pushes` and recorded the data, and reached `exit`. -/
def sentRun (s : State) (header : List Byte) (pushes : List Push) (exit : Phase) : Run :=
  (((Run.start s).outBytes header).emit pushes).recordData.setPhase exit

section
variable (s : State) (header : List Byte) (pushes : List Push) (exit : Phase)

@[simp] theorem sentRun_out :
    (sentRun s header pushes exit).out = header ++ (pushAll (Run.start s).packer pushes).1 := rfl
@[simp] theorem sentRun_phase : (sentRun s header pushes exit).st.phase = exit := rfl
@[simp] theorem sentRun_pend :
    (sentRun s header pushes exit).st.pend = (pushAll (Run.start s).packer pushes).2.pend := rfl
@[simp] theorem sentRun_cnt :
    (sentRun s header pushes exit).st.cnt = BitVec.ofNat 3 (pushAll (Run.start s).packer pushes).2.cnt := rfl

end

/-- What ENCODE writes ahead of a block it opens: the envelope header in phase INIT (45_stream_commands R239). -/
def openingHeader (s : State) : List Byte := if s.phase = .init then envelopeHeader s.format else []

theorem encodeRun_idle {s : State} (hb : s.phase.beforeBlock = true) (hn : s.inLen.toNat = 0) :
    encodeRun true s = Run.start s := by
  have hc : s.phase.blockOpen = false := by revert hb; cases s.phase <;> decide
  simp [encodeRun, openBlock, sendData, closeBlocks_more, hn, hc]

theorem encodeRun_opens_more {s : State} (hb : s.phase.beforeBlock = true) (hn : 0 < s.inLen.toNat) :
    encodeRun true s = sentRun s (openingHeader s) (blockHeader false ++ dataPushes s) .inBlock := by
  rw [encodeRun, openBlock_opens hb (.inl hn), sendData_blockOpen rfl, closeBlocks_more, encodeData_eq_recordData,
    Run.emit_setPhase, Run.emit_emit, Run.recordData_setPhase]
  rfl

theorem encodeRun_opens_last {s : State} (hb : s.phase.beforeBlock = true) :
    encodeRun false s =
      sentRun s (openingHeader s) (blockHeader true ++ dataPushes s ++ eobPushes s.tbl) .trailerPending := by
  rw [encodeRun, openBlock_opens hb (.inr rfl), sendData_blockOpen rfl, encodeData_eq_recordData,
    closeBlocks_lastSent rfl, Run.emit_recordData, Run.emit_setPhase, Run.emit_setPhase, Run.emit_emit, Run.emit_emit,
    Run.recordData_setPhase, Run.setPhase_setPhase]
  rfl

theorem encodeRun_inBlock_more {s : State} (hp : s.phase = .inBlock) :
    encodeRun true s = sentRun s [] (dataPushes s) .inBlock := by
  rw [encodeRun, openBlock_inBlock true hp, sendData_blockOpen (congrArg Phase.blockOpen hp), closeBlocks_more]
  exact (@Run.setPhase_self (encodeData (Run.start s)) _ hp).symm

theorem encodeRun_inBlock_last {s : State} (hp : s.phase = .inBlock) :
    encodeRun false s = sentRun s [] (dataPushes s ++ (eobPushes s.tbl ++ blockHeader true ++ eobPushes s.tbl))
      .trailerPending := by
  rw [encodeRun, openBlock_inBlock false hp, sendData_blockOpen (congrArg Phase.blockOpen hp), encodeData_eq_recordData,
    closeBlocks_inBlock hp, Run.emit_recordData, Run.emit_emit]
  rfl

/-- The rows of the case table (45_stream_commands R241) for an input that opens no block. -/
theorem encodeTable_idle {p : Phase} (hb : p.beforeBlock = true) : encodeItems p 0 true = [] := by
  revert hb
  cases p <;> simp [Phase.beforeBlock, encodeItems]

/-- The rows for the first input of a block that stays open. -/
theorem encodeTable_opens_more {p : Phase} {n : Nat} (hb : p.beforeBlock = true) (hn : 0 < n) :
    encodeItems p n true = [.blockStart false, .data] ∧ encodeExit p n true = .inBlock := by
  obtain ⟨k, rfl⟩ := Nat.exists_eq_add_one.mpr hn
  revert hb
  cases p <;> simp [Phase.beforeBlock, encodeItems, encodeExit]

/-- The rows for an input that opens and closes the final block. -/
theorem encodeTable_opens_last {p : Phase} (n : Nat) (hb : p.beforeBlock = true) :
    encodeItems p n false = [.blockStart true, .data, .endOfBlock] ∧ encodeExit p n false = .trailerPending := by
  revert hb
  cases p <;> simp [Phase.beforeBlock, encodeItems, encodeExit]

/-- A legal ENCODE by the case table of 45_stream_commands R241: where the row has no item it does nothing, else it
sends the row's items and reaches the row's phase. -/
theorem encodeRun_eq (more : Bool) {s : State} (hp : s.phase.allowsEncode = true) :
    encodeRun more s =
      if encodeItems s.phase s.inLen.toNat more = [] then Run.start s
      else sentRun s (openingHeader s) ((encodeItems s.phase s.inLen.toNat more).flatMap (itemPushes s))
        (encodeExit s.phase s.inLen.toNat more) := by
  by_cases hphase : s.phase = .inBlock
  · have hh : openingHeader s = [] := by simp [openingHeader, hphase]
    cases more with
    | true => rw [encodeRun_inBlock_more hphase]; simp [hh, hphase, encodeItems, encodeExit, itemPushes]
    | false => rw [encodeRun_inBlock_last hphase]; simp [hh, hphase, encodeItems, encodeExit, itemPushes]
  have hb : s.phase.beforeBlock = true := by revert hp hphase; cases s.phase <;> decide
  cases more with
  | true =>
    obtain hn | hn := Nat.eq_zero_or_pos s.inLen.toNat
    · rw [encodeRun_idle hb hn, hn, encodeTable_idle hb, if_pos rfl]
    · obtain ⟨hi, he⟩ := encodeTable_opens_more hb hn
      rw [encodeRun_opens_more hb hn, hi, he]
      simp [itemPushes]
  | false =>
    obtain ⟨hi, he⟩ := encodeTable_opens_last s.inLen.toNat hb
    rw [encodeRun_opens_last hb, hi, he]
    simp [itemPushes]

/-- A row with an item leaves the phase with a block open or the trailer to come. -/
theorem encodeExit_of_sends {p : Phase} {n : Nat} {more : Bool} (h : encodeItems p n more ≠ []) :
    encodeExit p n more = .inBlock ∨ encodeExit p n more = .trailerPending := by
  revert h
  cases p <;> cases more <;> cases n <;> simp [encodeItems, encodeExit]

/-- What a stream command changes of the state before its output is stored: parts of the descriptor and the match
table. -/
theorem StreamRun.frame {s : State} {i : Instr} {r : Run} (h : StreamRun s i r) :
    r.st = { s with
      phase := r.st.phase, pend := r.st.pend, cnt := r.st.cnt, checksum := r.st.checksum, totalIn := r.st.totalIn,
      mtab := r.st.mtab } := by
  cases h with
  | header hp => rfl
  | finish hp => rfl
  | encode more ht hp =>
    rw [encodeRun_eq _ hp]
    split <;> rfl

end Sys2Proof.Machine
end

/-! ## The pushes of an ENCODE meet the packer's premise (43_bit_packer R201) -/

section
namespace Sys2Proof.Machine

/-- The finder's loop sends only lengths and distances of the format (42_match_finder R180). -/
theorem findLoop_inRange (hash : Byte → Byte → Byte → SlotIndex) (input : List Byte) (fuel : Nat) {pos : Nat} {m : Mtab}
    (hm : m.below pos) : ∀ e ∈ (findLoop hash input fuel pos m).1, e.inRange = true := by
  induction fuel generalizing pos m with
  | zero => simp [findLoop]
  | succ fuel ih =>
    unfold findLoop
    split
    · obtain ⟨hbelow, hfound⟩ := @find_spec hash input pos m hm
      refine List.forall_mem_cons.mpr ⟨?_, ih hbelow⟩
      obtain he | ⟨length, c, he, hc, hw, hmin, hmax, -, -⟩ := hfound
      · rw [he]; rfl
      · rw [he]
        simp only [Event.inRange, Bool.and_eq_true, decide_eq_true_eq]
        exact ⟨⟨⟨hmin, hmax⟩, Nat.sub_pos_of_lt hc⟩, hw⟩
    · simp

/-- So does the whole search of one command's input, at either level. -/
theorem findEvents_inRange (hash : Byte → Byte → Byte → SlotIndex) (compEn : Bool) (input : List Byte) :
    ∀ e ∈ (findEvents hash compEn input).1, e.inRange = true := by
  unfold findEvents
  split
  · exact findLoop_inRange hash input _ (Mtab.below_cleared 0)
  · exact List.forall_mem_map.mpr fun _ _ => rfl

/-- With the tables filled, every push of every item of an ENCODE meets the packer's premise (43_bit_packer R201). -/
theorem itemPushes_fit {s : State} (ht : s.tbl = Tables.contents) (item : StreamItem) :
    ∀ x ∈ itemPushes s item, x.fits = true := by
  cases item with
  | blockStart final => exact blockHeader_fit final
  | data =>
    intro x hx
    obtain ⟨e, he, hxe⟩ := List.mem_flatMap.mp hx
    exact eventPushes_fit (findEvents_inRange _ _ _ e he) x (ht ▸ hxe)
  | endOfBlock => exact fun x hx => eobPushes_fit x (ht ▸ hx)

end Sys2Proof.Machine
end

/-! ## Adler-32 sub-sums stay reduced (00_scope R16) -/

section
namespace Sys2Proof.Machine

/-- The halves of a word are its digits in base 65536 (41_checksum R162). -/
theorem adlerHalves_of_toNat {v : Word} {a b : Nat} (ha : a < 65536) (h : v.toNat = b * 65536 + a) :
    adlerHalves v = (a, b) := by
  have hv := v.isLt
  have hlow : (v.extractLsb' 0 16).toNat = a := by
    rw [BitVec.extractLsb'_toNat, h, Nat.shiftRight_zero]
    omega
  have hhigh : (v.extractLsb' 16 16).toNat = b := by
    rw [BitVec.extractLsb'_toNat, h, Nat.shiftRight_eq_div_pow]
    omega
  rw [adlerHalves, hlow, hhigh]

/-- The halves of a packed pair of sub-sums are the sub-sums. -/
theorem adlerHalves_adlerPack {ab : Nat × Nat} (ha : ab.1 < 65536) (hb : ab.2 < 65536) :
    adlerHalves (adlerPack ab) = ab := by
  refine adlerHalves_of_toNat ha ?_
  rw [adlerPack, BitVec.toNat_ofNat]
  omega

/-- Both sub-sums are below the modulus (00_scope R16). -/
def AdlerReduced (ab : Nat × Nat) : Prop := ab.1 < adlerMod ∧ ab.2 < adlerMod

theorem adlerStep_reduced (ab : Nat × Nat) (b : Byte) : AdlerReduced (adlerStep ab b) :=
  ⟨Nat.mod_lt _ (by decide), Nat.mod_lt _ (by decide)⟩

theorem foldl_adlerStep_reduced {ab : Nat × Nat} (h : AdlerReduced ab) (bytes : List Byte) :
    AdlerReduced (bytes.foldl adlerStep ab) := by
  induction bytes generalizing ab with
  | nil => exact h
  | cons b bytes ih => exact ih (adlerStep_reduced ab b)

theorem AdlerReduced.lt_65536 {ab : Nat × Nat} (h : AdlerReduced ab) : ab.1 < 65536 ∧ ab.2 < 65536 :=
  ⟨h.1.trans (by decide), h.2.trans (by decide)⟩

theorem adler32Update_reduced {v : Word} (h : AdlerReduced (adlerHalves v)) (bytes : List Byte) :
    AdlerReduced (adlerHalves (adler32Update v bytes)) := by
  have hfold := foldl_adlerStep_reduced h bytes
  rwa [adler32Update, adlerHalves_adlerPack hfold.lt_65536.1 hfold.lt_65536.2]

theorem sessionChecksum_zlib_reduced {f : Format} {v : Word} (hf : f = .zlib) (h : AdlerReduced (adlerHalves v))
    (table : List Word) (bytes : List Byte) : AdlerReduced (adlerHalves (sessionChecksum f table v bytes)) := by
  subst hf
  exact adler32Update_reduced h bytes

end Sys2Proof.Machine
end

/-! ## The invariant of every step (10_state R29, R32) -/

section
namespace Sys2Proof.Machine

/-- Settles O48, property by property on the reset values. -/
theorem resetIsSound : Obligations.ResetIsSound := by
  unfold Obligations.ResetIsSound
  constructor <;> decide

section
variable {s : State}

theorem raiseViolation_sound (hs : s.Sound) (code : Completion) : (raiseViolation code s).Sound :=
  { hs with failureSticks := fun _ => rfl }

theorem complete_sound (hs : s.Sound) (v : Word) : (complete v s).Sound :=
  { hs with failureSticks := fun h => absurd rfl h }

/-- Output of at most OUT_CAP bytes stays inside the index space of OBUF (20_memory R64). -/
theorem storeFrom_outCap_wf (hs : s.Sound) {bytes : List Byte} (h : bytes.length ≤ s.outCap.toNat) :
    (s.obuf.storeFrom 0 bytes).wf = true := by
  have hcap : s.outCap.toNat < Config.indexSpace := s.outCap.isLt
  exact Memory.wf_storeFrom bytes hs.obufWf 0 (by omega)

theorem finished_sound {r : Run} (hs : r.st.Sound) (h : r.out.length ≤ r.st.outCap.toNat) : r.finished.Sound := by
  have hstored : { r.st with obuf := r.st.obuf.storeFrom 0 r.out }.Sound :=
    { hs with obufWf := storeFrom_outCap_wf hs h }
  exact complete_sound hstored _

theorem fillTables_sound (hs : s.Sound) : (fillTables s).Sound := by
  cases ht : s.tablesReady with
  | true => rwa [fillTables_ready ht]
  | false =>
    rw [fillTables_fresh ht]
    exact { hs with tablesFilled := fun _ => rfl, openNeedsTables := fun _ => rfl }

theorem startSession_sound (hs : s.Sound) (f : Format) (compEn : Bool) : (startSession f compEn s).Sound :=
  { hs with
    mtabWf := Mtab.wf_cleared
    pendFits := Nat.one_pos
    notLastSent := by simp
    openNeedsTables := by simp
    aligned := fun _ => rfl
    fresh := fun _ => ⟨rfl, rfl, rfl⟩
    adlerReduced := fun hf => by
      rw [startSession_checksum, show f = .zlib from hf]
      decide }

/-- SEND_HEADER changes the phase only, and the session is still fresh (45_stream_commands R238). -/
theorem headerRun_sound (hs : s.Sound) (hp : s.phase = .init) : (headerRun s).st.Sound :=
  { hs with
    notLastSent := by simp [headerRun]
    openNeedsTables := by simp [headerRun]
    aligned := fun _ => hs.aligned (.inl hp)
    fresh := fun _ => hs.fresh (.inl hp) }

/-- FINISH leaves no bit pending (45_stream_commands R240). -/
theorem finishRun_sound (hs : s.Sound) : (finishRun s).st.Sound :=
  { hs with
    pendFits := Nat.one_pos
    notLastSent := by simp [finishRun]
    openNeedsTables := by simp [finishRun]
    aligned := fun _ => rfl
    fresh := by simp [finishRun] }

/-- The pending bits of a sound state meet the packer's entry condition (43_bit_packer R200). -/
theorem start_packer_fits (hs : s.Sound) : (Run.start s).packer.fits = true :=
  (Packer.fits_iff _).mpr ⟨Run.packer_cnt_le _, hs.pendFits⟩

/-- A packer's pending bits, stored in the descriptor, meet 10_state R29. -/
theorem pendFits_of_fits {p : Packer} (h : p.fits = true) : p.pend.toNat < 2 ^ (BitVec.ofNat 3 p.cnt).toNat := by
  obtain ⟨hcnt, hpend⟩ := (Packer.fits_iff p).mp h
  rwa [BitVec.toNat_ofNat, Nat.mod_eq_of_lt (by omega)]

/-- Pushes that meet the packer's premise, sent with the tables filled, leave a block open or the trailer to come, where
the invariant asks nothing of alignment and freshness. -/
theorem sentRun_sound (hs : s.Sound) (ht : s.tablesReady = true) (header : List Byte) {pushes : List Push}
    (hfit : ∀ x ∈ pushes, x.fits = true) {exit : Phase} (he : exit = .inBlock ∨ exit = .trailerPending) :
    (sentRun s header pushes exit).st.Sound :=
  { hs with
    mtabWf := wf_findEvents _ _ _
    pendFits := pendFits_of_fits (pushAll_fits (start_packer_fits hs) hfit)
    notLastSent := by rcases he with rfl | rfl <;> simp
    openNeedsTables := fun _ => ht
    aligned := by rcases he with rfl | rfl <;> simp
    fresh := by rcases he with rfl | rfl <;> simp
    adlerReduced := fun hf => sessionChecksum_zlib_reduced hf (hs.adlerReduced hf) _ _ }

theorem encodeRun_sound (hs : s.Sound) (more : Bool) (ht : s.tablesReady = true) (hp : s.phase.allowsEncode = true) :
    (encodeRun more s).st.Sound := by
  rw [encodeRun_eq more hp]
  split
  · exact hs
  · have hfit : ∀ x ∈ (encodeItems s.phase s.inLen.toNat more).flatMap (itemPushes s), x.fits = true := by
      intro x hx
      obtain ⟨item, -, hxi⟩ := List.mem_flatMap.mp hx
      exact itemPushes_fit (hs.tablesFilled ht) item x hxi
    exact sentRun_sound hs ht _ hfit (encodeExit_of_sends ‹_›)

theorem StreamRun.sound {i : Instr} {r : Run} (h : StreamRun s i r) (hs : s.Sound) : r.st.Sound := by
  cases h with
  | header hp => exact headerRun_sound hs hp
  | finish hp => exact finishRun_sound hs
  | encode more ht hp => exact encodeRun_sound hs _ ht hp

/-- Every command keeps the invariant, whatever it answers. -/
theorem exec_keeps_sound {t : State} {i : Instr} (hs : s.Sound) (h : exec i s = .next t) : t.Sound := by
  cases exec_cases h with
  | violation i code hc => exact raiseViolation_sound hs code
  | tblinit => exact complete_sound (fillTables_sound hs) _
  | init level fmt f hf => exact complete_sound (startSession_sound hs f _) _
  | crc32Byte b ht => exact complete_sound hs _
  | crc32Block ht => exact complete_sound hs _
  | adler32Byte b ht => exact complete_sound hs _
  | adler32Block ht => exact complete_sound hs _
  | stream i r hr hfit => exact finished_sound (hr.sound hs) hfit

theorem hardwareReset_sound (hs : s.Sound) : (hardwareReset s).Sound :=
  { resetIsSound with ibufWf := hs.ibufWf, obufWf := hs.obufWf }

theorem writeReg_sound (hs : s.Sound) (r : Reg) (v : Word) : (writeReg s r v).Sound := by
  cases r <;> exact { hs with }

end

/-- Settles O49, by the cases of a step: only commands, bindings and resets touch what the invariant speaks of. -/
theorem stepKeepsSound : Obligations.StepKeepsSound := by
  unfold Obligations.StepKeepsSound
  intro s t hs h
  have hrest (rest : List HostAction) : { s with script := rest }.Sound := { hs with }
  cases step_cases h with
  | wait _ => exact hs
  | command w i rest u hw hscript hu => exact { exec_keeps_sound (hrest rest) hu with }
  | illegal w e rest hw hscript => exact { raiseViolation_sound (hrest rest) .illegal with }
  | write o r v rest hscript hr hne => exact writeReg_sound (hrest rest) r v
  | read o r rest hscript hr => exact { hs with }
  | bindInput bytes rest hscript => exact { hs with ibufWf := Memory.wf_ofBytes bytes }
  | bindOutput bytes rest hscript => exact { hs with obufWf := Memory.wf_ofBytes bytes }
  | reset rest hscript => exact hardwareReset_sound (hrest rest)
  | resetDuring w rest hscript n hn =>
    exact { hardwareReset_sound hs with obufWf := storeFrom_outCap_wf hs (by simpa using hn) }

end Sys2Proof.Machine
end

/-! ## What no command touches (10_state R23, R25, R27, R28) -/

section
namespace Sys2Proof.Machine

/-- What every command but INIT and the first TBLINIT leaves as it was: the operand registers, the input, HASH3, the
host's fields, the tables, and the session's format and level; `viol` is not cleared. -/
structure CommandKeeps (s t : State) : Prop where
  inLen : t.inLen = s.inLen
  outCap : t.outCap = s.outCap
  seed : t.seed = s.seed
  ibuf : t.ibuf = s.ibuf
  hashTable : t.hashTable = s.hashTable
  script : t.script = s.script
  observed : t.observed = s.observed
  cutOffs : t.cutOffs = s.cutOffs
  viol : s.viol = true → t.viol = true
  tablesReady : t.tablesReady = s.tablesReady
  tbl : t.tbl = s.tbl
  format : t.format = s.format
  compEn : t.compEn = s.compEn

theorem raiseViolation_keeps (code : Completion) (s : State) : CommandKeeps s (raiseViolation code s) := by
  constructor <;> simp

theorem complete_keeps (v : Word) (s : State) : CommandKeeps s (complete v s) := by
  constructor <;> simp

theorem StreamRun.keeps {s : State} {i : Instr} {r : Run} (hr : StreamRun s i r) : CommandKeeps s r.finished := by
  rw [Run.finished, hr.frame]
  constructor <;> simp

/-- The two commands that touch more than that are INIT and the first TBLINIT. -/
theorem exec_keeps_or {i : Instr} {s t : State} (h : exec i s = .next t) :
    CommandKeeps s t ∨
    (i = .tblinit ∧ s.tablesReady = false ∧
      t = complete 0#32 { s with tbl := Tables.contents, tablesReady := true }) ∨
    ∃ level fmt f, i = .init level fmt ∧ t = complete 0#32 (startSession f (levelEnables level) s) := by
  cases exec_cases h with
  | violation i code hc => exact .inl (raiseViolation_keeps code s)
  | tblinit =>
    cases ht : s.tablesReady with
    | true =>
      rw [fillTables_ready ht]
      exact .inl (complete_keeps _ s)
    | false =>
      rw [fillTables_fresh ht]
      exact .inr (.inl ⟨rfl, rfl, rfl⟩)
  | init level fmt f hf => exact .inr (.inr ⟨level, fmt, f, rfl, rfl⟩)
  | crc32Byte b ht => exact .inl (complete_keeps _ s)
  | crc32Block ht => exact .inl (complete_keeps _ s)
  | adler32Byte b ht => exact .inl (complete_keeps _ s)
  | adler32Block ht => exact .inl (complete_keeps _ s)
  | stream i r hr hfit => exact .inl hr.keeps

/-- Settles O44, by what a command keeps, with TBLINIT and INIT apart. -/
theorem commandFrame : Obligations.CommandFrame := by
  unfold Obligations.CommandFrame
  intro i s t h
  obtain hk | ⟨rfl, ht, rfl⟩ | ⟨level, fmt, f, rfl, rfl⟩ := exec_keeps_or h
  · exact ⟨hk.inLen, hk.outCap, hk.seed, hk.ibuf, hk.hashTable, hk.script, hk.observed, hk.cutOffs, hk.viol,
      hk.tablesReady.trans, fun _ => hk.tablesReady, fun _ => hk.tbl, fun _ => ⟨hk.format, hk.compEn⟩⟩
  · simp [ht]
  · simp

end Sys2Proof.Machine
end

/-! ## What ENCODE reads (10_state R37) -/

section
namespace Sys2Proof.Machine

theorem exec_encode_legal {s : State} (more : BitVec 1) (ht : s.tablesReady = true)
    (hp : s.phase.allowsEncode = true) : exec (.encode more) s = (encodeRun (moreFollows more) s).finish := by
  simp [exec, execEncode, ht, hp, encodeRun]

theorem exec_encode_refused {s : State} (more : BitVec 1) (ht : s.tablesReady = true)
    (hp : s.phase.allowsEncode = false) : exec (.encode more) s = .next (raiseViolation .phase s) := by
  simp [exec, execEncode, ht, hp]

/-- What an ENCODE that completes ends with (45_stream_commands R239). -/
theorem exec_encode_completed {s t : State} {more : BitVec 1} (ht : s.tablesReady = true)
    (h : exec (.encode more) s = .next t) (hcc : t.cc = .ok) :
    s.phase.allowsEncode = true ∧ (encodeRun (moreFollows more) s).finish = .next t := by
  cases hp : s.phase.allowsEncode with
  | true => exact ⟨rfl, exec_encode_legal more ht hp ▸ h⟩
  | false =>
    rw [exec_encode_refused more ht hp] at h
    injection h with h
    subst h
    cases hcc

/-- The bytes a completed stream command leaves for the host are those it wrote (70_reset_and_hazards R300). -/
theorem outputOf_finished {r : Run} (h : r.out.length ≤ r.st.outCap.toNat) : outputOf r.finished = r.out := by
  rw [outputOf, Run.finished_result h]
  exact Memory.firstBytes_storeFrom _ _

/-- Two states agree on all that 10_state R37 lets ENCODE read. -/
structure SameEncodeInputs (s1 s2 : State) : Prop where
  phase : s1.phase = s2.phase
  compEn : s1.compEn = s2.compEn
  format : s1.format = s2.format
  pend : s1.pend = s2.pend
  cnt : s1.cnt = s2.cnt
  inLen : s1.inLen = s2.inLen
  input : inputBytes s1 = inputBytes s2
  hashTable : s1.hashTable = s2.hashTable
  tbl : s1.tbl = s2.tbl

namespace SameEncodeInputs

variable {s1 s2 : State}

theorem itemPushes_eq (h : SameEncodeInputs s1 s2) : itemPushes s1 = itemPushes s2 := by
  funext item
  cases item with
  | blockStart final => rfl
  | data => simp only [itemPushes, dataPushes, sessionEvents, h.hashTable, h.compEn, h.input, h.tbl]
  | endOfBlock => simp only [itemPushes, h.tbl]

theorem openingHeader_eq (h : SameEncodeInputs s1 s2) : openingHeader s1 = openingHeader s2 := by
  simp only [openingHeader, h.phase, h.format]

theorem packer_eq (h : SameEncodeInputs s1 s2) : (Run.start s1).packer = (Run.start s2).packer := by
  simp only [Run.packer, Run.start_st, h.pend, h.cnt]

/-- ENCODE writes the same bytes in both states, and leaves the same phase and pending bits. -/
theorem encodeRun_output_eq (h : SameEncodeInputs s1 s2) (more : Bool) (hp : s1.phase.allowsEncode = true) :
    (encodeRun more s1).out = (encodeRun more s2).out ∧ (encodeRun more s1).st.phase = (encodeRun more s2).st.phase ∧
      (encodeRun more s1).st.pend = (encodeRun more s2).st.pend ∧
      (encodeRun more s1).st.cnt = (encodeRun more s2).st.cnt := by
  have hp2 : s2.phase.allowsEncode = true := h.phase ▸ hp
  rw [encodeRun_eq more hp, encodeRun_eq more hp2, ← h.phase, ← h.inLen]
  split
  · exact ⟨rfl, h.phase, h.pend, h.cnt⟩
  · simp only [sentRun_out, sentRun_phase, sentRun_pend, sentRun_cnt, h.itemPushes_eq, h.openingHeader_eq, h.packer_eq,
      and_self]

end SameEncodeInputs

/-- Settles O50: a sound state whose tables are ready has the one filled TBL, so agreement on the inputs is enough. -/
theorem encodeOutputDependsOnlyOnItsInputs : Obligations.EncodeOutputDependsOnlyOnItsInputs := by
  unfold Obligations.EncodeOutputDependsOnlyOnItsInputs
  intro s1 s2 t1 t2 more hs1 hs2 hr1 hr2 hphase hcompEn hformat hpend hcnt hinLen hinput hhash h1 h2 hcc
  have hsame : SameEncodeInputs s1 s2 := ⟨hphase, hcompEn, hformat, hpend, hcnt, hinLen, hinput, hhash,
    (hs1.tablesFilled hr1).trans (hs2.tablesFilled hr2).symm⟩
  obtain ⟨hp, hrun1⟩ := exec_encode_completed hr1 h1 hcc
  rw [exec_encode_legal more hr2 (hphase ▸ hp)] at h2
  obtain ⟨hfit1, rfl⟩ := Run.finish_next hrun1
  obtain ⟨hfit2, rfl⟩ := Run.finish_next h2
  obtain ⟨hout, hphase', hpend', hcnt'⟩ := hsame.encodeRun_output_eq (moreFollows more) hp
  have hresult :
      (encodeRun (moreFollows more) s1).finished.result = (encodeRun (moreFollows more) s2).finished.result := by
    simp only [Run.finished, complete_result, hout]
  rw [outputOf_finished hfit1, outputOf_finished hfit2]
  exact ⟨rfl, hresult, hout, hphase', hpend', hcnt'⟩

end Sys2Proof.Machine
end

/-! ## A step by the host action it takes (10_state R21, R22) -/

section
namespace Sys2Proof.Machine

theorem step_writeCmd {s : State} {w : Word} {rest : List HostAction} (hs : s.script = .write 0x00#8 w :: rest) :
    step s = launch w { s with script := rest } := by
  rw [step, takeNext, hs]
  rfl

theorem runWord_of_decode {w : Word} {i : Instr} (hw : decode w = .ok i) (s : State) : runWord w s = exec i s := by
  rw [runWord, hw]

/-- Settles O5: the action is a write of CMD, and the word's command decides the outcome. -/
theorem stepRunsTheDecodedCommand : Obligations.StepRunsTheDecodedCommand := by
  unfold Obligations.StepRunsTheDecodedCommand
  intro s w rest i hs hw
  rw [step_writeCmd hs, launch, runWord_of_decode hw]
  cases exec i { s with script := rest } <;> rfl

theorem decode_of_decodeTableWord {n w : Nat} {i : Instr} (h : decodeTableWord n w = some i) :
    decode (BitVec.ofNat 32 (w % 2 ^ n)) = .ok i := by
  unfold decodeTableWord at h
  split at h
  · rename_i j hj
    rwa [← Option.some.inj h]
  · cases h

/-- Settles O6, by O5: with the word's write taken off again, the state is the one it was put in front of. -/
theorem fetchedWordIsTheNextCommand : Obligations.FetchedWordIsTheNextCommand := by
  unfold Obligations.FetchedWordIsTheNextCommand
  intro s n w i h
  exact stepRunsTheDecodedCommand (s.withFetchWord n w) _ s.script i rfl (decode_of_decodeTableWord h)

theorem step_read (r : Reg) {o : BitVec 8} (h : regAt o = some r) (s : State) (rest : List HostAction) :
    step { s with script := .read o :: rest }
      = .next { s with script := rest, observed := s.observed ++ [.value (readReg s r)] } := by
  simp only [step, takeNext, takeAction, h]
  cases r <;> rfl

theorem step_write (r : Reg) {o : BitVec 8} (h : regAt o = some r) (hr : r ≠ .cmd) (s : State) (v : Word)
    (rest : List HostAction) :
    step { s with script := .write o v :: rest } = .next (writeReg { s with script := rest } r v) := by
  simp only [step, takeNext, takeAction, h, if_neg hr]

/-- The reserved offsets are the aligned ones from 0x24 on (10_state R21). -/
theorem regAt_reserved {o : BitVec 8} (ha : o.extractLsb' 0 2 = 0#2) (ho : 0x24 ≤ o.toNat) :
    regAt o = some .reserved := by
  revert o
  decide

/-- Settles O7, by the register at each offset. -/
theorem registerFileReadsAndWrites : Obligations.RegisterFileReadsAndWrites := by
  unfold Obligations.RegisterFileReadsAndWrites
  intro s rest v
  have hread (r : Reg) {o : BitVec 8} (h : regAt o = some r) := step_read r h s rest
  have hwrite (r : Reg) {o : BitVec 8} (h : regAt o = some r) (hr : r ≠ .cmd) := step_write r h hr s v rest
  refine ⟨?_, fun o ha ho => ?_, hwrite .inLen rfl (by decide), hwrite .outCap rfl (by decide),
    hwrite .seed rfl (by decide), ?_⟩
  · simp only [List.forall_mem_cons]
    exact ⟨hread .cmd rfl, hread .inLen rfl, hread .outCap rfl, hread .seed rfl, hread .result rfl, hread .status rfl,
      hread .checksum rfl, hread .totalIn rfl, hread .pend rfl, by simp⟩
  · have hr := regAt_reserved ha ho
    exact ⟨hread .reserved hr, hwrite .reserved hr (by decide)⟩
  · simp only [List.forall_mem_cons]
    exact ⟨hwrite .result rfl (by decide), hwrite .status rfl (by decide), hwrite .checksum rfl (by decide),
      hwrite .totalIn rfl (by decide), hwrite .pend rfl (by decide), by simp⟩

end Sys2Proof.Machine
end

/-! ## STATUS and the reset values (10_state R33, R40) -/

section
namespace Sys2Proof.Machine

/-- Seven fields of the widths of STATUS below 17 zeros: each is cut out again at its own position. -/
theorem extractLsb'_statusFields (zeros : BitVec 17) (cnt : BitVec 3) (cc : BitVec 4) (viol ready : BitVec 1)
    (format : BitVec 2) (compEn : BitVec 1) (phase : BitVec 3) :
    let word := zeros ++ cnt ++ cc ++ viol ++ ready ++ format ++ compEn ++ phase
    word.extractLsb' 0 3 = phase ∧ word.extractLsb' 3 1 = compEn ∧ word.extractLsb' 4 2 = format ∧
      word.extractLsb' 6 1 = ready ∧ word.extractLsb' 7 1 = viol ∧ word.extractLsb' 8 4 = cc ∧
      word.extractLsb' 12 3 = cnt ∧ word.extractLsb' 15 17 = zeros := by
  intro word
  simp (disch := decide) only [word, BitVec.extractLsb'_append_eq_of_le, BitVec.extractLsb'_append_eq_right,
    BitVec.extractLsb'_eq_self, Nat.reduceSub, -Nat.reduceAdd, and_self]

/-- Settles O8, by the position of each field. -/
theorem statusLayout : Obligations.StatusLayout := by
  unfold Obligations.StatusLayout
  exact ⟨fun s => extractLsb'_statusFields 0#17 s.cnt _ _ _ _ _ _, writeReg_status, rfl⟩

/-- Settles O10, value by value. -/
theorem resetValues : Obligations.ResetValues := by
  unfold Obligations.ResetValues
  exact ⟨rfl, rfl, rfl, rfl, rfl, rfl, rfl, rfl, rfl, rfl, rfl, rfl, rfl, rfl, Mtab.slot_cleared, rfl⟩

end Sys2Proof.Machine
end

/-! ## Binding a buffer (20_memory R61, R62) -/

section
namespace Sys2Proof.Machine

/-- Bound bytes are read back at their indices, and every index past them reads as one nothing was bound to. -/
theorem Memory.read_ofBytes {bytes : List Byte} (h : bytes.length ≤ Config.indexSpace) (i : Nat) :
    (Memory.ofBytes bytes).read i = bytes.getD i 0#8 := by
  rw [Memory.ofBytes, List.take_of_length_le h]
  simpa using Memory.read_cellsFrom bytes 0 i

/-- Settles O9: each binding puts `Memory.ofBytes` in place of its own buffer. -/
theorem boundBuffersHoldTheirBytes : Obligations.BoundBuffersHoldTheirBytes := by
  unfold Obligations.BoundBuffersHoldTheirBytes
  intro s rest bytes h
  have hmem := And.intro (Memory.wf_ofBytes bytes) (Memory.read_ofBytes h)
  exact ⟨⟨Memory.ofBytes bytes, rfl, hmem⟩, ⟨Memory.ofBytes bytes, rfl, hmem⟩⟩

end Sys2Proof.Machine
end

/-! ## The frame of memory (20_memory R60, R63, R64; 60_exceptions R266) -/

section
namespace Sys2Proof.Machine

theorem fillTables_obuf (s : State) : (fillTables s).obuf = s.obuf := by
  cases ht : s.tablesReady with
  | true => rw [fillTables_ready ht]
  | false => rw [fillTables_fresh ht]

/-- OBUF is another one only after a stream command that completed. -/
theorem exec_obuf_or {i : Instr} {s t : State} (h : exec i s = .next t) :
    t.obuf = s.obuf ∨ ∃ r, StreamRun s i r ∧ r.out.length ≤ r.st.outCap.toNat ∧ t = r.finished := by
  cases exec_cases h with
  | violation i code hc => exact .inl rfl
  | tblinit => exact .inl (fillTables_obuf s)
  | init level fmt f hf => exact .inl rfl
  | crc32Byte b ht => exact .inl rfl
  | crc32Block ht => exact .inl rfl
  | adler32Byte b ht => exact .inl rfl
  | adler32Block ht => exact .inl rfl
  | stream i r hr hfit => exact .inr ⟨r, hr, hfit, rfl⟩

/-- A stream command stores its output from index 0 on. -/
theorem StreamRun.finished_obuf {s : State} {i : Instr} {r : Run} (hr : StreamRun s i r) :
    r.finished.obuf = s.obuf.storeFrom 0 r.out := by
  rw [Run.finished, hr.frame, complete_obuf]

/-- The bytes a completed stream command wrote end at RESULT. -/
theorem StreamRun.read_obuf_of_result_le {s : State} {i : Instr} {r : Run} (hr : StreamRun s i r)
    (hfit : r.out.length ≤ r.st.outCap.toNat) {a : Nat} (ha : r.finished.result.toNat ≤ a) :
    r.finished.obuf.read a = s.obuf.read a := by
  rw [Run.finished_result hfit] at ha
  rw [hr.finished_obuf, Memory.read_storeFrom, if_neg (by omega)]

/-- The stream commands with output are SEND_HEADER, FINISH and ENCODE. -/
theorem StreamRun.instr_cases {s : State} {i : Instr} {r : Run} (hr : StreamRun s i r) :
    i = .sendHeader ∨ i = .finish ∨ ∃ more, i = .encode more := by
  cases hr with
  | header hp => exact .inl rfl
  | finish hp => exact .inr (.inl rfl)
  | encode more ht hp => exact .inr (.inr ⟨more, rfl⟩)

/-- Settles O46: either OBUF is the same, or the command is one that stores, has completed, and stored below RESULT. -/
theorem memoryFrame : Obligations.MemoryFrame := by
  unfold Obligations.MemoryFrame
  intro i s t h
  obtain ⟨-, -, -, hibuf, -⟩ := commandFrame i s t h
  refine ⟨hibuf, ?_⟩
  obtain hsame | ⟨r, hr, hfit, rfl⟩ := exec_obuf_or h
  · simp [hsame]
  · refine ⟨fun a ha => hr.read_obuf_of_result_le hfit ha, ?_⟩
    rintro (hcc | ⟨hheader, hfinish, hencode⟩)
    · exact absurd rfl hcc
    · obtain hi | hi | ⟨more, hi⟩ := hr.instr_cases
      · exact absurd hi hheader
      · exact absurd hi hfinish
      · exact absurd hi (hencode more)

end Sys2Proof.Machine
end

/-! ## Command words by their fields (30_encoding R91 to R97) -/

section
namespace Sys2Proof

/-- The reserved bits `[31:16]` (30_encoding R91). -/
def reservedField (w : Word) : BitVec 16 := w.extractLsb' 16 16

/-- The word with these fields and no reserved bit (30_encoding R91). -/
def commandWord (byte : Byte) (fmt : BitVec 2) (level more : BitVec 1) (opc : BitVec 4) : Word :=
  0#16 ++ byte ++ fmt ++ level ++ more ++ opc

/-- Each field is cut out again at its own position. -/
@[simp] theorem fields_commandWord (byte : Byte) (fmt : BitVec 2) (level more : BitVec 1) (opc : BitVec 4) :
    opcField (commandWord byte fmt level more opc) = opc ∧ moreField (commandWord byte fmt level more opc) = more ∧
    levelField (commandWord byte fmt level more opc) = level ∧ fmtField (commandWord byte fmt level more opc) = fmt ∧
    byteField (commandWord byte fmt level more opc) = byte ∧
    reservedField (commandWord byte fmt level more opc) = 0#16 := by
  simp (disch := decide) only [opcField, moreField, levelField, fmtField, byteField, reservedField, commandWord,
    BitVec.extractLsb'_append_eq_of_le, BitVec.extractLsb'_append_eq_right, BitVec.extractLsb'_eq_self, Nat.reduceSub,
    and_self]

/-- The fields of 30_encoding R91 cover the word. -/
theorem fields_append (w : Word) :
    reservedField w ++ byteField w ++ fmtField w ++ levelField w ++ moreField w ++ opcField w = w := by
  simp only [reservedField, byteField, fmtField, levelField, moreField, opcField,
    BitVec.extractLsb'_append_extractLsb'_eq_extractLsb', BitVec.extractLsb'_eq_self]

theorem word_eq_iff (v w : Word) :
    v = w ↔ opcField v = opcField w ∧ reservedField v = reservedField w ∧ moreField v = moreField w ∧
      levelField v = levelField w ∧ fmtField v = fmtField w ∧ byteField v = byteField w := by
  refine ⟨fun h => by simp [h], fun ⟨ho, hr, hm, hl, hf, hb⟩ => ?_⟩
  rw [← fields_append v, ← fields_append w, ho, hr, hm, hl, hf, hb]

/-- The row's operation code (30_encoding R93). -/
def OpRow.opcode : OpRow → BitVec 4
  | .tblinit => 0x1#4
  | .init => 0x2#4
  | .sendHeader => 0x3#4
  | .encode => 0x4#4
  | .finish => 0x5#4
  | .crc32Byte => 0x8#4
  | .crc32Block => 0x9#4
  | .adler32Byte => 0xA#4
  | .adler32Block => 0xB#4

theorem rowOf_eq_some_iff (opc : BitVec 4) (row : OpRow) : rowOf opc = some row ↔ opc = row.opcode := by
  cases row <;> revert opc <;> decide

theorem rowOf_eq_none_iff (opc : BitVec 4) :
    rowOf opc = none ↔ opc ∈ [0x0#4, 0x6#4, 0x7#4, 0xC#4, 0xD#4, 0xE#4, 0xF#4] := by
  revert opc
  decide

theorem and_eq_left_of_ones {n : Nat} {m : BitVec n} (h : m = BitVec.allOnes n) (x : BitVec n) : x &&& m = x := by
  rw [h, BitVec.and_allOnes]

/-- Match and mask of a row in terms of the fields: its operation code, and zero in every bit that is reserved or in a
field the row does not use (30_encoding R93, R96). -/
theorem and_mask_eq_pattern_iff (row : OpRow) (w : Word) :
    w &&& row.mask = row.pattern ↔
      opcField w = row.opcode ∧ reservedField w = 0#16 ∧ (row ≠ .encode → moreField w = 0#1) ∧
      (row ≠ .init → levelField w = 0#1) ∧ (row ≠ .init → fmtField w = 0#2) ∧
      (row ≠ .crc32Byte → row ≠ .adler32Byte → byteField w = 0#8) := by
  rw [word_eq_iff]
  cases row <;>
    simp (disch := decide) [OpRow.mask, OpRow.pattern, OpRow.opcode, opcField, reservedField, moreField, levelField,
      fmtField, byteField, BitVec.extractLsb'_and, and_eq_left_of_ones]

/-! ### The decoder and the encoder -/

theorem decode_of_row {w : Word} {row : OpRow} (hrow : rowOf (opcField w) = some row)
    (hmask : w &&& row.mask = row.pattern) (hfmt : ¬ (row = .init ∧ fmtField w = 3#2)) :
    decode w = .ok (row.build w) := by
  simp only [decode, hrow, hmask, ne_eq, not_true_eq_false, if_false, if_neg hfmt]

/-- Every command comes from a row whose fixed bits the word has (30_encoding R95). -/
theorem row_of_decode {w : Word} {i : Instr} (h : decode w = .ok i) :
    ∃ row, rowOf (opcField w) = some row ∧ w &&& row.mask = row.pattern ∧ ¬ (row = .init ∧ fmtField w = 3#2) ∧
      row.build w = i := by
  unfold decode at h
  split at h
  · cases h
  · rename_i row hrow
    split at h
    · cases h
    split at h
    · cases h
    injection h with h
    exact ⟨row, hrow, not_not.mp ‹_›, ‹_›, h⟩

theorem row_of_opcode {w : Word} {row : OpRow} (h : opcField w = row.opcode) : rowOf (opcField w) = some row :=
  (rowOf_eq_some_iff _ _).mpr h

/-- The row of a command (30_encoding R93). -/
def Instr.row : Instr → OpRow
  | .tblinit => .tblinit
  | .init _ _ => .init
  | .sendHeader => .sendHeader
  | .encode _ => .encode
  | .finish => .finish
  | .crc32Byte _ => .crc32Byte
  | .crc32Block => .crc32Block
  | .adler32Byte _ => .adler32Byte
  | .adler32Block => .adler32Block

@[simp] theorem encode_tblinit : encode .tblinit = commandWord 0#8 0#2 0#1 0#1 OpRow.tblinit.opcode := by decide

@[simp] theorem encode_init (level : BitVec 1) (fmt : BitVec 2) :
    encode (.init level fmt) = commandWord 0#8 fmt level 0#1 OpRow.init.opcode := by
  revert level fmt
  decide

@[simp] theorem encode_sendHeader : encode .sendHeader = commandWord 0#8 0#2 0#1 0#1 OpRow.sendHeader.opcode := by
  decide

@[simp] theorem encode_encode (more : BitVec 1) :
    encode (.encode more) = commandWord 0#8 0#2 0#1 more OpRow.encode.opcode := by
  revert more
  decide

@[simp] theorem encode_finish : encode .finish = commandWord 0#8 0#2 0#1 0#1 OpRow.finish.opcode := by decide

@[simp] theorem encode_crc32Byte (byte : Byte) :
    encode (.crc32Byte byte) = commandWord byte 0#2 0#1 0#1 OpRow.crc32Byte.opcode := by
  revert byte
  decide +kernel

@[simp] theorem encode_crc32Block : encode .crc32Block = commandWord 0#8 0#2 0#1 0#1 OpRow.crc32Block.opcode := by
  decide

@[simp] theorem encode_adler32Byte (byte : Byte) :
    encode (.adler32Byte byte) = commandWord byte 0#2 0#1 0#1 OpRow.adler32Byte.opcode := by
  revert byte
  decide +kernel

@[simp] theorem encode_adler32Block :
    encode .adler32Block = commandWord 0#8 0#2 0#1 0#1 OpRow.adler32Block.opcode := by
  decide

theorem encode_and_mask (i : Instr) : encode i &&& i.row.mask = i.row.pattern := by
  rw [and_mask_eq_pattern_iff]
  cases i <;> simp [Instr.row]

theorem opcField_encode (i : Instr) : opcField (encode i) = i.row.opcode :=
  ((and_mask_eq_pattern_iff _ _).mp (encode_and_mask i)).1

/-- The operands come back from their fields. -/
theorem build_encode (i : Instr) : i.row.build (encode i) = i := by
  cases i <;> simp [Instr.row, OpRow.build]

theorem wellFormed_iff (i : Instr) : i.wellFormed = true ↔ ¬ (i.row = .init ∧ fmtField (encode i) = 3#2) := by
  cases i <;> simp [Instr.row, Instr.wellFormed]

/-- Settles O2: the word lies in the command's own row, and the row builds the command from the word's fields. -/
theorem decodeReadsBackEveryCommand : Obligations.DecodeReadsBackEveryCommand := by
  unfold Obligations.DecodeReadsBackEveryCommand
  intro i hwf
  rw [decode_of_row (row_of_opcode (opcField_encode i)) (encode_and_mask i) ((wellFormed_iff i).mp hwf), build_encode]

theorem row_build (row : OpRow) (w : Word) : (row.build w).row = row := by
  cases row <;> rfl

/-- A word with a row's fixed bits is the word of the command the row builds from it: what the command does not hold is
zero or the operation code. -/
theorem encode_build {row : OpRow} {w : Word} (h : w &&& row.mask = row.pattern) : encode (row.build w) = w := by
  obtain ⟨hopc, hreserved, hmore, hlevel, hfmt, hbyte⟩ := (and_mask_eq_pattern_iff row w).mp h
  rw [word_eq_iff, hopc, hreserved]
  cases row <;> simp_all [OpRow.build]

/-- Settles O3, by the row the decoder found. -/
theorem everyLegalWordIsTheEncoding : Obligations.EveryLegalWordIsTheEncoding := by
  unfold Obligations.EveryLegalWordIsTheEncoding
  intro w i h
  obtain ⟨row, -, hmask, hfmt, rfl⟩ := row_of_decode h
  have hw := encode_build hmask
  exact ⟨(wellFormed_iff _).mpr (by rwa [row_build, hw]), hw⟩

theorem runWord_of_reject {w : Word} (h : ∀ i, decode w ≠ .ok i) (s : Machine.State) :
    Machine.runWord w s = .next (Machine.raiseViolation .illegal s) := by
  unfold Machine.runWord
  cases hw : decode w with
  | ok i => exact absurd hw (h i)
  | error e => rfl

theorem exists_decode_iff (w : Word) :
    (∃ i, decode w = .ok i) ↔ ∃ row : OpRow, w &&& row.mask = row.pattern ∧ ¬ (row = .init ∧ fmtField w = 3#2) := by
  constructor
  · rintro ⟨i, hi⟩
    obtain ⟨row, -, hmask, hinit, -⟩ := row_of_decode hi
    exact ⟨row, hmask, hinit⟩
  · rintro ⟨row, hmask, hinit⟩
    exact ⟨_, decode_of_row (row_of_opcode ((and_mask_eq_pattern_iff row w).mp hmask).1) hmask hinit⟩

/-- The operation codes are the reserved ones and those of the rows. -/
theorem exists_opcode_of_not_reserved {opc : BitVec 4}
    (h : opc ∉ [0x0#4, 0x6#4, 0x7#4, 0xC#4, 0xD#4, 0xE#4, 0xF#4]) : ∃ row : OpRow, opc = row.opcode := by
  rw [← rowOf_eq_none_iff] at h
  obtain ⟨row, hrow⟩ := Option.ne_none_iff_exists'.mp h
  exact ⟨row, (rowOf_eq_some_iff _ _).mp hrow⟩

/-- Settles O4: a word has a row of the opcode map that it decodes by exactly if it avoids every clause. -/
theorem illegalWordsAreRefused : Obligations.IllegalWordsAreRefused := by
  unfold Obligations.IllegalWordsAreRefused
  intro w illegal
  have hlegal : (∃ i, decode w = .ok i) ↔ ¬ illegal := by
    rw [exists_decode_iff]
    constructor
    · rintro ⟨row, hmask, hinit⟩
      obtain ⟨hopc, hreserved, hmore, hlevel, hfmt, hbyte⟩ := (and_mask_eq_pattern_iff row w).mp hmask
      rw [reservedField] at hreserved
      cases row <;> simp_all [illegal, OpRow.opcode]
    · intro h
      simp only [illegal, not_or] at h
      obtain ⟨hopc, hreserved, hmore, hlevel, hfmt, hbyte, hinit⟩ := h
      obtain ⟨row, hrow⟩ := exists_opcode_of_not_reserved hopc
      refine ⟨row, (and_mask_eq_pattern_iff row w).mpr ⟨hrow, not_not.mp hreserved, ?_⟩, ?_⟩ <;>
        cases row <;> simp_all [OpRow.opcode]
  exact ⟨fun h s => runWord_of_reject (fun i hi => hlegal.mp ⟨i, hi⟩ h) s, hlegal.mpr⟩

/-- Settles O1, word by word. -/
theorem workedEncodingsDecode : Obligations.WorkedEncodingsDecode := by
  unfold Obligations.WorkedEncodingsDecode
  decide

end Sys2Proof
end

/-! ## The lookups of lengths and distances (30_encoding R107, R109) -/

section
namespace Sys2Proof.Machine

/-- Where the bases rise, the row found has the largest base that is at most the value. -/
theorem base_le_rowFor_base {rows : List RangeRow} (hrise : rows.Pairwise fun r q => r.base < q.base) {v : Nat}
    {row : RangeRow} (hrow : row ∈ rows) (hv : row.base ≤ v) : row.base ≤ (rowFor rows v).base := by
  induction rows generalizing row with
  | nil => cases hrow
  | cons first rest ih =>
    obtain ⟨hfirst, hrest⟩ := List.pairwise_cons.mp hrise
    cases rest with
    | nil => exact (congrArg RangeRow.base (List.mem_singleton.mp hrow)).le
    | cons next more =>
      have hnextmem : next ∈ next :: more := List.mem_cons_self
      rw [rowFor]
      split
      · rename_i hnext
        obtain rfl | hmem := List.mem_cons.mp hrow
        · exact (hfirst next hnextmem).le.trans (ih hrest hnextmem hnext)
        · exact ih hrest hmem hv
      · rename_i hnext
        have hbelow : ∀ later ∈ next :: more, v < later.base := by
          refine List.forall_mem_cons.mpr ⟨Nat.not_le.mp hnext, fun later hlater => ?_⟩
          exact (Nat.not_le.mp hnext).trans ((List.pairwise_cons.mp hrest).1 later hlater)
        obtain rfl | hmem := List.mem_cons.mp hrow
        · exact Nat.le_refl _
        · exact absurd hv (Nat.not_le.mpr (hbelow row hmem))

theorem lengthRows_rise : lengthRows.Pairwise fun r q => r.base < q.base := by decide

theorem distanceRows_rise : distanceRows.Pairwise fun r q => r.base < q.base := by decide

/-- Settles O31: the bases rise, and each row's range reaches the next base. -/
theorem distanceLookup : Obligations.DistanceLookup := by
  unfold Obligations.DistanceLookup
  intro d h1 h
  obtain ⟨hmem, hbase, hreach⟩ := distanceRow_spec h1 h
  exact ⟨hmem, hbase, fun row hrow => base_le_rowFor_base distanceRows_rise hrow, by omega⟩

/-- Only row 285 has a base above 257. -/
theorem lengthRows_sym_le : ∀ row ∈ lengthRows, row.base ≤ 257 → row.sym ≤ 284 := by decide

/-- Settles O32: the bases rise, and each row's range reaches the next base; row 285 is the one of base 258. -/
theorem lengthLookup : Obligations.LengthLookup := by
  unfold Obligations.LengthLookup
  refine ⟨fun l h3 h => ?_, by decide⟩
  obtain ⟨hmem, hbase, hreach⟩ := lengthRow_spec h3 (by omega)
  exact ⟨hmem, lengthRows_sym_le _ hmem (by omega), hbase,
    fun row hrow _ => base_le_rowFor_base lengthRows_rise hrow, by omega⟩

end Sys2Proof.Machine
end

/-! ## What the finder's events stand for (42_match_finder R180, R184, R191) -/

section
namespace Sys2Proof.Machine

theorem take_append_getD {input : List Byte} {pos : Nat} (h : pos < input.length) :
    input.take pos ++ [input.getD pos 0#8] = input.take (pos + 1) := by
  rw [List.getD_eq_getElem _ _ h, List.take_concat_get' _ _ h]

/-- A copy from an earlier position over equal bytes continues the input, also where it reads bytes it has itself
produced: after each byte both positions move on by one (42_match_finder R184). -/
theorem copyBack_take (done : List Byte) {input : List Byte} {pos c length : Nat} (hc : c < pos)
    (hn : pos + length ≤ input.length) (heq : (input.drop c).take length = (input.drop pos).take length) :
    copyBack length (pos - c) (done ++ input.take pos) = done ++ input.take (pos + length) := by
  induction length generalizing pos c with
  | zero => rfl
  | succ length ih =>
    have hpos : pos < input.length := by omega
    rw [List.drop_eq_getElem_cons (hc.trans hpos), List.drop_eq_getElem_cons hpos, List.take_succ_cons,
      List.take_succ_cons, List.cons.injEq] at heq
    have hsource : (done ++ input.take pos).length - (pos - c) = done.length + c := by
      simp only [List.length_append, List.length_take]
      omega
    have hbyte : (done ++ input.take pos).getD (done.length + c) 0#8 = input.getD pos 0#8 := by
      rw [List.getD_append_right _ _ _ _ (Nat.le_add_right _ _), Nat.add_sub_cancel_left, List.getD_eq_getElem _ _ hpos,
        ← heq.1, List.getD_eq_getElem _ _ (by simp [hc, hc.trans hpos]), List.getElem_take]
    rw [copyBack, hsource, hbyte, List.append_assoc, take_append_getD hpos, ← Nat.add_sub_add_right pos 1 c,
      ih (by omega) (by omega) heq.2, Nat.add_right_comm, Nat.add_assoc]

theorem findLoop_of_lt (hash : Byte → Byte → Byte → SlotIndex) {input : List Byte} (fuel : Nat) {pos : Nat} (m : Mtab)
    (h : pos < input.length) :
    (findLoop hash input (fuel + 1) pos m).1 = (find hash input pos m).1 ::
      (findLoop hash input fuel (pos + (find hash input pos m).1.span) (find hash input pos m).2).1 := by
  rw [findLoop, if_pos h]

theorem findLoop_at_end (hash : Byte → Byte → Byte → SlotIndex) {input : List Byte} (fuel : Nat) {pos : Nat} (m : Mtab)
    (h : input.length ≤ pos) : findLoop hash input fuel pos m = ([], m) := by
  cases fuel with
  | zero => rfl
  | succ fuel => rw [findLoop, if_neg (Nat.not_lt.mpr h)]

/-- The loop's events, from the cursor on, put the rest of the input behind what there is already. -/
theorem expandEvents_findLoop (hash : Byte → Byte → Byte → SlotIndex) (done input : List Byte) (fuel : Nat) {pos : Nat}
    {m : Mtab} (hm : m.below pos) (hpos : pos ≤ input.length) (hfuel : input.length ≤ pos + fuel) :
    expandEvents (done ++ input.take pos) (findLoop hash input fuel pos m).1 = some (done ++ input) := by
  induction fuel generalizing pos m with
  | zero => rw [findLoop, expandEvents, List.take_of_length_le (by omega)]
  | succ fuel ih =>
    obtain hend | hlt := le_or_gt input.length pos
    · rw [findLoop_at_end hash _ m hend, expandEvents, List.take_of_length_le hend]
    · rw [findLoop_of_lt hash fuel m hlt]
      obtain ⟨hbelow, hfound⟩ := @find_spec hash input pos m hm
      obtain he | ⟨length, c, he, hc, -, hmin, -, hn, heq⟩ := hfound
      · rw [he] at hbelow ⊢
        rw [literalAt, expandEvents, List.append_assoc, take_append_getD hlt]
        exact ih hbelow hlt (by show input.length ≤ pos + 1 + fuel; omega)
      · rw [he] at hbelow ⊢
        have hreach : 1 ≤ pos - c ∧ pos - c ≤ (done ++ input.take pos).length := by
          simp only [List.length_append, List.length_take]
          omega
        rw [expandEvents, if_pos hreach, copyBack_take done hc hn heq]
        exact ih hbelow hn (by show input.length ≤ pos + length + fuel; omega)

theorem expandEvents_literals (done input : List Byte) :
    expandEvents done (input.map Event.literal) = some (done ++ input) := by
  induction input generalizing done with
  | nil => simp [expandEvents]
  | cons b input ih => simp [expandEvents, ih]

/-- The events of one piece put the piece behind whatever came before it: no match reaches out of its own piece. -/
theorem expandEvents_findEvents (hash : Byte → Byte → Byte → SlotIndex) (compEn : Bool) (done input : List Byte) :
    expandEvents done (findEvents hash compEn input).1 = some (done ++ input) := by
  unfold findEvents
  split
  · simpa using expandEvents_findLoop hash done input input.length (Mtab.below_cleared 0) (Nat.zero_le _) (by omega)
  · exact expandEvents_literals done input

theorem expandEvents_append (h : List Byte) (es fs : List Event) :
    expandEvents h (es ++ fs) = (expandEvents h es).bind fun h' => expandEvents h' fs := by
  induction es generalizing h with
  | nil => rfl
  | cons e es ih =>
    cases e with
    | literal b => simp only [List.cons_append, expandEvents, ih]
    | copy length distance =>
      simp only [List.cons_append, expandEvents]
      split
      · exact ih _
      · rfl

/-- The number of input bytes a sequence of events stands for. -/
def totalSpan (es : List Event) : Nat := (es.map Event.span).sum

theorem length_copyBack (length distance : Nat) (h : List Byte) :
    (copyBack length distance h).length = h.length + length := by
  induction length generalizing h with
  | zero => rfl
  | succ length ih =>
    rw [copyBack, ih, List.length_append, List.length_singleton]
    omega

theorem length_expandEvents {h h' : List Byte} {es : List Event} (he : expandEvents h es = some h') :
    h'.length = h.length + totalSpan es := by
  induction es generalizing h with
  | nil =>
    injection he with he
    simp [he, totalSpan]
  | cons e es ih =>
    cases e with
    | literal b =>
      have := ih he
      simp only [List.length_append, List.length_singleton] at this
      simp only [totalSpan, List.map_cons, List.sum_cons, Event.span] at this ⊢
      omega
    | copy length distance =>
      rw [expandEvents] at he
      split at he
      · have := ih he
        rw [length_copyBack] at this
        simp only [totalSpan, List.map_cons, List.sum_cons, Event.span] at this ⊢
        omega
      · cases he

theorem totalSpan_findEvents (hash : Byte → Byte → Byte → SlotIndex) (compEn : Bool) (input : List Byte) :
    totalSpan (findEvents hash compEn input).1 = input.length := by
  have := length_expandEvents (expandEvents_findEvents hash compEn [] input)
  simpa using this.symm

end Sys2Proof.Machine
end

/-! ## The packer keeps the bit stream (43_bit_packer R200 to R203) -/

section
namespace Sys2Proof.Machine

@[simp] theorem length_bitsOf (v : Word) (w : Nat) : (bitsOf v w).length = w := by simp [bitsOf]

theorem bitsOf_add (v : Word) (m n : Nat) : bitsOf v (m + n) = bitsOf v m ++ bitsOf (v >>> m) n := by
  simp only [bitsOf, List.range_add, List.map_append, List.map_map]
  congr 1
  refine List.map_congr_left fun i _ => ?_
  simp [BitVec.getLsbD_ushiftRight]

theorem bitsOf_eq_byteBits (v : Word) : bitsOf v 8 = byteBits (v.setWidth 8) := by
  refine List.map_congr_left fun i hi => ?_
  simp [List.mem_range.mp hi]

theorem streamBits_append (a b : List Byte) : streamBits (a ++ b) = streamBits a ++ streamBits b := List.flatMap_append

/-- The bytes shifted out and the bits left are the bits there were. -/
theorem streamBits_shiftOut (n k : Nat) (v : Word) :
    streamBits (shiftOut n v).1 ++ bitsOf (shiftOut n v).2 k = bitsOf v (8 * n + k) := by
  induction n generalizing v with
  | zero => simp [shiftOut, streamBits]
  | succ n ih =>
    rw [show 8 * (n + 1) + k = 8 + (8 * n + k) by omega, bitsOf_add, ← ih, bitsOf_eq_byteBits]
    simp [shiftOut, streamBits]

/-- The accumulator holds the pending bits and above them the new code's. -/
theorem bitsOf_accumulated {p : Packer} {x : Push} (hp : p.fits = true) (hx : x.fits = true) :
    bitsOf (p.pend ||| (x.code <<< p.cnt)) (p.cnt + x.width) = p.bits ++ x.bits := by
  obtain ⟨hcnt, hpend⟩ := (Packer.fits_iff p).mp hp
  obtain ⟨hwidth, -⟩ := (Push.fits_iff x).mp hx
  rw [bitsOf_add]
  congr 1
  · refine List.map_congr_left fun i hi => ?_
    simp [List.mem_range.mp hi]
  · refine List.map_congr_left fun i hi => ?_
    have hi := List.mem_range.mp hi
    have hclear : p.pend.getLsbD (p.cnt + i) = false :=
      Nat.testBit_lt_two_pow (hpend.trans_le (Nat.pow_le_pow_right (by omega) (by omega)))
    simp [BitVec.getLsbD_ushiftRight, hclear]
    omega

theorem streamBits_push {p : Packer} {x : Push} (hp : p.fits = true) (hx : x.fits = true) :
    streamBits (push p x).1 ++ (push p x).2.bits = p.bits ++ x.bits := by
  have h := streamBits_shiftOut ((p.cnt + x.width) / 8) ((p.cnt + x.width) % 8) (p.pend ||| (x.code <<< p.cnt))
  rw [Nat.div_add_mod, bitsOf_accumulated hp hx] at h
  exact h

theorem pushBits_cons (x : Push) (xs : List Push) : pushBits (x :: xs) = x.bits ++ pushBits xs := rfl

theorem pushBits_append (xs ys : List Push) : pushBits (xs ++ ys) = pushBits xs ++ pushBits ys := List.flatMap_append

theorem streamBits_pushAll {p : Packer} {xs : List Push} (hp : p.fits = true) (hxs : ∀ x ∈ xs, x.fits = true) :
    streamBits (pushAll p xs).1 ++ (pushAll p xs).2.bits = p.bits ++ pushBits xs := by
  induction xs generalizing p with
  | nil => simp [pushBits, streamBits]
  | cons x xs ih =>
    obtain ⟨hx, hxs⟩ := List.forall_mem_cons.mp hxs
    rw [pushAll_cons, streamBits_append, List.append_assoc, ih (push_fits hp hx) hxs, ← List.append_assoc,
      streamBits_push hp hx, List.append_assoc, pushBits_cons]

/-- A flush completes the pending bits to a byte with fewer than 8 more (43_bit_packer R203). -/
theorem streamBits_flushToByte {p : Packer} (hp : p.cnt ≤ 7) :
    ∃ pad, streamBits (flushToByte p).1 = p.bits ++ pad ∧ pad.length < 8 := by
  by_cases h : 0 < p.cnt
  · refine ⟨bitsOf (p.pend >>> p.cnt) (8 - p.cnt), ?_, by rw [length_bitsOf]; omega⟩
    rw [Packer.bits, ← bitsOf_add, Nat.add_sub_of_le (by omega), bitsOf_eq_byteBits]
    simp [flushToByte, h, streamBits]
  · have hzero : p.cnt = 0 := by omega
    exact ⟨[], by simp [flushToByte, hzero, streamBits, Packer.bits, bitsOf], by simp⟩

/-- The number of bytes written: every eight bits of the total, pending ones included (43_bit_packer R205). -/
theorem length_pushAll (p : Packer) (xs : List Push) (hp : p.cnt ≤ 7) :
    (pushAll p xs).1.length = (p.cnt + totalWidth xs) / 8 := by
  induction xs generalizing p with
  | nil => simp [totalWidth]; omega
  | cons x xs ih =>
    rw [pushAll_cons, List.length_append, length_push, ih _ (by rw [push_cnt]; omega), push_cnt, totalWidth]
    omega

end Sys2Proof.Machine
end

/-! ## The session checksum over pieces (41_checksum R164, 44_block_encoder R217) -/

section
namespace Sys2Proof.Machine

theorem crc32Update_append (table : List Word) (v : Word) (a b : List Byte) :
    crc32Update table (crc32Update table v a) b = crc32Update table v (a ++ b) := by
  simp only [crc32Update, BitVec.xor_assoc, BitVec.xor_self, BitVec.xor_zero, List.foldl_append]

/-- Both sub-sums fit their 16-bit halves. -/
def AdlerHalved (ab : Nat × Nat) : Prop := ab.1 < 65536 ∧ ab.2 < 65536

theorem adlerHalves_halved (v : Word) : AdlerHalved (adlerHalves v) := ⟨BitVec.isLt _, BitVec.isLt _⟩

theorem foldl_adlerStep_halved {ab : Nat × Nat} (h : AdlerHalved ab) (bytes : List Byte) :
    AdlerHalved (bytes.foldl adlerStep ab) := by
  cases bytes with
  | nil => exact h
  | cons b bytes => exact (foldl_adlerStep_reduced (adlerStep_reduced ab b) bytes).lt_65536

theorem adler32Update_append (v : Word) (a b : List Byte) :
    adler32Update (adler32Update v a) b = adler32Update v (a ++ b) := by
  obtain ⟨hlow, hhigh⟩ := foldl_adlerStep_halved (adlerHalves_halved v) a
  rw [adler32Update, adler32Update, adlerHalves_adlerPack hlow hhigh, adler32Update, List.foldl_append]

theorem sessionChecksum_append (f : Format) (table : List Word) (v : Word) (a b : List Byte) :
    sessionChecksum f table (sessionChecksum f table v a) b = sessionChecksum f table v (a ++ b) := by
  cases f with
  | raw => exact crc32Update_append table v a b
  | zlib => exact adler32Update_append v a b
  | gzip => exact crc32Update_append table v a b

theorem sessionChecksum_nil (f : Format) (table : List Word) :
    sessionChecksum f table (emptyChecksum f) [] = emptyChecksum f := by
  cases f with
  | raw => simp [sessionChecksum, crc32Update]
  | zlib => exact (by decide : adler32Update 1#32 [] = 1#32)
  | gzip => simp [sessionChecksum, crc32Update]

end Sys2Proof.Machine
end

/-! ## The reader gives back what the block encoder sends (30_encoding R101 to R110) -/

section
namespace Sys2Proof.Machine

/-- An integer of `n` bits is read back from its low bits, least-significant first (30_encoding R105). -/
theorem readInt_bitsOf (n : Nat) (v : Word) (rest : List Bool) :
    readInt n (bitsOf v n ++ rest) = some (v.toNat % 2 ^ n, rest) := by
  induction n generalizing v with
  | zero => simp [readInt, bitsOf, Nat.mod_one]
  | succ n ih =>
    have hbits : bitsOf v (n + 1) = v.getLsbD 0 :: bitsOf (v >>> 1) n := by
      rw [Nat.add_comm, bitsOf_add]
      rfl
    rw [hbits, List.cons_append, readInt, ih, BitVec.toNat_ushiftRight, Nat.shiftRight_eq_div_pow, BitVec.getLsbD,
      Nat.toNat_testBit, Nat.pow_zero, Nat.div_one, Nat.pow_one, Nat.pow_succ', Nat.mod_mul]

/-- The low `w` bits of a code value, most-significant first: the order a Huffman code is sent in
(30_encoding R105). -/
def codeBits (v : Nat) : Nat → List Bool
  | 0 => []
  | w + 1 => v.testBit w :: codeBits v w

theorem codeBits_eq_map (v w : Nat) : codeBits v w = (List.range w).map fun i => v.testBit (w - 1 - i) := by
  induction w with
  | zero => rfl
  | succ w ih =>
    rw [codeBits, ih, List.range_succ_eq_map, List.map_cons, List.map_map]
    congr 1
    refine List.map_congr_left fun i _ => ?_
    rw [Function.comp_apply, Nat.add_sub_cancel, Nat.sub_sub, Nat.add_comm 1 i]

theorem bitsOf_rev (v : Word) {w : Nat} (hw : w ≤ 32) : bitsOf (rev v w) w = codeBits v.toNat w := by
  rw [codeBits_eq_map]
  refine List.map_congr_left fun i hi => ?_
  rw [getLsbD_rev v i hw, decide_eq_true (List.mem_range.mp hi), Bool.true_and, BitVec.getLsbD]

/-- Reading the first `n` bits of a code of `n + k` bits, the higher bits of its value being read already. -/
theorem readCode_codeBits (n k v : Nat) (rest : List Bool) :
    readCode n (v / 2 ^ (n + k)) (codeBits v (n + k) ++ rest) = some (v / 2 ^ k, codeBits v k ++ rest) := by
  induction n with
  | zero => rw [Nat.zero_add, readCode]
  | succ n ih =>
    have hvalue : 2 * (v / 2 ^ (n + k + 1)) + (v.testBit (n + k)).toNat = v / 2 ^ (n + k) := by
      rw [Nat.toNat_testBit, Nat.pow_succ, ← Nat.div_div_eq_div_mul]
      omega
    rw [Nat.add_right_comm, codeBits, List.cons_append, readCode, hvalue, ih]

/-- A whole code. -/
theorem readCode_whole {v w : Nat} (hv : v < 2 ^ w) (rest : List Bool) :
    readCode w 0 (codeBits v w ++ rest) = some (v, rest) := by
  have h := readCode_codeBits w 0 v rest
  rwa [Nat.add_zero, Nat.div_eq_of_lt hv, Nat.pow_zero, Nat.div_one] at h

/-- The first seven bits of a code of seven bits or more. -/
theorem readCode_seven {k v : Nat} (hv : v < 2 ^ (7 + k)) (rest : List Bool) :
    readCode 7 0 (codeBits v (7 + k) ++ rest) = some (v / 2 ^ k, codeBits v k ++ rest) := by
  have h := readCode_codeBits 7 k v rest
  rwa [Nat.div_eq_of_lt hv] at h

theorem readSymbol_seven {v : Nat} (hv : v ≤ 0x17) (rest : List Bool) :
    readSymbol (codeBits v 7 ++ rest) = some (256 + v, rest) := by
  have h7 := readCode_seven (k := 0) (v := v) (by omega) rest
  rw [Nat.pow_zero, Nat.div_one] at h7
  rw [readSymbol, h7]
  exact if_pos hv

theorem readSymbol_eight {v : Nat} (hlow : 0x30 ≤ v) (hv : v ≤ 0xC7) (rest : List Bool) :
    readSymbol (codeBits v 8 ++ rest) = some (if v ≤ 0xBF then v - 0x30 else 280 + (v - 0xC0), rest) := by
  have h7 := readCode_seven (k := 1) (v := v) (by omega) rest
  have h8 := readCode_codeBits 1 0 v rest
  rw [Nat.pow_zero, Nat.div_one] at h8
  simp only [readSymbol, h7, if_neg (show ¬ v / 2 ^ 1 ≤ 0x17 by omega), h8, if_pos hv]
  split <;> rfl

theorem readSymbol_nine {v : Nat} (hlow : 0x190 ≤ v) (hv : v < 0x200) (rest : List Bool) :
    readSymbol (codeBits v 9 ++ rest) = some (144 + (v - 0x190), rest) := by
  have h7 := readCode_seven (k := 2) (v := v) (by omega) rest
  have h8 := readCode_codeBits 1 1 v rest
  have h9 := readCode_codeBits 1 0 v rest
  rw [Nat.pow_zero, Nat.div_one] at h9
  simp only [readSymbol, h7, if_neg (show ¬ v / 2 ^ 2 ≤ 0x17 by omega), h8, if_neg (show ¬ v / 2 ^ 1 ≤ 0xBF by omega),
    if_neg (show ¬ v / 2 ^ 1 ≤ 0xC7 by omega), h9]
  rfl

/-- A literal/length code is read back whatever its width: the values of the first bits tell the widths apart
(30_encoding R104). -/
theorem readSymbol_fixedCode {n : Nat} (hn : n < 286) (rest : List Bool) :
    readSymbol (codeBits (fixedCode n).code.toNat (fixedCode n).width ++ rest) = some (n, rest) := by
  have value {v : Nat} (hv : v < 0x200) : (BitVec.ofNat 32 v).toNat = v := Nat.mod_eq_of_lt (by omega)
  unfold fixedCode
  split
  · rw [value (by omega), readSymbol_eight (by omega) (by omega), if_pos (by omega), Nat.add_sub_cancel_left]
  · split
    · rw [value (by omega), readSymbol_nine (by omega) (by omega), Nat.add_sub_cancel_left,
        Nat.add_sub_cancel' (by omega)]
    split
    · rw [value (by omega), readSymbol_seven (by omega), Nat.add_sub_cancel' (by omega)]
    · rw [value (by omega), readSymbol_eight (by omega) (by omega), if_neg (by omega), Nat.add_sub_cancel_left,
        Nat.add_sub_cancel' (by omega)]

theorem pushBits_singleton (x : Push) : pushBits [x] = x.bits := List.flatMap_singleton ..

/-- A symbol is read back from its push. -/
theorem readSymbol_symbolPushes {n : Nat} (hn : n < 286) (rest : List Bool) :
    readSymbol (pushBits (symbolPushes Tables.contents n) ++ rest) = some (n, rest) := by
  have hwidth : (fixedCode n).width ≤ 32 := (fixedCode_width n).1.trans (by decide)
  simp only [symbolPushes, litLen_getD hn, pushBits_singleton, Push.bits, bitsOf_rev _ hwidth]
  exact readSymbol_fixedCode hn rest

/-- In a table whose symbols tell its rows apart, the base and extra bits of a row's range are read back. -/
theorem readRange_row {rows : List RangeRow} {row : RangeRow}
    (hrow : rows.find? (fun r => r.sym == row.sym) = some row) {v : Nat} (hbase : row.base ≤ v)
    (hreach : v < row.base + 2 ^ row.extra) (hextra : row.extra ≤ 32) (rest : List Bool) :
    readRange rows row.sym (bitsOf (BitVec.ofNat 32 (v - row.base)) row.extra ++ rest) = some (v, rest) := by
  have hv : v - row.base < 2 ^ row.extra := by omega
  have hpow : 2 ^ row.extra ≤ 2 ^ 32 := Nat.pow_le_pow_right (by omega) hextra
  rw [readRange, hrow]
  simp only [readInt_bitsOf, BitVec.toNat_ofNat, Nat.mod_eq_of_lt (hv.trans_le hpow), Nat.mod_eq_of_lt hv,
    Nat.add_sub_cancel' hbase]

theorem lengthRows_find : ∀ row ∈ lengthRows, lengthRows.find? (fun r => r.sym == row.sym) = some row := by decide

theorem distanceRows_find : ∀ row ∈ distanceRows, distanceRows.find? (fun r => r.sym == row.sym) = some row := by decide

theorem inRange_copy_iff (length distance : Nat) :
    (Event.copy length distance).inRange = true ↔ (3 ≤ length ∧ length ≤ 258) ∧ 1 ≤ distance ∧ distance ≤ 32768 := by
  simp [Event.inRange, and_assoc]

/-- What a match sends, in order: the length's symbol and extra bits, the distance's code and extra bits
(44_block_encoder R214). -/
theorem pushBits_matchPushes (length distance : Nat) :
    pushBits (matchPushes Tables.contents length distance) =
      pushBits (symbolPushes Tables.contents (rowFor lengthRows length).sym) ++
        (bitsOf (BitVec.ofNat 32 (length - (rowFor lengthRows length).base)) (rowFor lengthRows length).extra ++
        (codeBits (BitVec.ofNat 32 (rowFor distanceRows distance).sym).toNat 5 ++
        bitsOf (BitVec.ofNat 32 (distance - (rowFor distanceRows distance).base))
          (rowFor distanceRows distance).extra)) := by
  rw [matchPushes, pushBits_append, pushBits_cons, pushBits_cons, pushBits_singleton, ← bitsOf_rev _ (by omega)]
  rfl

theorem readItems_copy {length distance : Nat} (he : (Event.copy length distance).inRange = true) {h : List Byte}
    (hreach : 1 ≤ distance ∧ distance ≤ h.length) (fuel : Nat) (rest : List Bool) :
    readItems (fuel + 1) h (pushBits (matchPushes Tables.contents length distance) ++ rest) =
      readItems fuel (copyBack length distance h) rest := by
  obtain ⟨⟨hmin, hmax⟩, hone, hwindow⟩ := (inRange_copy_iff _ _).mp he
  obtain ⟨hlmem, hlbase, hlreach⟩ := lengthRow_spec hmin hmax
  obtain ⟨hdmem, hdbase, hdreach⟩ := distanceRow_spec hone hwindow
  obtain ⟨hlextra, hlsym, hlsym'⟩ := lengthRows_small _ hlmem
  obtain ⟨hdextra, hdsym⟩ := distanceRows_small _ hdmem
  have hdcode : (BitVec.ofNat 32 (rowFor distanceRows distance).sym).toNat = (rowFor distanceRows distance).sym :=
    Nat.mod_eq_of_lt (by omega)
  rw [pushBits_matchPushes, hdcode]
  simp only [List.append_assoc, readItems, readSymbol_symbolPushes (Nat.lt_succ_of_le hlsym),
    if_neg (show ¬ (rowFor lengthRows length).sym ≤ 255 by omega),
    if_neg (show ¬ (rowFor lengthRows length).sym = 256 by omega),
    readRange_row (lengthRows_find _ hlmem) hlbase hlreach (hlextra.trans (by decide)),
    readCode_whole (show (rowFor distanceRows distance).sym < 2 ^ 5 by omega),
    readRange_row (distanceRows_find _ hdmem) hdbase hdreach (hdextra.trans (by decide)), if_pos hreach]

theorem readItems_literal (b : Byte) (h : List Byte) (fuel : Nat) (rest : List Bool) :
    readItems (fuel + 1) h (pushBits (literalPushes Tables.contents b) ++ rest) = readItems fuel (h ++ [b]) rest := by
  have hb : b.toNat ≤ 255 := Nat.le_of_lt_succ b.isLt
  simp only [literalPushes, readItems, readSymbol_symbolPushes (show b.toNat < 286 by omega), if_pos hb,
    BitVec.ofNat_toNat, BitVec.setWidth_eq]

theorem readItems_eob (h : List Byte) (fuel : Nat) (rest : List Bool) :
    readItems (fuel + 1) h (pushBits (eobPushes Tables.contents) ++ rest) = some (h, rest) := by
  simp only [eobPushes, readItems, readSymbol_symbolPushes (show 256 < 286 by omega)]
  rfl

/-- The pushes of a sequence of events (44_block_encoder R216). -/
def eventsPushes (es : List Event) : List Push := es.flatMap (eventPushes Tables.contents)

theorem eventsPushes_cons (e : Event) (es : List Event) :
    eventsPushes (e :: es) = eventPushes Tables.contents e ++ eventsPushes es := rfl

theorem eventsPushes_append (es fs : List Event) : eventsPushes (es ++ fs) = eventsPushes es ++ eventsPushes fs :=
  List.flatMap_append

/-- The data items of a block are read back as what the events stand for (30_encoding R101, R110). -/
theorem readItems_events {es : List Event} (hes : ∀ e ∈ es, e.inRange = true) {h h' : List Byte}
    (hexp : expandEvents h es = some h') {fuel : Nat} (hfuel : es.length ≤ fuel) (rest : List Bool) :
    readItems (fuel + 1) h (pushBits (eventsPushes es ++ eobPushes Tables.contents) ++ rest) = some (h', rest) := by
  induction es generalizing h fuel with
  | nil =>
    injection hexp with hexp
    rw [eventsPushes, List.flatMap_nil, List.nil_append, readItems_eob, hexp]
  | cons e es ih =>
    obtain ⟨he, hrange⟩ := List.forall_mem_cons.mp hes
    obtain ⟨fuel, rfl⟩ := Nat.exists_eq_add_one.mpr (Nat.zero_lt_of_lt hfuel)
    have hrest : es.length ≤ fuel := Nat.le_of_succ_le_succ hfuel
    rw [eventsPushes_cons, List.append_assoc, pushBits_append, List.append_assoc]
    cases e with
    | literal b =>
      rw [eventPushes, readItems_literal]
      exact ih hrange hexp hrest
    | copy length distance =>
      rw [expandEvents] at hexp
      split at hexp
      · rw [eventPushes, readItems_copy he ‹_›]
        exact ih hrange hexp hrest
      · cases hexp

end Sys2Proof.Machine
end

/-! ## The number of bits an event costs (44_block_encoder R218) -/

section
namespace Sys2Proof.Machine

theorem length_pushBits (xs : List Push) : (pushBits xs).length = totalWidth xs := by
  induction xs with
  | nil => rfl
  | cons x xs ih => rw [pushBits_cons, List.length_append, ih, Push.bits, length_bitsOf, totalWidth]

theorem totalWidth_symbolPushes {n : Nat} (hn : n < 286) :
    totalWidth (symbolPushes Tables.contents n) = (fixedCode n).width := by
  rw [symbolPushes, litLen_getD hn]
  rfl

theorem lengthRows_cost : ∀ row ∈ lengthRows, (fixedCode row.sym).width + row.extra ≤ 13 := by decide

theorem eventCost_copy {length distance : Nat} (he : (Event.copy length distance).inRange = true) :
    eventCost (.copy length distance) = (fixedCode (rowFor lengthRows length).sym).width +
      (rowFor lengthRows length).extra + 5 + (rowFor distanceRows distance).extra := by
  obtain ⟨⟨hmin, hmax⟩, -⟩ := (inRange_copy_iff _ _).mp he
  have hmem := (lengthRow_spec hmin hmax).1
  have hsym : (rowFor lengthRows length).sym < 286 := Nat.lt_succ_of_le (lengthRows_small _ hmem).2.1
  have hl : Tables.contents.lengths = lengthRows := rfl
  have hd : Tables.contents.dists = distanceRows := rfl
  simp only [eventCost, eventPushes, matchPushes, totalWidth_append, hl, hd, totalWidth_symbolPushes hsym, totalWidth]
  omega

/-- An event costs at least one bit, and at most nine for each byte it stands for. -/
theorem eventCost_bounds {e : Event} (he : e.inRange = true) : 1 ≤ eventCost e ∧ eventCost e ≤ 9 * e.span := by
  cases e with
  | literal b =>
    have hb := b.isLt
    have hcost : eventCost (.literal b) = (fixedCode b.toNat).width := totalWidth_symbolPushes (by omega)
    have := fixedCode_width b.toNat
    rw [hcost, Event.span]
    omega
  | copy length distance =>
    have hcost := eventCost_copy he
    obtain ⟨⟨hmin, hmax⟩, hone, hwindow⟩ := (inRange_copy_iff _ _).mp he
    have hl := lengthRows_cost _ (lengthRow_spec hmin hmax).1
    have hd := (distanceRows_small _ (distanceRow_spec hone hwindow).1).1
    rw [hcost, Event.span]
    obtain rfl | hfour := Nat.eq_or_lt_of_le hmin
    · have hrow : rowFor lengthRows 3 = ⟨257, 3, 0⟩ := by decide
      have hwidth : (fixedCode 257).width = 7 := by decide
      simp only [hrow, hwidth]
      omega
    · omega

theorem totalWidth_eventsPushes_cons (e : Event) (es : List Event) :
    totalWidth (eventsPushes (e :: es)) = eventCost e + totalWidth (eventsPushes es) := totalWidth_append _ _

theorem totalWidth_eventsPushes_bounds {es : List Event} (hes : ∀ e ∈ es, e.inRange = true) :
    es.length ≤ totalWidth (eventsPushes es) ∧ totalWidth (eventsPushes es) ≤ 9 * totalSpan es := by
  induction es with
  | nil => exact ⟨Nat.le_refl _, Nat.le_refl _⟩
  | cons e es ih =>
    obtain ⟨he, hrest⟩ := List.forall_mem_cons.mp hes
    have hcost := eventCost_bounds he
    have hsum := ih hrest
    have hspan : totalSpan (e :: es) = e.span + totalSpan es := rfl
    rw [totalWidth_eventsPushes_cons, List.length_cons, hspan]
    omega

end Sys2Proof.Machine
end

/-! ## Whole streams (30_encoding R101, R102, R111) -/

section
namespace Sys2Proof.Machine

/-- A block's header is read back as its final flag and the type 1, fixed-Huffman (30_encoding R101, R102). -/
theorem readBlocks_header (final : Bool) (fuel : Nat) {h h' : List Byte} {bits rest : List Bool}
    (hitems : readItems (bits.length + 1) h bits = some (h', rest)) :
    readBlocks (fuel + 1) h (pushBits (blockHeader final) ++ bits) =
      if final then some (h', rest) else readBlocks fuel h' rest := by
  have hbits : pushBits (blockHeader final) ++ bits = final :: true :: false :: bits := by cases final <;> rfl
  have hflag : readInt 1 (final :: true :: false :: bits) = some (final.toNat, true :: false :: bits) := rfl
  have htype : readInt 2 (true :: false :: bits) = some (1, bits) := rfl
  simp only [hbits, readBlocks, hflag, htype, hitems, if_true]
  cases final <;> rfl

/-- A block of these events (30_encoding R101). -/
def blockPushes (final : Bool) (es : List Event) : List Push :=
  blockHeader final ++ eventsPushes es ++ eobPushes Tables.contents

theorem readBlocks_blockPushes (final : Bool) {es : List Event} (hes : ∀ e ∈ es, e.inRange = true) {h h' : List Byte}
    (hexp : expandEvents h es = some h') (fuel : Nat) (rest : List Bool) :
    readBlocks (fuel + 1) h (pushBits (blockPushes final es) ++ rest) =
      if final then some (h', rest) else readBlocks fuel h' rest := by
  have hlength : es.length ≤ (pushBits (eventsPushes es ++ eobPushes Tables.contents) ++ rest).length := by
    rw [List.length_append, length_pushBits, totalWidth_append]
    have := (totalWidth_eventsPushes_bounds hes).1
    omega
  rw [blockPushes, List.append_assoc, pushBits_append, List.append_assoc]
  exact readBlocks_header final fuel (readItems_events hes hexp hlength rest)

theorem three_le_length_blockPushes (final : Bool) (es : List Event) :
    3 ≤ (pushBits (blockPushes final es)).length := by
  rw [length_pushBits, blockPushes, totalWidth_append, totalWidth_append, Nat.add_assoc]
  exact Nat.le_add_right 3 _

/-- The bits of these pushes are a stream whose content is `content`, whatever bits come after it. -/
def InflatesTo (pushes : List Push) (content : List Byte) : Prop :=
  ∀ pad, readBlocks (pushBits pushes ++ pad).length [] (pushBits pushes ++ pad) = some (content, pad)

section
variable {es : List Event} (hes : ∀ e ∈ es, e.inRange = true) {content : List Byte}
  (hexp : expandEvents [] es = some content)
include hes hexp

/-- A stream of one block. -/
theorem inflatesTo_final : InflatesTo (blockPushes true es) content := by
  intro pad
  have hlength := three_le_length_blockPushes true es
  obtain ⟨fuel, hfuel⟩ : ∃ k, (pushBits (blockPushes true es) ++ pad).length = k + 1 :=
    Nat.exists_eq_add_one.mpr (by rw [List.length_append]; omega)
  rw [hfuel, readBlocks_blockPushes true hes hexp, if_pos rfl]

/-- A stream of one block and an empty final one (45_stream_commands R239). -/
theorem inflatesTo_reopened : InflatesTo (blockPushes false es ++ blockPushes true []) content := by
  intro pad
  have hlength := three_le_length_blockPushes false es
  obtain ⟨fuel, hfuel⟩ : ∃ k, (pushBits (blockPushes false es ++ blockPushes true []) ++ pad).length = k + 2 := by
    refine Nat.exists_eq_add_of_le' ?_
    rw [pushBits_append, List.length_append, List.length_append]
    omega
  rw [hfuel, pushBits_append, List.append_assoc, readBlocks_blockPushes false hes hexp, if_neg (by decide),
    readBlocks_blockPushes true (by simp) (h' := content) rfl, if_pos rfl]

end

/-- Bytes that hold such a stream and fewer than 8 bits more (30_encoding R111). -/
theorem inflate_of_streamBits {pushes : List Push} {content body : List Byte} (h : InflatesTo pushes content)
    {pad : List Bool} (hbody : streamBits body = pushBits pushes ++ pad) : inflate body = some (content, pad) := by
  rw [inflate, hbody]
  exact h pad

end Sys2Proof.Machine
end

/-! ## The stream a session has sent so far (45_stream_commands R230 to R243) -/

section
namespace Sys2Proof.Machine

/-- The bytes sent so far and the pending bits are the envelope header and these pushes (43_bit_packer R200). -/
structure Packed (f : Format) (out : List Byte) (p : Packer) (pushes : List Push) : Prop where
  out : out = envelopeHeader f ++ (pushAll ⟨0#32, 0⟩ pushes).1
  packer : p = (pushAll ⟨0#32, 0⟩ pushes).2

theorem Packed.empty (f : Format) : Packed f (envelopeHeader f) ⟨0#32, 0⟩ [] := ⟨by simp, rfl⟩

theorem Packed.append {f : Format} {out : List Byte} {p : Packer} {pushes : List Push} (h : Packed f out p pushes)
    (xs : List Push) : Packed f (out ++ (pushAll p xs).1) (pushAll p xs).2 (pushes ++ xs) := by
  obtain ⟨rfl, rfl⟩ := h
  exact ⟨by rw [pushAll_append, List.append_assoc], by rw [pushAll_append]⟩

/-- Where a session's stream stands in each phase, `out` being the bytes sent and `content` the input consumed. -/
inductive StreamAt (f : Format) (out content : List Byte) (p : Packer) : Phase → Prop
  | init (hout : out = []) (hcontent : content = []) (hp : p = ⟨0#32, 0⟩) : StreamAt f out content p .init
  | eob (hcontent : content = []) (hpacked : Packed f out p []) : StreamAt f out content p .eob
  | inBlock (es : List Event) (hes : ∀ e ∈ es, e.inRange = true) (hexp : expandEvents [] es = some content)
    (hpacked : Packed f out p (blockHeader false ++ eventsPushes es)) : StreamAt f out content p .inBlock
  | trailerPending (pushes : List Push) (hfit : ∀ x ∈ pushes, x.fits = true) (hinflates : InflatesTo pushes content)
    (hpacked : Packed f out p pushes) : StreamAt f out content p .trailerPending
  | done (body : List Byte) (pad : List Bool) (hinflate : inflate body = some (content, pad)) (hpad : pad.length < 8)
    (hout : out = envelopeHeader f ++ body ++ envelopeTrailer f
      (sessionChecksum f Tables.contents.crc (emptyChecksum f) content) (BitVec.ofNat 32 content.length))
    (hp : p = ⟨0#32, 0⟩) : StreamAt f out content p .done

/-- What holds between the calls of a session of format `f` that has sent `out` and consumed `content`
(10_state R29 to R32). -/
structure SessionAt (f : Format) (out content : List Byte) (s : State) : Prop where
  format : s.format = f
  tables : s.tablesReady = true → s.tbl = Tables.contents
  checksum : s.checksum = sessionChecksum f Tables.contents.crc (emptyChecksum f) content
  totalIn : s.totalIn = BitVec.ofNat 32 content.length
  stream : StreamAt f out content (Run.start s).packer s.phase

variable {f : Format} {out content : List Byte} {s : State}

/-! ### One ENCODE -/

/-- The events of the state's input (44_block_encoder R216). -/
theorem sessionEvents_inRange (s : State) : ∀ e ∈ (sessionEvents s).1, e.inRange = true := findEvents_inRange _ _ _

theorem dataPushes_eq (ht : s.tbl = Tables.contents) : dataPushes s = eventsPushes (sessionEvents s).1 := by
  rw [dataPushes, ht, eventsPushes]

theorem eventsPushes_fit {es : List Event} (hes : ∀ e ∈ es, e.inRange = true) :
    ∀ x ∈ eventsPushes es, x.fits = true := by
  intro x hx
  obtain ⟨e, he, hxe⟩ := List.mem_flatMap.mp hx
  exact eventPushes_fit (hes e he) x hxe

theorem blockPushes_fit (final : Bool) {es : List Event} (hes : ∀ e ∈ es, e.inRange = true) :
    ∀ x ∈ blockPushes final es, x.fits = true := by
  simp only [blockPushes, List.forall_mem_append]
  exact ⟨⟨blockHeader_fit final, eventsPushes_fit hes⟩, eobPushes_fit⟩

/-- The events of a piece behind those before it. -/
theorem expandEvents_sessionEvents {es : List Event} (hexp : expandEvents [] es = some content) :
    expandEvents [] (es ++ (sessionEvents s).1) = some (content ++ inputBytes s) := by
  rw [expandEvents_append, hexp]
  exact expandEvents_findEvents _ _ _ _

theorem sentRun_packer (header : List Byte) (pushes : List Push) (exit : Phase) :
    (Run.start (sentRun s header pushes exit).st).packer = (pushAll (Run.start s).packer pushes).2 :=
  Run.packer_emit ((Run.start s).outBytes header) pushes (pushAll_cnt_le (Run.packer_cnt_le _) _)

theorem Phase.beforeBlock_iff (p : Phase) : p.beforeBlock = true ↔ p = .init ∨ p = .eob := by cases p <;> decide

/-- Before the first block nothing is consumed or pending, and with the header ENCODE would send the stream is the
envelope header alone. -/
theorem SessionAt.beforeBlock (h : SessionAt f out content s) (hb : s.phase.beforeBlock = true) :
    content = [] ∧ (Run.start s).packer.cnt = 0 ∧ Packed f (out ++ openingHeader s) (Run.start s).packer [] := by
  have hstream := h.stream
  obtain hp | hp := (Phase.beforeBlock_iff _).mp hb
  · rw [hp] at hstream
    obtain ⟨rfl, rfl, hpacker⟩ := hstream
    rw [openingHeader, if_pos hp, h.format, hpacker]
    exact ⟨rfl, rfl, Packed.empty f⟩
  · rw [hp] at hstream
    obtain ⟨⟩ | ⟨rfl, hpacked⟩ := hstream
    rw [openingHeader, if_neg (by simp [hp]), List.append_nil]
    exact ⟨rfl, congrArg Packer.cnt hpacked.packer, hpacked⟩

theorem SessionAt.inBlock (h : SessionAt f out content s) (hp : s.phase = .inBlock) :
    ∃ es : List Event, (∀ e ∈ es, e.inRange = true) ∧ expandEvents [] es = some content ∧
      Packed f out (Run.start s).packer (blockHeader false ++ eventsPushes es) := by
  have hstream := h.stream
  rw [hp] at hstream
  obtain ⟨⟩ | ⟨⟩ | ⟨es, hes, hexp, hpacked⟩ := hstream
  exact ⟨es, hes, hexp, hpacked⟩

theorem length_openingHeader (s : State) : (openingHeader s).length ≤ 10 := by
  rw [openingHeader]
  split
  · cases s.format <;> decide
  · decide

theorem totalWidth_blockHeader (final : Bool) : totalWidth (blockHeader final) = 3 := rfl

theorem totalWidth_eobPushes : totalWidth (eobPushes Tables.contents) = 7 := by decide

theorem totalWidth_dataPushes (ht : s.tbl = Tables.contents) : totalWidth (dataPushes s) ≤ 9 * s.inLen.toNat := by
  have h := (totalWidth_eventsPushes_bounds (sessionEvents_inRange s)).2
  rwa [sessionEvents, totalSpan_findEvents, inputBytes, Memory.length_firstBytes, ← inputBytes, ← sessionEvents,
    ← dataPushes_eq ht] at h

/-- Header, pending and pushed bits that WCE has room for (70_reset_and_hazards R298). -/
theorem sentRun_fits {header : List Byte} {pushes : List Push} {exit : Phase}
    (hcap : s.outCap.toNat = wce s.inLen.toNat)
    (hbits : 8 * header.length + (Run.start s).packer.cnt + totalWidth pushes ≤ 9 * s.inLen.toNat + 90) :
    (sentRun s header pushes exit).out.length ≤ (sentRun s header pushes exit).st.outCap.toNat := by
  have hout : (sentRun s header pushes exit).st.outCap = s.outCap := rfl
  rw [hout, hcap, wce, sentRun_out, List.length_append, length_pushAll _ _ (Run.packer_cnt_le _)]
  omega

/-- The row of the case table for an input that opens no block. -/
theorem encodeExit_idle {p : Phase} (hb : p.beforeBlock = true) : encodeExit p 0 true = p := by
  revert hb
  cases p <;> simp [Phase.beforeBlock, encodeExit]

/-- A call ends with this command in progress: it fits, and the session goes on with `content` consumed. -/
structure Ends (f : Format) (out content : List Byte) (exit : Phase) (r : Run) : Prop where
  fits : r.out.length ≤ r.st.outCap.toNat
  phase : r.st.phase = exit
  session : SessionAt f (out ++ r.out) content r.st

section
variable (h : SessionAt f out content s) (ht : s.tablesReady = true) (hcap : s.outCap.toNat = wce s.inLen.toNat)
include h ht hcap

/-- Sending pushes behind those before them: checksum and length follow the data (44_block_encoder R217), and the
stream stands where the pushes leave it. -/
theorem ends_sentRun {header : List Byte} {before pushes : List Push} {exit : Phase}
    (hpacked : Packed f (out ++ header) (Run.start s).packer before)
    (hbits : 8 * header.length + (Run.start s).packer.cnt + totalWidth pushes ≤ 9 * s.inLen.toNat + 90)
    (hstream : ∀ {out' p'}, Packed f out' p' (before ++ pushes) → StreamAt f out' (content ++ inputBytes s) p' exit) :
    Ends f out (content ++ inputBytes s) exit (sentRun s header pushes exit) where
  fits := sentRun_fits hcap hbits
  phase := rfl
  session := {
    format := h.format
    tables := h.tables
    checksum := by
      show sessionChecksum s.format s.tbl.crc s.checksum (inputBytes s) = _
      rw [h.format, h.tables ht, h.checksum, sessionChecksum_append]
    totalIn := by
      show s.totalIn + s.inLen = _
      rw [h.totalIn, List.length_append, inputBytes, Memory.length_firstBytes, BitVec.ofNat_add, BitVec.ofNat_toNat,
        BitVec.setWidth_eq]
    stream := by
      have hsent := hpacked.append pushes
      rw [List.append_assoc] at hsent
      rw [sentRun_packer]
      exact hstream hsent }

theorem encodeRun_ends_beforeBlock (more : Bool) (hb : s.phase.beforeBlock = true)
    (hn : 0 < s.inLen.toNat ∨ more = false) :
    Ends f out (content ++ inputBytes s) (if more then .inBlock else .trailerPending) (encodeRun more s) := by
  obtain ⟨rfl, hcnt, hpacked⟩ := h.beforeBlock hb
  have htbl := h.tables ht
  have hwidth := totalWidth_dataPushes htbl
  have hheader := length_openingHeader s
  have hes := sessionEvents_inRange s
  have hexp : expandEvents [] (sessionEvents s).1 = some ([] ++ inputBytes s) := expandEvents_findEvents _ _ _ _
  cases more with
  | true =>
    rw [encodeRun_opens_more hb (by simpa using hn)]
    refine ends_sentRun h ht hcap hpacked ?_ fun hsent => ?_
    · rw [hcnt, totalWidth_append, totalWidth_blockHeader]
      omega
    · rw [dataPushes_eq htbl] at hsent
      exact .inBlock _ hes hexp hsent
  | false =>
    rw [encodeRun_opens_last hb]
    refine ends_sentRun h ht hcap hpacked ?_ fun hsent => ?_
    · rw [hcnt, totalWidth_append, totalWidth_append, totalWidth_blockHeader, htbl, totalWidth_eobPushes]
      omega
    · rw [dataPushes_eq htbl, htbl] at hsent
      exact .trailerPending _ (blockPushes_fit true hes) (inflatesTo_final hes hexp) hsent

theorem encodeRun_ends_inBlock (more : Bool) (hp : s.phase = .inBlock) :
    Ends f out (content ++ inputBytes s) (if more then .inBlock else .trailerPending) (encodeRun more s) := by
  obtain ⟨es, hes, hexp, hpacked⟩ := h.inBlock hp
  have htbl := h.tables ht
  have hwidth := totalWidth_dataPushes htbl
  have hcnt := Run.packer_cnt_le (Run.start s)
  have hall : ∀ e ∈ es ++ (sessionEvents s).1, e.inRange = true :=
    List.forall_mem_append.mpr ⟨hes, sessionEvents_inRange s⟩
  have hexp' := @expandEvents_sessionEvents _ s _ hexp
  rw [← List.append_nil out] at hpacked
  cases more with
  | true =>
    rw [encodeRun_inBlock_more hp]
    refine ends_sentRun h ht hcap hpacked ?_ fun hsent => ?_
    · rw [List.length_nil]
      omega
    · rw [dataPushes_eq htbl, List.append_assoc, ← eventsPushes_append] at hsent
      exact .inBlock _ hall hexp' hsent
  | false =>
    rw [encodeRun_inBlock_last hp]
    refine ends_sentRun h ht hcap hpacked ?_ fun hsent => ?_
    · simp only [htbl, totalWidth_append, totalWidth_blockHeader, totalWidth_eobPushes, List.length_nil]
      omega
    · have hpushes : blockHeader false ++ eventsPushes es ++ (dataPushes s ++ (eobPushes s.tbl ++ blockHeader true ++
          eobPushes s.tbl)) = blockPushes false (es ++ (sessionEvents s).1) ++ blockPushes true [] := by
        simp [blockPushes, dataPushes_eq htbl, htbl, eventsPushes]
      rw [hpushes] at hsent
      exact .trailerPending _ (List.forall_mem_append.mpr ⟨blockPushes_fit false hall, blockPushes_fit true (by simp)⟩)
        (inflatesTo_reopened hall hexp') hsent

/-- Every legal ENCODE, by the case table of 45_stream_commands R241. -/
theorem encodeRun_ends (more : Bool) (hp : s.phase.allowsEncode = true) :
    Ends f out (content ++ inputBytes s) (encodeExit s.phase s.inLen.toNat more) (encodeRun more s) := by
  by_cases hphase : s.phase = .inBlock
  · have hends := encodeRun_ends_inBlock h ht hcap more hphase
    rw [hphase]
    cases more <;> exact hends
  have hb : s.phase.beforeBlock = true := by revert hp hphase; cases s.phase <;> decide
  by_cases hidle : s.inLen.toNat = 0 ∧ more = true
  · obtain ⟨hn, rfl⟩ := hidle
    have hinput : inputBytes s = [] := by rw [inputBytes, hn]; rfl
    rw [encodeRun_idle hb hn, hn, encodeExit_idle hb, hinput, List.append_nil]
    exact ⟨Nat.zero_le _, rfl, by simpa using h⟩
  · have hn : 0 < s.inLen.toNat ∨ more = false := by
      cases more with
      | true => exact .inl (by simp at hidle; omega)
      | false => exact .inr rfl
    have hends := encodeRun_ends_beforeBlock h ht hcap more hb hn
    cases more with
    | true => rwa [(encodeTable_opens_more hb (by simpa using hn)).2]
    | false => rwa [(encodeTable_opens_last _ hb).2]

end

/-! ### SEND_HEADER and FINISH -/

theorem headerRun_ends (h : SessionAt f out content s) (hp : s.phase = .init)
    (hcap : s.outCap.toNat = 10) : Ends f out content .eob (headerRun s) := by
  obtain ⟨hcontent, -, hpacked⟩ := h.beforeBlock (by rw [hp]; rfl)
  have hheader : (headerRun s).out = openingHeader s := by simp [headerRun, openingHeader, hp]
  have hcap' : (headerRun s).st.outCap = s.outCap := rfl
  refine ⟨by rw [hheader, hcap', hcap]; exact length_openingHeader s, rfl, { h with stream := ?_ }⟩
  rw [hheader]
  exact .eob hcontent hpacked

theorem length_envelopeTrailer (f : Format) (c n : Word) : (envelopeTrailer f c n).length ≤ 8 := by
  cases f <;> simp [envelopeTrailer, littleEndian, bigEndian]

theorem finishRun_ends (h : SessionAt f out content s) (hp : s.phase = .trailerPending)
    (hcap : s.outCap.toNat = 12) : Ends f out content .done (finishRun s) := by
  have hstream := h.stream
  rw [hp] at hstream
  obtain ⟨⟩ | ⟨⟩ | ⟨⟩ | ⟨pushes, hfit, hinflates, hpacked⟩ := hstream
  have hout : (finishRun s).out =
      (flushToByte (Run.start s).packer).1 ++ envelopeTrailer s.format s.checksum s.totalIn := rfl
  have hflush : (flushToByte (Run.start s).packer).1.length ≤ 1 := by
    rw [length_flushToByte]
    split <;> decide
  have htrailer := length_envelopeTrailer s.format s.checksum s.totalIn
  obtain ⟨pad, hpad, hlt⟩ := streamBits_flushToByte (Run.packer_cnt_le (Run.start s))
  have hbits := streamBits_pushAll (p := ⟨0#32, 0⟩) (by decide) hfit
  refine ⟨?_, rfl, { h with stream := ?_ }⟩
  · have hcap' : (finishRun s).st.outCap = s.outCap := rfl
    rw [hcap', hcap, hout, List.length_append]
    omega
  · refine .done ((pushAll ⟨0#32, 0⟩ pushes).1 ++ (flushToByte (Run.start s).packer).1) pad
      (inflate_of_streamBits hinflates ?_) hlt ?_ rfl
    · rw [streamBits_append, hpad, hpacked.packer, ← List.append_assoc, hbits]
      rfl
    · rw [hout, hpacked.out, h.format, h.checksum, h.totalIn]
      simp only [List.append_assoc]

end Sys2Proof.Machine
end

/-! ## One call of a session completes (45_stream_commands R242) -/

section
namespace Sys2Proof.Machine

variable {f : Format} {out content : List Byte} {s : State}

/-- The input a call adds to the stream's content. -/
def SessionCall.data : SessionCall → List Byte
  | .sendHeader => []
  | .more piece => piece
  | .last piece => piece
  | .finish => []
  | .side _ _ _ => []

/-- The phase a call that is not refused leads to (60_exceptions R275). -/
def SessionCall.exitPhase : SessionCall → Phase → Phase
  | .sendHeader, _ => .eob
  | .more piece, p => encodeExit p piece.length true
  | .last piece, p => encodeExit p piece.length false
  | .finish, _ => .done
  | .side _ _ _, p => p

/-- The call is refused before TBLINIT (60_exceptions R263). -/
def SessionCall.needsTables : SessionCall → Bool
  | .sendHeader => false
  | .more _ => true
  | .last _ => true
  | .finish => false
  | .side command _ _ => decide (command ≠ .tblinit)

/-- The call completes without violation and the session goes on from there. -/
def SessionCall.Completes (f : Format) (out content : List Byte) (c : SessionCall) (s : State) : Prop :=
  ∃ t, exec c.instr (c.prepare s) = .next t ∧ t.cc = .ok ∧ t.phase = c.exitPhase s.phase ∧
    SessionAt f (out ++ c.takes t) (content ++ c.data) t

/-- What the host sets before a call is no part of the session. -/
theorem SessionAt.prepare (h : SessionAt f out content s) (c : SessionCall) :
    SessionAt f out content (c.prepare s) := by
  cases c <;> exact { h with }

theorem SessionAt.complete (h : SessionAt f out content s) (v : Word) : SessionAt f out content (complete v s) :=
  { h with }

theorem SessionAt.fillTables (h : SessionAt f out content s) : SessionAt f out content (fillTables s) := by
  cases ht : s.tablesReady with
  | true => rwa [fillTables_ready ht]
  | false =>
    rw [fillTables_fresh ht]
    exact { h with tables := fun _ => rfl }

theorem SessionCall.completes_of_ends {c : SessionCall} {r : Run} (hc : c.isStream = true)
    (hexec : exec c.instr (c.prepare s) = r.finish) (hr : Ends f out (content ++ c.data) (c.exitPhase s.phase) r) :
    c.Completes f out content s := by
  refine ⟨r.finished, hexec.trans (Run.finish_fits hr.fits), rfl, hr.phase, ?_⟩
  rw [SessionCall.takes, if_pos hc, outputOf_finished hr.fits]
  exact { hr.session with }

theorem toNat_ofNat_of_lt {n : Nat} (h : n < 4294967296) : (BitVec.ofNat 32 n).toNat = n := Nat.mod_eq_of_lt h

/-- An ENCODE of bytes the host has just bound (30_encoding R99). -/
theorem encodeRun_feed_ends (h : SessionAt f out content s) (ht : s.tablesReady = true) (more : Bool)
    (hp : s.phase.allowsEncode = true) {piece : List Byte} (hpiece : wce piece.length < 4294967296) :
    Ends f out (content ++ piece) (encodeExit s.phase piece.length more) (encodeRun more (feed piece s)) := by
  have hlength : piece.length < 4294967296 := by unfold wce at hpiece; omega
  have hinLen : (feed piece s).inLen.toNat = piece.length := toNat_ofNat_of_lt hlength
  have hinput : inputBytes (feed piece s) = piece := by
    rw [inputBytes, hinLen]
    exact Memory.firstBytes_ofBytes hlength.le
  have hfed : SessionAt f out content (feed piece s) := { h with }
  have hends := encodeRun_ends hfed ht (by rw [hinLen]; exact toNat_ofNat_of_lt hpiece) more hp
  rwa [hinput, hinLen] at hends

theorem allowsEncode_of_accepts {more : BitVec 1} {p : Phase} (h : phaseRefuses (.encode more) p = false) :
    p.allowsEncode = true := by
  revert h
  cases p <;> simp [phaseRefuses, Phase.allowsEncode]

theorem fillTables_phase (s : State) : (fillTables s).phase = s.phase := by
  cases ht : s.tablesReady with
  | true => rw [fillTables_ready ht]
  | false => rw [fillTables_fresh ht]

/-- A checksum command with tables ready sets RESULT and completes (41_checksum R166 to R169). -/
theorem exec_checksum_side {command : SideCommand} (hc : command ≠ .tblinit) (ht : s.tablesReady = true) :
    ∃ v, exec command.instr s = .next (complete v s) := by
  have hready (v : Word) : checksumCommand v s = complete v s := if_pos ht
  cases command with
  | tblinit => exact absurd rfl hc
  | crc32Byte byte => exact ⟨_, congrArg _ (hready _)⟩
  | crc32Block => exact ⟨_, congrArg _ (hready _)⟩
  | adler32Byte byte => exact ⟨_, congrArg _ (hready _)⟩
  | adler32Block => exact ⟨_, congrArg _ (hready _)⟩

/-- Every call that is accepted in its phase and has its tables completes, with the bytes the stream gains. -/
theorem SessionCall.completes {c : SessionCall} (h : SessionAt f out content s)
    (haccept : phaseRefuses c.instr s.phase = false) (ht : c.needsTables = true → s.tablesReady = true)
    (hpiece : wce c.data.length < 4294967296) : c.Completes f out content s := by
  have hprep := h.prepare c
  cases c with
  | sendHeader =>
    have hp : s.phase = .init := by simpa [SessionCall.instr, phaseRefuses] using haccept
    have hends := headerRun_ends hprep hp rfl
    exact SessionCall.completes_of_ends rfl (if_pos hp) (by rwa [SessionCall.data, List.append_nil])
  | more piece =>
    exact SessionCall.completes_of_ends rfl (exec_encode_legal 1#1 (ht rfl) (allowsEncode_of_accepts haccept))
      (encodeRun_feed_ends h (ht rfl) true (allowsEncode_of_accepts haccept) hpiece)
  | last piece =>
    exact SessionCall.completes_of_ends rfl (exec_encode_legal 0#1 (ht rfl) (allowsEncode_of_accepts haccept))
      (encodeRun_feed_ends h (ht rfl) false (allowsEncode_of_accepts haccept) hpiece)
  | finish =>
    have hp : s.phase = .trailerPending := by simpa [SessionCall.instr, phaseRefuses] using haccept
    have hends := finishRun_ends hprep hp rfl
    exact SessionCall.completes_of_ends rfl (if_pos hp) (by rwa [SessionCall.data, List.append_nil])
  | side command seed bytes =>
    have hkeep {t : State} (ht : SessionAt f out content t) :
        SessionAt f (out ++ (SessionCall.side command seed bytes).takes t)
          (content ++ (SessionCall.side command seed bytes).data) t := by
      simpa [SessionCall.takes, SessionCall.data, SessionCall.isStream] using ht
    by_cases hc : command = .tblinit
    · subst hc
      exact ⟨_, rfl, rfl, fillTables_phase _, hkeep (hprep.fillTables.complete _)⟩
    · have hready : s.tablesReady = true := ht (decide_eq_true hc)
      obtain ⟨v, hv⟩ := exec_checksum_side (s := (SessionCall.side command seed bytes).prepare s) hc hready
      exact ⟨_, hv, rfl, rfl, hkeep (hprep.complete v)⟩

end Sys2Proof.Machine
end

/-! ## Whole sessions (45_stream_commands R242; 70_reset_and_hazards R294) -/

section
namespace Sys2Proof.Machine

variable {f : Format} {out content : List Byte} {s : State}

/-- The phase the calls lead to, none where one of them is refused in its phase (60_exceptions R264, R275). -/
def phaseAfterCalls : Phase → List SessionCall → Option Phase
  | p, [] => some p
  | p, c :: cs => if phaseRefuses c.instr p then none else phaseAfterCalls (c.exitPhase p) cs

/-- The input of the calls' stream. -/
def contentOf (calls : List SessionCall) : List Byte := calls.flatMap SessionCall.data

theorem tablesBeforeUse_ready (calls : List SessionCall) : tablesBeforeUse true calls = true := by
  cases calls <;> rfl

theorem tablesBeforeUse_cons {ready : Bool} {c : SessionCall} {cs : List SessionCall}
    (h : tablesBeforeUse ready (c :: cs) = true) :
    (c.needsTables = true → ready = true) ∧ (c.instr ≠ .tblinit → tablesBeforeUse ready cs = true) := by
  cases ready with
  | true => exact ⟨fun _ => rfl, fun _ => tablesBeforeUse_ready cs⟩
  | false =>
    cases c with
    | side command seed bytes =>
      cases command <;>
        simp_all [tablesBeforeUse, SessionCall.needsTables, SessionCall.instr, SideCommand.instr]
    | _ => simp_all [tablesBeforeUse, SessionCall.needsTables]

theorem exec_tblinit_ready {t : State} (h : exec .tblinit s = .next t) : t.tablesReady = true := by
  injection h with h
  subst h
  cases hs : s.tablesReady with
  | true => rw [fillTables_ready hs, complete_tablesReady, hs]
  | false => rw [fillTables_fresh hs, complete_tablesReady]

/-- After a call of a session, TBLINIT still comes before the first use of the tables that is left. -/
theorem tablesBeforeUse_after {c : SessionCall} {cs : List SessionCall} {t : State}
    (h : tablesBeforeUse s.tablesReady (c :: cs) = true) (ht : exec c.instr (c.prepare s) = .next t) :
    tablesBeforeUse t.tablesReady cs = true := by
  by_cases hc : c.instr = .tblinit
  · rw [hc] at ht
    rw [exec_tblinit_ready ht]
    exact tablesBeforeUse_ready cs
  · obtain ⟨-, -, -, -, -, -, -, -, -, -, hready, -⟩ := commandFrame _ _ _ ht
    rw [hready hc, SessionCall.prepare_tablesReady]
    exact (tablesBeforeUse_cons h).2 hc

theorem runCalls_completes {calls : List SessionCall} {exit : Phase} (h : SessionAt f out content s)
    (hphase : phaseAfterCalls s.phase calls = some exit) (htables : tablesBeforeUse s.tablesReady calls = true)
    (hpieces : ∀ c ∈ calls, wce c.data.length < 4294967296) :
    ∃ more t, runCalls calls s = some (more, t) ∧ t.phase = exit ∧
      SessionAt f (out ++ more) (content ++ contentOf calls) t := by
  induction calls generalizing s out content with
  | nil => exact ⟨[], s, rfl, Option.some.inj hphase, by simpa [contentOf] using h⟩
  | cons c cs ih =>
    obtain ⟨hpiece, hrest⟩ := List.forall_mem_cons.mp hpieces
    rw [phaseAfterCalls] at hphase
    split at hphase
    · cases hphase
    rename_i haccept
    obtain ⟨t, hexec, hcc, hexit, hsession⟩ :=
      SessionCall.completes h (Bool.eq_false_of_not_eq_true haccept) (tablesBeforeUse_cons htables).1 hpiece
    rw [← hexit] at hphase
    obtain ⟨more, u, hrun, hu, hsession'⟩ := ih hsession hphase (tablesBeforeUse_after htables hexec) hrest
    refine ⟨c.takes t ++ more, u, by rw [runCalls_cons hexec hcc, hrun]; rfl, hu, ?_⟩
    rw [← List.append_assoc, contentOf, List.flatMap_cons, ← List.append_assoc]
    exact hsession'

/-! ### Only the stream calls count -/

theorem phaseAfterCalls_filter (p : Phase) (calls : List SessionCall) :
    phaseAfterCalls p (calls.filter SessionCall.isStream) = phaseAfterCalls p calls := by
  induction calls generalizing p with
  | nil => rfl
  | cons c cs ih =>
    cases c with
    | side command seed bytes =>
      have haccept : phaseRefuses command.instr p = false := by cases command <;> rfl
      simp [SessionCall.isStream, phaseAfterCalls, SessionCall.instr, SessionCall.exitPhase, haccept, ih]
    | _ => simp [List.filter_cons, SessionCall.isStream, phaseAfterCalls, ih]

theorem contentOf_filter (calls : List SessionCall) :
    contentOf (calls.filter SessionCall.isStream) = contentOf calls := by
  induction calls with
  | nil => rfl
  | cons c cs ih =>
    rw [contentOf] at ih
    cases c <;> simp [List.filter_cons, SessionCall.isStream, contentOf, SessionCall.data, ih]

/-! ### The sessions of the grammar -/

theorem encode_accepted (more : BitVec 1) {p : Phase} (hp : p.allowsEncode = true) :
    phaseRefuses (.encode more) p = false := by
  revert hp
  cases p <;> simp [phaseRefuses, Phase.allowsEncode]

theorem encodeExit_more_allowsEncode {p : Phase} (hp : p.allowsEncode = true) (n : Nat) :
    (encodeExit p n true).allowsEncode = true := by
  revert hp
  cases p <;> cases n <;> simp [encodeExit, Phase.allowsEncode]

theorem encodeExit_last {p : Phase} (hp : p.allowsEncode = true) (n : Nat) :
    encodeExit p n false = .trailerPending := by
  revert hp
  cases p <;> simp [encodeExit, Phase.allowsEncode]

theorem phaseAfterCalls_accepted {p : Phase} (c : SessionCall) (h : phaseRefuses c.instr p = false)
    (cs : List SessionCall) : phaseAfterCalls p (c :: cs) = phaseAfterCalls (c.exitPhase p) cs := by
  rw [phaseAfterCalls, h]
  rfl

/-- Pieces, the last piece and FINISH, from wherever ENCODE is allowed. -/
theorem phaseAfterCalls_pieces {p : Phase} (hp : p.allowsEncode = true) (pieces : List (List Byte)) (last : List Byte) :
    phaseAfterCalls p (pieces.map .more ++ [.last last, .finish]) = some .done := by
  induction pieces generalizing p with
  | nil =>
    rw [List.map_nil, List.nil_append, phaseAfterCalls_accepted (.last last) (encode_accepted 0#1 hp),
      SessionCall.exitPhase, encodeExit_last hp]
    rfl
  | cons piece pieces ih =>
    rw [List.map_cons, List.cons_append, phaseAfterCalls_accepted (.more piece) (encode_accepted 1#1 hp)]
    exact ih (encodeExit_more_allowsEncode hp _)

theorem phaseAfterCalls_sessionShape (idle : Nat) (header : Bool) (pieces : List (List Byte)) (last : List Byte) :
    phaseAfterCalls .init (sessionShape idle header pieces last) = some .done := by
  induction idle with
  | zero => cases header <;> exact phaseAfterCalls_pieces rfl pieces last
  | succ idle ih => exact ih

theorem contentOf_append (as bs : List SessionCall) : contentOf (as ++ bs) = contentOf as ++ contentOf bs :=
  List.flatMap_append

theorem contentOf_sessionShape (idle : Nat) (header : Bool) (pieces : List (List Byte)) (last : List Byte) :
    contentOf (sessionShape idle header pieces last) = pieces.flatten ++ last := by
  have hidle : contentOf (List.replicate idle (.more [])) = [] := by simp [contentOf, SessionCall.data]
  have hheader : contentOf (if header then [.sendHeader] else []) = [] := by cases header <;> rfl
  have hpieces : contentOf (pieces.map .more) = pieces.flatten := by
    simp [contentOf, SessionCall.data, List.flatMap_map]
  have hlast : contentOf [.last last, .finish] = last := by simp [contentOf, SessionCall.data]
  rw [sessionShape, contentOf_append, contentOf_append, contentOf_append, hidle, hheader, hpieces, hlast]
  rfl

theorem data_of_mem_sessionShape {idle : Nat} {header : Bool} {pieces : List (List Byte)} {last : List Byte}
    {c : SessionCall} (hc : c ∈ sessionShape idle header pieces last) : c.data = [] ∨ c.data ∈ last :: pieces := by
  simp only [sessionShape, List.mem_append, List.mem_replicate, List.mem_map, List.mem_cons, List.not_mem_nil,
    or_false] at hc
  obtain ((⟨-, rfl⟩ | hheader) | ⟨piece, hpiece, rfl⟩) | rfl | rfl := hc
  · exact .inl rfl
  · have : c = .sendHeader := by cases header <;> simp_all
    subst this
    exact .inl rfl
  · exact .inr (List.mem_cons_of_mem _ hpiece)
  · exact .inr List.mem_cons_self
  · exact .inl rfl

/-- A call outside the stream has no data, so the bound on the shape's pieces is one on all calls. -/
theorem wce_data_lt {calls : List SessionCall} {idle : Nat} {header : Bool} {pieces : List (List Byte)}
    {last : List Byte} (hshape : calls.filter SessionCall.isStream = sessionShape idle header pieces last)
    (hpieces : ∀ piece ∈ last :: pieces, wce piece.length < 4294967296) :
    ∀ c ∈ calls, wce c.data.length < 4294967296 := by
  intro c hc
  have hempty : wce ([] : List Byte).length < 4294967296 := by decide
  cases hstream : c.isStream with
  | true =>
    have hmem : c ∈ sessionShape idle header pieces last := hshape ▸ List.mem_filter.mpr ⟨hc, hstream⟩
    obtain hdata | hdata := data_of_mem_sessionShape hmem
    · rwa [hdata]
    · exact hpieces _ hdata
  | false =>
    cases c with
    | side command seed bytes => exact hempty
    | _ => cases hstream

theorem formatOf_formatCode (f : Format) : formatOf (formatCode f) = some f := by cases f <;> rfl

theorem exec_init (level : BitVec 1) (f : Format) (s : State) :
    exec (.init level (formatCode f)) s = .next (complete 0#32 (startSession f (levelEnables level) s)) := by
  rw [exec, execInit, formatOf_formatCode]

/-- INIT starts a session that has sent and consumed nothing (45_stream_commands R237). -/
theorem sessionAt_startSession (ht : s.tablesReady = true → s.tbl = Tables.contents) (f : Format) (compEn : Bool) :
    SessionAt f [] [] (startSession f compEn s) where
  format := rfl
  tables := ht
  checksum := (sessionChecksum_nil f _).symm
  totalIn := rfl
  stream := .init rfl rfl rfl

/-- What a session in phase DONE has left (30_encoding R100). -/
theorem SessionAt.done (h : SessionAt f out content s) (hp : s.phase = .done) :
    ∃ body pad, out = envelopeHeader f ++ body ++ envelopeTrailer f
        (sessionChecksum f Tables.contents.crc (emptyChecksum f) content) (BitVec.ofNat 32 content.length) ∧
      inflate body = some (content, pad) ∧ pad.length < 8 ∧ s.pend = 0#32 ∧ s.cnt = 0#3 := by
  have hstream := h.stream
  rw [hp] at hstream
  obtain ⟨⟩ | ⟨⟩ | ⟨⟩ | ⟨⟩ | ⟨body, pad, hinflate, hpad, hout, hpacker⟩ := hstream
  exact ⟨body, pad, hout, hinflate, hpad, congrArg Packer.pend hpacker,
    BitVec.eq_of_toNat_eq (congrArg Packer.cnt hpacker)⟩

/-- Settles O53: every call completes and keeps `SessionAt`, the calls of the grammar lead to DONE, and there the
stream is header, body and trailer. -/
theorem sessionsRoundTrip : Obligations.SessionsRoundTrip := by
  unfold Obligations.SessionsRoundTrip
  intro s level fmt f calls idle header pieces last htbl htables hfmt hshape hpieces content checksum length
  subst hfmt
  have hstart : SessionAt f [] [] (complete 0#32 (startSession f (levelEnables level) s)) :=
    (sessionAt_startSession htbl f _).complete _
  have hphase : phaseAfterCalls .init calls = some .done := by
    rw [← phaseAfterCalls_filter, hshape, phaseAfterCalls_sessionShape]
  have hcontent : contentOf calls = content := by rw [← contentOf_filter, hshape, contentOf_sessionShape]
  obtain ⟨out, t, hrun, ht, hsession⟩ := runCalls_completes hstart hphase htables (wce_data_lt hshape hpieces)
  rw [List.nil_append, List.nil_append, hcontent] at hsession
  obtain ⟨body, pad, hout, hinflate, hpad, hpend, hcnt⟩ := hsession.done ht
  refine ⟨body, pad, t, ?_, hinflate, hpad, ht, hpend, hcnt, hsession.checksum, hsession.totalIn⟩
  rw [runSession, exec_init, ← hout]
  exact hrun

end Sys2Proof.Machine
end

/-! ## The CRC table (40_tables_init R142; 41_checksum R161) -/

section
namespace Sys2Proof.Machine

/-- A round shifts the register down and divides by the polynomial where bit 0 falls out. -/
theorem crcRound_eq (c : Word) : crcRound c = (c >>> 1) ^^^ (if c.getLsbD 0 then crcPoly else 0#32) := by
  rw [crcRound, BitVec.and_one_eq_setWidth_ofBool_getLsbD]
  cases c.getLsbD 0 <;> simp

/-- A round is linear over exclusive or: the shift is, and so is the choice by bit 0. -/
theorem crcRound_xor (a b : Word) : crcRound (a ^^^ b) = crcRound a ^^^ crcRound b := by
  have hchoice (p q : Bool) : (if p ^^ q then crcPoly else 0#32) =
      (if p then crcPoly else 0#32) ^^^ (if q then crcPoly else 0#32) := by
    cases p <;> cases q <;> simp
  simp only [crcRound_eq, BitVec.getLsbD_xor, BitVec.ushiftRight_xor_distrib, hchoice]
  ac_rfl

theorem crcRounds_xor (n : Nat) (a b : Word) : crcRounds n (a ^^^ b) = crcRounds n a ^^^ crcRounds n b := by
  induction n generalizing a b with
  | zero => rfl
  | succ n ih => rw [crcRounds, crcRound_xor, ih, ← crcRounds, ← crcRounds]

/-- While only zeros fall out, the rounds are a plain shift. -/
theorem crcRounds_of_low_zero {n : Nat} {c : Word} (h : ∀ i < n, c.getLsbD i = false) : crcRounds n c = c >>> n := by
  induction n generalizing c with
  | zero => simp [crcRounds]
  | succ n ih =>
    have hround : crcRound c = c >>> 1 := by
      rw [crcRound_eq, h 0 n.succ_pos]
      simp
    have hrest : ∀ i < n, (c >>> 1).getLsbD i = false := fun i hi => by
      rw [BitVec.getLsbD_ushiftRight]
      exact h _ (by omega)
    rw [crcRounds, hround, ih hrest, ← BitVec.shiftRight_add, Nat.add_comm]

@[simp] theorem crc_length : Tables.contents.crc.length = 256 := by simp [Tables.contents]

/-- An entry of the CRC table (40_tables_init R142). -/
theorem crc_getD {i : Nat} (h : i < 256) : Tables.contents.crc.getD i 0#32 = crcEntry i := by
  simp [Tables.contents, List.getD, h]

/-- The table entry of a register's low byte is eight rounds of that byte. -/
theorem crc_getD_lowByte (c : Word) :
    Tables.contents.crc.getD (c &&& 0xFF#32).toNat 0#32 = crcRounds 8 (c &&& 0xFF#32) := by
  have hlow : (c &&& 0xFF#32).toNat < 256 := by
    rw [BitVec.toNat_and]
    exact Nat.lt_succ_of_le Nat.and_le_right
  rw [crc_getD hlow, crcEntry, BitVec.ofNat_toNat, BitVec.setWidth_eq]

/-- Eight rounds divide the low byte and shift the bits above it down: the two parts are taken one by one. -/
theorem crcRounds_eight (c : Word) : crcRounds 8 c = crcRounds 8 (c &&& 0xFF#32) ^^^ (c >>> 8) := by
  have hsplit : (c &&& 0xFF#32) ^^^ (c ^^^ (c &&& 0xFF#32)) = c := by
    rw [BitVec.xor_comm c, ← BitVec.xor_assoc, BitVec.xor_self, BitVec.zero_xor]
  have hlow : ∀ i < 8, (c ^^^ (c &&& 0xFF#32)).getLsbD i = false := by
    intro i hi
    interval_cases i <;> simp
  have hhigh : (c ^^^ (c &&& 0xFF#32)) >>> 8 = c >>> 8 := by
    simp [BitVec.ushiftRight_xor_distrib, BitVec.ushiftRight_and_distrib]
  calc crcRounds 8 c
      = crcRounds 8 ((c &&& 0xFF#32) ^^^ (c ^^^ (c &&& 0xFF#32))) := by rw [hsplit]
    _ = crcRounds 8 (c &&& 0xFF#32) ^^^ (c >>> 8) := by rw [crcRounds_xor, crcRounds_of_low_zero hlow, hhigh]

/-- A byte has no bits to shift down into the register. -/
theorem xor_byte_ushiftRight_eight (c : Word) (b : Byte) : (c ^^^ b.setWidth 32) >>> 8 = c >>> 8 := by
  have hb : b.setWidth 32 >>> 8 = 0#32 := by
    ext i
    simp
  rw [BitVec.ushiftRight_xor_distrib, hb, BitVec.xor_zero]

/-- Settles O14: the rounds are linear, so they may be taken of the low byte, which gives the table's entry, and of the
bits above it, which gives a shift. -/
theorem crcTableStepIsEightBitwiseRounds : Obligations.CrcTableStepIsEightBitwiseRounds := by
  unfold Obligations.CrcTableStepIsEightBitwiseRounds
  intro c b
  rw [crcStep, crc_getD_lowByte, crcRounds_eight (c ^^^ b.setWidth 32), xor_byte_ushiftRight_eight]

end Sys2Proof.Machine
end

/-! ## TBLINIT (40_tables_init R141) -/

section
namespace Sys2Proof.Machine

theorem exec_tblinit_of_ready {s : State} (h : s.tablesReady = true) : exec .tblinit s = .next (complete 0#32 s) :=
  congrArg (fun t => Host.Outcome.next (complete 0#32 t)) (fillTables_ready h)

theorem exec_tblinit_of_fresh {s : State} (h : s.tablesReady = false) :
    exec .tblinit s = .next (complete 0#32 { s with tbl := Tables.contents, tablesReady := true }) :=
  congrArg (fun t => Host.Outcome.next (complete 0#32 t)) (fillTables_fresh h)

/-- Settles O13: the two cases of `fillTables`, the reset state being one of the first. -/
theorem tblinitFillsTheTablesOnce : Obligations.TblinitFillsTheTablesOnce := by
  unfold Obligations.TblinitFillsTheTablesOnce
  refine ⟨by decide, fun s hs => ?fresh, fun s hs => ?ready, _, exec_tblinit_of_fresh rfl, by decide, rfl⟩
  case fresh =>
    exact ⟨Tables.contents, exec_tblinit_of_fresh hs, crc_length, fun i hi => crc_getD hi,
      by simp [Tables.contents], fun n hn => litLen_getD hn, rfl, rfl⟩
  case ready => exact exec_tblinit_of_ready hs

end Sys2Proof.Machine
end

/-! ## Checksums across calls (41_checksum R163, R164) -/

section
namespace Sys2Proof.Machine

theorem crc32Update_nil (table : List Word) (v : Word) : crc32Update table v [] = v := by
  simp [crc32Update]

/-- A word is packed of its halves (41_checksum R162). -/
theorem adlerPack_adlerHalves (v : Word) : adlerPack (adlerHalves v) = v := by
  have hv := v.isLt
  apply BitVec.eq_of_toNat_eq
  simp only [adlerPack, adlerHalves, BitVec.toNat_ofNat, BitVec.extractLsb'_toNat, Nat.shiftRight_eq_div_pow]
  omega

theorem adler32Update_nil (v : Word) : adler32Update v [] = v := adlerPack_adlerHalves v

/-- Settles O16: each checksum is a fold over the bytes, and its word form loses nothing between two folds. -/
theorem checksumsCompose : Obligations.ChecksumsCompose := by
  unfold Obligations.ChecksumsCompose
  exact fun table v s1 s2 => ⟨crc32Update_append table v s1 s2, crc32Update_nil table v,
    adler32Update_append v s1 s2, adler32Update_nil v⟩

/-- Settles O17: the first byte reduces both sub-sums, whatever they were, and the later ones keep them reduced. -/
theorem adlerHalvesAreReduced : Obligations.AdlerHalvesAreReduced := by
  unfold Obligations.AdlerHalvesAreReduced
  intro v b bytes
  have hfirst : AdlerReduced (adlerHalves (adler32Update v [b])) := by
    have hstep := adlerStep_reduced (adlerHalves v) b
    exact (adlerHalves_adlerPack hstep.lt_65536.1 hstep.lt_65536.2).symm ▸ hstep
  have hall := adler32Update_reduced hfirst bytes
  rwa [adler32Update_append] at hall

end Sys2Proof.Machine
end

/-! ## The checksum commands (41_checksum R165 to R169) -/

section
namespace Sys2Proof.Machine

theorem checksumCommand_of_ready {s : State} (h : s.tablesReady = true) (v : Word) :
    checksumCommand v s = complete v s := if_pos h

section
variable {s : State} (h : s.tablesReady = true)
include h

theorem exec_crc32Byte_of_ready (b : Byte) :
    exec (.crc32Byte b) s = .next (complete (crc32Update s.tbl.crc s.seed [b]) s) :=
  congrArg Host.Outcome.next (checksumCommand_of_ready h _)

theorem exec_crc32Block_of_ready :
    exec .crc32Block s = .next (complete (crc32Update s.tbl.crc s.seed (inputBytes s)) s) :=
  congrArg Host.Outcome.next (checksumCommand_of_ready h _)

theorem exec_adler32Byte_of_ready (b : Byte) :
    exec (.adler32Byte b) s = .next (complete (adler32Update s.seed [b]) s) :=
  congrArg Host.Outcome.next (checksumCommand_of_ready h _)

theorem exec_adler32Block_of_ready :
    exec .adler32Block s = .next (complete (adler32Update s.seed (inputBytes s)) s) :=
  congrArg Host.Outcome.next (checksumCommand_of_ready h _)

end

/-- Settles O15, by what each command does once the tables are ready. -/
theorem checksumCommandsComplete : Obligations.ChecksumCommandsComplete := by
  unfold Obligations.ChecksumCommandsComplete
  exact fun s b h => ⟨exec_crc32Byte_of_ready h b, exec_crc32Block_of_ready h,
    exec_adler32Byte_of_ready h b, exec_adler32Block_of_ready h⟩

/-- A byte-wise command whose RESULT is an update, by tables, of SEED by its byte, where the update composes across
calls (41_checksum R164). -/
structure UpdatesByByte (command : Byte → Instr) (update : Tables → Word → List Byte → Word) : Prop where
  exec_ready : ∀ (s : State) (b : Byte), s.tablesReady = true →
    exec (command b) s = .next (complete (update s.tbl s.seed [b]) s)
  nil : ∀ tbl v, update tbl v [] = v
  append : ∀ tbl v s1 s2, update tbl (update tbl v s1) s2 = update tbl v (s1 ++ s2)

theorem crc32Byte_updatesByByte : UpdatesByByte .crc32Byte fun tbl => crc32Update tbl.crc where
  exec_ready _ b h := exec_crc32Byte_of_ready h b
  nil tbl := crc32Update_nil tbl.crc
  append tbl := crc32Update_append tbl.crc

theorem adler32Byte_updatesByByte : UpdatesByByte .adler32Byte fun _ => adler32Update where
  exec_ready _ b h := exec_adler32Byte_of_ready h b
  nil _ := adler32Update_nil
  append _ := adler32Update_append

theorem UpdatesByByte.chainBytes_eq {command : Byte → Instr} {update : Tables → Word → List Byte → Word}
    (hc : UpdatesByByte command update) (bytes : List Byte) {s : State} (h : s.tablesReady = true) :
    chainBytes command bytes s = some (update s.tbl s.seed bytes) := by
  induction bytes generalizing s with
  | nil => exact congrArg some (hc.nil s.tbl s.seed).symm
  | cons b bs ih =>
    -- The rest of the chain runs from a state that differs in RESULT, SEED and `cc` only.
    have hrest := ih (s := { complete (update s.tbl s.seed [b]) s with seed := update s.tbl s.seed [b] }) h
    rw [chainBytes, hc.exec_ready s b h]
    exact hrest.trans (congrArg some (hc.append s.tbl s.seed [b] bs))

/-- Settles O18: the block command and the chain of byte commands both give the update of SEED by the whole input. -/
theorem blockCommandEqualsByteCommands : Obligations.BlockCommandEqualsByteCommands := by
  unfold Obligations.BlockCommandEqualsByteCommands
  exact fun s h => ⟨⟨_, exec_crc32Block_of_ready h, crc32Byte_updatesByByte.chainBytes_eq (inputBytes s) h⟩,
    ⟨_, exec_adler32Block_of_ready h, adler32Byte_updatesByByte.chainBytes_eq (inputBytes s) h⟩⟩

end Sys2Proof.Machine
end

/-! ## What commands leave of the session (41_checksum R166, R170; 45_stream_commands R238, R240) -/

section
namespace Sys2Proof.Machine

/-- The session's descriptor and match table are as before: what no command but INIT and the stream commands changes. -/
structure SessionKept (s t : State) : Prop where
  checksum : t.checksum = s.checksum
  totalIn : t.totalIn = s.totalIn
  mtab : t.mtab = s.mtab
  pend : t.pend = s.pend
  cnt : t.cnt = s.cnt
  phase : t.phase = s.phase

theorem raiseViolation_sessionKept (code : Completion) (s : State) : SessionKept s (raiseViolation code s) := by
  constructor <;> rfl

theorem complete_sessionKept (v : Word) (s : State) : SessionKept s (complete v s) := by
  constructor <;> rfl

theorem complete_fillTables_sessionKept (v : Word) (s : State) : SessionKept s (complete v (fillTables s)) := by
  cases ht : s.tablesReady with
  | true =>
    rw [fillTables_ready ht]
    exact complete_sessionKept v s
  | false =>
    rw [fillTables_fresh ht]
    constructor <;> rfl

/-- A session is changed by INIT and by a stream command that completed, by nothing else. -/
theorem exec_sessionKept_or {i : Instr} {s t : State} (h : exec i s = .next t) :
    SessionKept s t ∨ (∃ level fmt, i = .init level fmt) ∨ ∃ r, StreamRun s i r ∧ t = r.finished := by
  cases exec_cases h with
  | violation i code hc => exact .inl (raiseViolation_sessionKept code s)
  | tblinit => exact .inl (complete_fillTables_sessionKept 0#32 s)
  | init level fmt f hf => exact .inr (.inl ⟨level, fmt, rfl⟩)
  | crc32Byte b ht => exact .inl (complete_sessionKept _ s)
  | crc32Block ht => exact .inl (complete_sessionKept _ s)
  | adler32Byte b ht => exact .inl (complete_sessionKept _ s)
  | adler32Block ht => exact .inl (complete_sessionKept _ s)
  | stream i r hr hfit => exact .inr (.inr ⟨r, hr, rfl⟩)

/-- Settles O45: a command other than INIT and ENCODE keeps the whole session, or it is SEND_HEADER, which sets the
phase, or FINISH, which sets phase and pending bits. -/
theorem descriptorFrame : Obligations.DescriptorFrame := by
  unfold Obligations.DescriptorFrame
  intro i s t h hencode hinit
  obtain hk | ⟨level, fmt, hi⟩ | ⟨r, hr, rfl⟩ := exec_sessionKept_or h
  · exact ⟨hk.checksum, hk.totalIn, hk.mtab, fun _ => ⟨hk.pend, hk.cnt⟩, fun _ _ => hk.phase⟩
  · exact absurd hi (hinit level fmt)
  · cases hr with
    | header hp => exact ⟨rfl, rfl, rfl, fun _ => ⟨rfl, rfl⟩, fun _ hheader => absurd rfl hheader⟩
    | finish hp => exact ⟨rfl, rfl, rfl, fun hfinish => absurd rfl hfinish, fun hfinish => absurd rfl hfinish⟩
    | encode more ht hp => exact absurd rfl (hencode more)

end Sys2Proof.Machine
end

/-! ## The finder's events reproduce the input, in the format's ranges (42_match_finder R180, R184, R185, R191) -/

section
namespace Sys2Proof.Machine

/-- Settles O19: the events of a whole input, put behind nothing. -/
theorem eventsReproduceTheInput : Obligations.EventsReproduceTheInput := by
  unfold Obligations.EventsReproduceTheInput
  exact fun hash compEn input => expandEvents_findEvents hash compEn [] input

/-- Settles O20: every event of the loop is in range, and without the finder all events are literals. -/
theorem matchesAreInRange : Obligations.MatchesAreInRange := by
  unfold Obligations.MatchesAreInRange
  exact findEvents_inRange

end Sys2Proof.Machine
end

/-! ## The match table holds the latest positions (42_match_finder R186, R187, R190) -/

section
namespace Sys2Proof.Machine
variable {hash : Byte → Byte → Byte → SlotIndex} {input : List Byte} {pos : Nat} {m : Mtab}

/-- What a slot holds is the latest position below `p` whose prefix hashes to `k`; nothing, if there is none. -/
def isLatest (hash : Byte → Byte → Byte → SlotIndex) (input : List Byte) (p : Nat) (k : SlotIndex) :
    Option Word → Prop
  | some c => c.toNat < p ∧ hashAt hash input c.toNat = some k ∧
      ∀ q, c.toNat < q → q < p → hashAt hash input q ≠ some k
  | none => ∀ q, q < p → hashAt hash input q ≠ some k

/-- Every slot of the table holds the latest position below `p` with its hash. -/
def Mtab.remembers (hash : Byte → Byte → Byte → SlotIndex) (input : List Byte) (m : Mtab) (p : Nat) : Prop :=
  ∀ k, isLatest hash input p k (m.slot k)

theorem Mtab.remembers_cleared : Mtab.cleared.remembers hash input 0 :=
  fun _ q hq => absurd hq q.not_lt_zero

/-- A position with another hash, or with none, does not change which position is the latest. -/
theorem isLatest_succ {k : SlotIndex} {slot : Option Word} (h : isLatest hash input pos k slot)
    (hpos : hashAt hash input pos ≠ some k) : isLatest hash input (pos + 1) k slot := by
  have step {q : Nat} (hq : q < pos + 1) (hbelow : q < pos → hashAt hash input q ≠ some k) :
      hashAt hash input q ≠ some k :=
    (Nat.lt_succ_iff_lt_or_eq.mp hq).elim hbelow fun he => he ▸ hpos
  cases slot with
  | none => exact fun q hq => step hq (h q)
  | some c =>
    obtain ⟨hc, hck, hlater⟩ := h
    exact ⟨hc.trans (Nat.lt_succ_self pos), hck, fun q hcq hq => step hq (hlater q hcq)⟩

/-- An insertion makes its position the latest of its slot and leaves the other slots alone. -/
theorem Mtab.remembers_insertAt (hn : input.length < 4294967296) (hm : m.remembers hash input pos) :
    (insertAt hash input pos m).remembers hash input (pos + 1) := by
  intro k
  unfold insertAt
  split
  · rename_i h hh
    by_cases hk : k = h
    · subst hk
      have := hashAt_some hh
      have hword : (BitVec.ofNat 32 pos).toNat = pos := by
        rw [BitVec.toNat_ofNat]
        exact Nat.mod_eq_of_lt (by omega)
      rw [Mtab.slot_insert_same]
      simp only [isLatest, hword]
      exact ⟨Nat.lt_succ_self pos, hh, by omega⟩
    · rw [Mtab.slot_insert_other m pos hk]
      exact isLatest_succ (hm k) (by simpa [hh] using Ne.symm hk)
  · rename_i hh
    exact isLatest_succ (hm k) (by simp [hh])

theorem Mtab.remembers_insertCovered (hn : input.length < 4294967296) (count : Nat)
    (hm : m.remembers hash input pos) :
    (insertCovered hash input count pos m).remembers hash input (pos + count) := by
  induction count generalizing pos m with
  | zero => exact hm
  | succ count ih =>
    have := ih (Mtab.remembers_insertAt hn hm)
    rwa [Nat.succ_add_eq_add_succ] at this

theorem one_le_extend (input : List Byte) (pos c : Nat) : 1 ≤ extend input pos c :=
  Nat.le_add_right_of_le (by decide)

/-- The table after one step of the finder: all positions the cursor passes are inserted, in order, whether the step
answers a literal or a match (42_match_finder R186, R187). -/
theorem find_table (hash : Byte → Byte → Byte → SlotIndex) (input : List Byte) (pos : Nat) (m : Mtab) :
    (find hash input pos m).2 = insertCovered hash input (find hash input pos m).1.span pos m := by
  unfold find
  split
  · rename_i hnone
    simp [literalAt, Event.span, insertCovered, insertAt, hnone]
  · rename_i k hk
    split
    · simp [literalAt, Event.span, insertCovered, insertAt, hk]
    · split
      · rename_i c _ _
        obtain ⟨length, hlength⟩ := Nat.exists_eq_add_of_le' (one_le_extend input pos c.toNat)
        simp [Event.span, insertCovered, insertAt, hk, hlength]
      · simp [literalAt, Event.span, insertCovered, insertAt, hk]

theorem find_remembers (hn : input.length < 4294967296) (hm : m.remembers hash input pos) :
    (find hash input pos m).2.remembers hash input (pos + (find hash input pos m).1.span) := by
  rw [find_table]
  exact Mtab.remembers_insertCovered hn _ hm

/-- Every step of the finder moves the cursor. -/
theorem one_le_span_find (hash : Byte → Byte → Byte → SlotIndex) (input : List Byte) (pos : Nat) (m : Mtab) :
    1 ≤ (find hash input pos m).1.span := by
  unfold find
  split
  · exact Nat.le_refl 1
  · split
    · exact Nat.le_refl 1
    · split
      · exact one_le_extend input pos _
      · exact Nat.le_refl 1

theorem findLoop_remembers (hn : input.length < 4294967296) (fuel : Nat) (hfuel : input.length ≤ pos + fuel)
    (hm : m.remembers hash input pos) :
    ∃ p, input.length ≤ p ∧ (findLoop hash input fuel pos m).2.remembers hash input p := by
  induction fuel generalizing pos m with
  | zero => exact ⟨pos, hfuel, hm⟩
  | succ fuel ih =>
    rw [findLoop]
    split
    · have := one_le_span_find hash input pos m
      exact ih (by omega) (find_remembers hn hm)
    · exact ⟨pos, by omega, hm⟩

/-- Settles O22: the loop inserts every position of the input in increasing order, and the positions from its end on
have no prefix. -/
theorem tableKeepsTheLatestPosition : Obligations.TableKeepsTheLatestPosition := by
  unfold Obligations.TableKeepsTheLatestPosition
  intro hash input k hn slot
  obtain ⟨p, hp, hm⟩ : ∃ p, input.length ≤ p ∧ (findEvents hash true input).2.remembers hash input p :=
    findLoop_remembers hn input.length (by omega) Mtab.remembers_cleared
  have hslot : isLatest hash input p k slot := hm k
  have inside {q : Nat} (hq : hashAt hash input q = some k) : q < p := by
    have := hashAt_some hq
    omega
  constructor
  · intro c hc
    rw [hc] at hslot
    obtain ⟨-, hck, hlater⟩ := hslot
    exact ⟨hck, fun q hcq hq => hlater q hcq (inside hq) hq⟩
  · intro hnone q hq
    rw [hnone] at hslot
    exact hslot q (inside hq) hq

end Sys2Proof.Machine
end

/-! ## A run of one byte (42_match_finder R191 (c)) -/

section
namespace Sys2Proof.Machine
variable {hash : Byte → Byte → Byte → SlotIndex} {x : Byte} {r pos : Nat} {m : Mtab}

theorem hashAt_replicate (hash : Byte → Byte → Byte → SlotIndex) (x : Byte) (h : pos + 3 ≤ r) :
    hashAt hash (List.replicate r x) pos = some (hash x x x) := by
  obtain ⟨n, rfl⟩ := Nat.exists_eq_add_of_le h
  rw [hashAt, List.drop_replicate, show pos + 3 + n - pos = n + 3 by omega]
  rfl

theorem equalRun_replicate (limit : Nat) (x : Byte) (a b : Nat) :
    equalRun limit (List.replicate a x) (List.replicate b x) = min limit (min a b) := by
  induction limit generalizing a b with
  | zero => simp [equalRun]
  | succ limit ih =>
    cases a with
    | zero => simp [equalRun]
    | succ a =>
      cases b with
      | zero => simp [equalRun]
      | succ b => simp [List.replicate_succ, equalRun, ih]

/-- In a run the candidate one back is accepted, and the match goes to the run's end or to the longest match. -/
theorem accepted_replicate (x : Byte) (hpos : 1 ≤ pos) (h : pos + 3 ≤ r) :
    accepted (List.replicate r x) pos (pos - 1) = true := by
  have hwindow : pos - (pos - 1) ≤ 32768 := by omega
  have hleft : min 3 (r - (pos - 1)) = min 3 (r - pos) := by omega
  simp [accepted, List.drop_replicate, hwindow, hleft]

theorem extend_replicate (x : Byte) (hpos : 1 ≤ pos) (h : pos + 3 ≤ r) :
    extend (List.replicate r x) pos (pos - 1) = min 258 (r - pos) := by
  simp only [extend, minMatch, maxMatch, List.drop_replicate, equalRun_replicate]
  omega

theorem literalAt_replicate (x : Byte) (h : pos < r) : literalAt (List.replicate r x) pos = .literal x := by
  simp [literalAt, h]

/-- In a run every position before the last two hashes alike, so the latest one is the one just passed. -/
theorem slot_replicate (hm : m.remembers hash (List.replicate r x) pos) (hpos : 1 ≤ pos) (h : pos + 3 ≤ r) :
    ∃ c, m.slot (hash x x x) = some c ∧ c.toNat = pos - 1 := by
  have hprev : hashAt hash (List.replicate r x) (pos - 1) = some (hash x x x) := hashAt_replicate hash x (by omega)
  have hlatest := hm (hash x x x)
  cases hslot : m.slot (hash x x x) with
  | none =>
    rw [hslot] at hlatest
    exact absurd hprev (hlatest (pos - 1) (by omega))
  | some c =>
    rw [hslot] at hlatest
    obtain ⟨hc, -, hlater⟩ := hlatest
    have : ¬ c.toNat < pos - 1 := fun hlt => hlater (pos - 1) hlt (by omega) hprev
    exact ⟨c, rfl, by omega⟩

theorem find_replicate_match (hm : m.remembers hash (List.replicate r x) pos) (hpos : 1 ≤ pos) (h : pos + 3 ≤ r) :
    (find hash (List.replicate r x) pos m).1 = .copy (min 258 (r - pos)) 1 := by
  obtain ⟨c, hslot, hc⟩ := slot_replicate hm hpos h
  have hone : pos - (pos - 1) = 1 := by omega
  simp only [find, hashAt_replicate hash x h, hslot, hc, accepted_replicate x hpos h, extend_replicate x hpos h, hone,
    if_true]

theorem find_of_hashAt_none {input : List Byte} (h : hashAt hash input pos = none) :
    (find hash input pos m).1 = literalAt input pos := by
  simp only [find, h]

theorem find_replicate_short (h : pos < r) (hshort : r < pos + 3) :
    (find hash (List.replicate r x) pos m).1 = .literal x := by
  have hnone : hashAt hash (List.replicate r x) pos = none := by
    by_contra hsome
    obtain ⟨k, hk⟩ := Option.ne_none_iff_exists'.mp hsome
    have := hashAt_some hk
    rw [List.length_replicate] at this
    omega
  rw [find_of_hashAt_none hnone, literalAt_replicate x h]

theorem find_cleared (hash : Byte → Byte → Byte → SlotIndex) (input : List Byte) :
    (find hash input pos Mtab.cleared).1 = literalAt input pos := by
  unfold find
  split
  · rfl
  · rfl

/-- How the last `t` bytes of a run are coded, once a byte of it was passed (42_match_finder R191 (c)). -/
def runEvents (x : Byte) (t : Nat) : List Event :=
  List.replicate (t / 258) (.copy 258 1) ++
    (if 3 ≤ t % 258 then [.copy (t % 258) 1] else List.replicate (t % 258) (.literal x))

theorem runEvents_match (x : Byte) {t : Nat} (h : 3 ≤ t) :
    runEvents x t = .copy (min 258 t) 1 :: runEvents x (t - min 258 t) := by
  obtain hlong | hshort := le_or_gt 258 t
  · obtain ⟨u, rfl⟩ := Nat.exists_eq_add_of_le' hlong
    simp [runEvents, List.replicate_succ]
  · simp [runEvents, Nat.div_eq_of_lt hshort, Nat.mod_eq_of_lt hshort, Nat.min_eq_right hshort.le, h]

theorem runEvents_short (x : Byte) {t : Nat} (h : t < 3) : runEvents x t = List.replicate t (.literal x) := by
  have hlt : t < 258 := by omega
  simp [runEvents, Nat.div_eq_of_lt hlt, Nat.mod_eq_of_lt hlt, h]

/-- From the second byte of a run on, the loop answers the longest match one back while three bytes are left, then
literals. -/
theorem findLoop_replicate (hr : r < 4294967296) (fuel : Nat) (hpos : 1 ≤ pos) (hle : pos ≤ r) (hfuel : r ≤ pos + fuel)
    (hm : m.remembers hash (List.replicate r x) pos) :
    (findLoop hash (List.replicate r x) fuel pos m).1 = runEvents x (r - pos) := by
  induction fuel generalizing pos m with
  | zero =>
    obtain rfl : pos = r := by omega
    simp [findLoop, runEvents]
  | succ fuel ih =>
    have hnext := find_remembers (by simpa using hr) hm
    obtain rfl | hlt := Nat.eq_or_lt_of_le hle
    · rw [findLoop_at_end hash _ m (by simp), Nat.sub_self, runEvents_short x (by omega), List.replicate_zero]
    · rw [findLoop_of_lt hash fuel m (by simpa using hlt)]
      obtain hlong | hshort := le_or_gt (pos + 3) r
      · rw [find_replicate_match hm hpos hlong, Event.span] at hnext ⊢
        rw [runEvents_match x (by omega), ih (by omega) (by omega) (by omega) hnext, Nat.sub_add_eq]
      · rw [find_replicate_short hlt hshort, Event.span] at hnext ⊢
        rw [ih (by omega) hlt (by omega) hnext, runEvents_short x (by omega), runEvents_short x (by omega),
          ← List.replicate_succ]
        congr 1
        omega

/-- Settles O21: the first byte finds the table empty, and each later one the byte just before it. -/
theorem runOfOneByte : Obligations.RunOfOneByte := by
  unfold Obligations.RunOfOneByte
  intro hash x r h4 hr
  obtain ⟨fuel, rfl⟩ : ∃ fuel, r = fuel + 1 := ⟨r - 1, by omega⟩
  have hn : (List.replicate (fuel + 1) x).length < 4294967296 := by simpa using hr
  have hfirst : (find hash (List.replicate (fuel + 1) x) 0 Mtab.cleared).1 = .literal x := by
    rw [find_cleared, literalAt_replicate x (by omega)]
  have hm := find_remembers hn (@Mtab.remembers_cleared hash (List.replicate (fuel + 1) x))
  rw [hfirst, Event.span] at hm
  rw [findEvents, if_pos rfl, List.length_replicate, findLoop_of_lt hash fuel _ (by simp), hfirst, Event.span,
    findLoop_replicate hr fuel (by omega) (by omega) (by omega) hm]
  rfl

end Sys2Proof.Machine
end

/-! ## The packer's obligations (43_bit_packer R200 to R205) -/

section
namespace Sys2Proof.Machine

/-- Settles O26: every push keeps the bits of the stream, and its exit condition is the next one's entry condition. -/
theorem packerKeepsTheBitStream : Obligations.PackerKeepsTheBitStream := by
  unfold Obligations.PackerKeepsTheBitStream
  intro p xs hp hxs
  exact ⟨streamBits_pushAll hp hxs, pushAll_fits hp hxs⟩

/-- Bytes shifted out in two turns: the second starts from what the first left. -/
theorem shiftOut_add (m n : Nat) (v : Word) :
    shiftOut (m + n) v =
      ((shiftOut m v).1 ++ (shiftOut n (shiftOut m v).2).1, (shiftOut n (shiftOut m v).2).2) := by
  induction m generalizing v with
  | zero => simp [shiftOut]
  | succ m ih => simp [Nat.succ_add, shiftOut, ih]

/-- Bits at position 8 and above are not in the low byte. -/
theorem setWidth_or_shiftLeft_above (v u : Word) (j : Nat) :
    (v ||| (u <<< (8 + j))).setWidth 8 = v.setWidth 8 := by
  ext i hi
  simp

/-- Shifting the low byte out moves a code of `w` bits down by 8, where the code lies inside the word. -/
theorem or_shiftLeft_ushiftRight_byte (v : Word) {u : Word} {w j : Nat} (hu : u.toNat < 2 ^ w) (hw : 8 + j + w ≤ 32) :
    (v ||| (u <<< (8 + j))) >>> 8 = (v >>> 8) ||| (u <<< j) := by
  rw [BitVec.ushiftRight_or_distrib]
  congr 1
  refine BitVec.eq_of_getLsbD_eq fun i hi => ?_
  rw [BitVec.getLsbD_ushiftRight, BitVec.getLsbD_shiftLeft, BitVec.getLsbD_shiftLeft, Nat.add_sub_add_left]
  obtain hlow | hhigh := Nat.lt_or_ge (8 + i) 32
  · simp only [hi, hlow, Nat.add_lt_add_iff_left]
  · have hclear : u.getLsbD (i - j) = false :=
      Nat.testBit_lt_two_pow (hu.trans_le (Nat.pow_le_pow_right Nat.two_pos (by omega)))
    simp only [hclear, Bool.and_false]

/-- Bits above the bytes shifted out only move down: a code OR-ed in before shifting is the code OR-ed in after it. -/
theorem shiftOut_or_shiftLeft (n k : Nat) (v : Word) {u : Word} {w : Nat} (hu : u.toNat < 2 ^ w)
    (hw : 8 * n + k + w ≤ 32) :
    shiftOut n (v ||| (u <<< (8 * n + k))) = ((shiftOut n v).1, (shiftOut n v).2 ||| (u <<< k)) := by
  induction n generalizing v with
  | zero => simp [shiftOut]
  | succ n ih =>
    rw [show 8 * (n + 1) + k = 8 + (8 * n + k) by omega, shiftOut, setWidth_or_shiftLeft_above,
      or_shiftLeft_ushiftRight_byte v hu (by omega), ih _ (by omega), shiftOut]

/-- Settles O27: draining the full bytes between the two codes only moves the second code's place down. -/
theorem pushGroupingDoesNotMatter : Obligations.PushGroupingDoesNotMatter := by
  unfold Obligations.PushGroupingDoesNotMatter
  intro p x y hp _ hy hxy
  obtain ⟨hcnt, -⟩ := (Packer.fits_iff p).mp hp
  obtain ⟨-, hcode⟩ := (Push.fits_iff y).mp hy
  have hplace : 8 * ((p.cnt + x.width) / 8) + (p.cnt + x.width) % 8 = x.width + p.cnt := by omega
  have hdrain := shiftOut_or_shiftLeft ((p.cnt + x.width) / 8) ((p.cnt + x.width) % 8)
    (p.pend ||| (x.code <<< p.cnt)) hcode (by omega)
  have hbytes : (p.cnt + (x.width + y.width)) / 8 =
      (p.cnt + x.width) / 8 + ((p.cnt + x.width) % 8 + y.width) / 8 := by omega
  have hleft : (p.cnt + (x.width + y.width)) % 8 = ((p.cnt + x.width) % 8 + y.width) % 8 := by omega
  have hcodes : p.pend ||| ((x.code ||| (y.code <<< x.width)) <<< p.cnt) =
      p.pend ||| (x.code <<< p.cnt) ||| (y.code <<< (x.width + p.cnt)) := by
    rw [BitVec.shiftLeft_or_distrib, ← BitVec.shiftLeft_add, BitVec.or_assoc]
  rw [hplace] at hdrain
  simp only [pushAll_cons, pushAll_nil, List.append_nil, push, hbytes, hleft, hcodes, shiftOut_add, hdrain]

/-- The number of bits left pending: those of the total that fill no byte (43_bit_packer R205). -/
theorem pushAll_cnt (p : Packer) (xs : List Push) (hp : p.cnt ≤ 7) :
    (pushAll p xs).2.cnt = (p.cnt + totalWidth xs) % 8 := by
  induction xs generalizing p with
  | nil => exact (Nat.mod_eq_of_lt (Nat.lt_succ_of_le hp)).symm
  | cons x xs ih =>
    rw [pushAll_cons, ih _ (by rw [push_cnt]; omega), push_cnt, totalWidth]
    omega

/-- Settles O28: the bytes and the pending bits divide the total by 8, and the flush writes one byte more exactly where
the remainder is not 0. -/
theorem packerAccounting : Obligations.PackerAccounting := by
  unfold Obligations.PackerAccounting
  intro p xs hp
  refine ⟨length_pushAll p xs hp, pushAll_cnt p xs hp, ?_⟩
  rw [List.length_append, length_pushAll p xs hp, length_flushToByte, pushAll_cnt p xs hp]
  split <;> omega

/-- Settles O29: the byte a flush writes is the low byte of the accumulator, which is 0 from bit `cnt` on. -/
theorem flushPadsWithZeros : Obligations.FlushPadsWithZeros := by
  unfold Obligations.FlushPadsWithZeros
  intro p hp
  obtain ⟨hcnt, hpend⟩ := (Packer.fits_iff p).mp hp
  refine ⟨flushToByte_rest p, fun hzero => by simp [flushToByte, hzero], fun hpos =>
    ⟨p.pend.setWidth 8, by simp [flushToByte, hpos], fun i hi => ?_, fun i hi => ?_⟩⟩
  · have hbyte : i < 8 := by omega
    simp [hbyte]
  · have hclear : p.pend.getLsbD i = false :=
      Nat.testBit_lt_two_pow (hpend.trans_le (Nat.pow_le_pow_right Nat.two_pos hi))
    simp [hclear]

end Sys2Proof.Machine
end

/-! ## The cost of literals, of matches and of `encode_data` (44_block_encoder R213, R218) -/

section
namespace Sys2Proof.Machine

theorem fixedCode_of_le_143 {n : Nat} (h : n ≤ 143) : fixedCode n = ⟨BitVec.ofNat 32 (0x30 + n), 8⟩ := if_pos h

theorem fixedCode_of_le_255 {n : Nat} (h144 : ¬ n ≤ 143) (h : n ≤ 255) :
    fixedCode n = ⟨BitVec.ofNat 32 (0x190 + (n - 144)), 9⟩ := (if_neg h144).trans (if_pos h)

/-- Settles O30: a byte is a symbol of the first or of the second range of the fixed code. -/
theorem literalCodes : Obligations.LiteralCodes := by
  unfold Obligations.LiteralCodes
  intro b
  have hb := b.isLt
  rw [literalPushes, symbolPushes, litLen_getD (by omega)]
  split
  · rw [fixedCode_of_le_143 ‹_›]
  · rw [fixedCode_of_le_255 ‹_› (by omega)]

theorem eventCost_literal (b : Byte) : eventCost (.literal b) = if 144 ≤ b.toNat then 9 else 8 := by
  rw [eventCost, eventPushes, literalCodes b]
  split
  · exact (if_neg (by omega)).symm
  · exact (if_pos (by omega)).symm

/-- A match costs the length code with its extra bits, 7 to 13, the distance code, 5, and its extra bits, at most 13. -/
theorem eventCost_copy_bounds {length distance : Nat} (he : (Event.copy length distance).inRange = true) :
    12 ≤ eventCost (.copy length distance) ∧ eventCost (.copy length distance) ≤ 31 := by
  obtain ⟨⟨hmin, hmax⟩, hone, hwindow⟩ := (inRange_copy_iff _ _).mp he
  have hcode := (fixedCode_width (rowFor lengthRows length).sym).2
  have hlength := lengthRows_cost _ (lengthRow_spec hmin hmax).1
  have hextra := (distanceRows_small _ (distanceRow_spec hone hwindow).1).1
  rw [eventCost_copy he]
  omega

/-- Length 3 has a code of 7 bits and no extra bits. -/
theorem eventCost_copy_three {distance : Nat} (he : (Event.copy 3 distance).inRange = true) :
    eventCost (.copy 3 distance) ≤ 25 := by
  obtain ⟨-, hone, hwindow⟩ := (inRange_copy_iff _ _).mp he
  have hrow : rowFor lengthRows 3 = ⟨257, 3, 0⟩ := by decide
  have hcode : (fixedCode 257).width = 7 := by decide
  have hextra := (distanceRows_small _ (distanceRow_spec hone hwindow).1).1
  simp only [eventCost_copy he, hrow, hcode]
  omega

/-- Bytes sent as literals: 8 bits each, and one more for each byte from 144 on. -/
theorem totalWidth_literals (bytes : List Byte) : totalWidth (eventsPushes (bytes.map Event.literal)) =
    8 * bytes.length + bytes.countP (fun b => decide (144 ≤ b.toNat)) := by
  induction bytes with
  | nil => rfl
  | cons b bytes ih =>
    rw [List.map_cons, totalWidth_eventsPushes_cons, ih, eventCost_literal, List.length_cons, List.countP_cons]
    simp only [decide_eq_true_eq]
    split <;> omega

/-- Without the finder the input is sent as literals (42_match_finder R192). -/
theorem sessionEvents_literals {s : State} (h : s.compEn = false) :
    (sessionEvents s).1 = (inputBytes s).map Event.literal := by
  rw [sessionEvents, findEvents, h, if_neg Bool.false_ne_true]

/-- Settles O33, bound by bound. -/
theorem dataCostsAtMostNineBitsPerByte : Obligations.DataCostsAtMostNineBitsPerByte := by
  unfold Obligations.DataCostsAtMostNineBitsPerByte
  refine ⟨fun b => ?_, fun _ _ => eventCost_copy_bounds, fun _ => eventCost_copy_three,
    fun _ => totalWidth_dataPushes, fun s ht hlevel => ?_⟩
  · rw [eventCost_literal]
    split
    · exact .inr rfl
    · exact .inl rfl
  · rw [dataPushes_eq ht, sessionEvents_literals hlevel, totalWidth_literals, inputBytes, Memory.length_firstBytes]

end Sys2Proof.Machine
end

/-! ## The outcome of a legal stream command (60_exceptions R270) -/

section
namespace Sys2Proof.Machine

variable {s : State} {i : Instr} {r : Run}

theorem StreamRun.exec_eq (hr : StreamRun s i r) : exec i s = r.finish := by
  cases hr with
  | header hp => exact if_pos hp
  | finish hp => exact if_pos hp
  | encode more ht hp => exact exec_encode_legal more ht hp

theorem StreamRun.outCap (hr : StreamRun s i r) : r.st.outCap = s.outCap := by rw [hr.frame]

theorem StreamRun.exec_of_fits (hr : StreamRun s i r) (h : r.out.length ≤ s.outCap.toNat) :
    exec i s = .next r.finished :=
  hr.exec_eq.trans (Run.finish_fits (hr.outCap.symm ▸ h))

/-- The command completes if OUT_CAP has room for its output, and overflows OBUF otherwise. -/
theorem StreamRun.outcome (hr : StreamRun s i r) :
    if r.out.length ≤ s.outCap.toNat then exec i s = .next r.finished else exec i s = .fault .obufOverflow := by
  split
  case isTrue h => exact hr.exec_of_fits h
  case isFalse h => exact hr.exec_eq.trans (Run.finish_overflow (hr.outCap.symm ▸ Nat.not_le.mp h))

end Sys2Proof.Machine
end

/-! ## INIT, SEND_HEADER and FINISH (45_stream_commands R231 to R238, R240) -/

section
namespace Sys2Proof.Machine

theorem emptyChecksum_eq (f : Format) : emptyChecksum f = if f = .zlib then 1#32 else 0#32 := by
  cases f <;> rfl

/-- Settles O34: the field FMT is the code of a format, and `startSession` sets the descriptor. -/
theorem initStartsASession : Obligations.InitStartsASession := by
  unfold Obligations.InitStartsASession
  intro s level fmt f hfmt
  subst hfmt
  rw [exec_init, ← emptyChecksum_eq]
  rfl

theorem headerRun_out (s : State) : (headerRun s).out = envelopeHeader s.format := rfl

/-- Settles O35: the header is the whole output of SEND_HEADER. -/
theorem sendHeaderWritesTheEnvelopeHeader : Obligations.SendHeaderWritesTheEnvelopeHeader := by
  unfold Obligations.SendHeaderWritesTheEnvelopeHeader
  intro s hp header
  have hheader : header = (headerRun s).out := by
    rw [headerRun_out]
    simp only [header]
    cases s.format <;> rfl
  clear_value header
  subst hheader
  exact (StreamRun.header hp).outcome

theorem finishRun_out (s : State) : (finishRun s).out =
    (flushToByte (Run.start s).packer).1 ++ envelopeTrailer s.format s.checksum s.totalIn := rfl

/-- A flush writes the low byte of the pending bits, if there are any (43_bit_packer R203). -/
theorem flushToByte_start (s : State) : (flushToByte (Run.start s).packer).1 =
    if s.cnt = 0#3 then [] else [s.pend.extractLsb' 0 8] := by
  by_cases h : s.cnt = 0#3
  · simp [flushToByte, Run.packer, h]
  · have hpos : 0 < s.cnt.toNat := Nat.pos_of_ne_zero fun hz => h (BitVec.eq_of_toNat_eq hz)
    simp [flushToByte, Run.packer, h, hpos, BitVec.setWidth_eq_extractLsb']

theorem length_finishRun_out (s : State) : (finishRun s).out.length ≤ 9 := by
  have htrailer := length_envelopeTrailer s.format s.checksum s.totalIn
  rw [finishRun_out, List.length_append, length_flushToByte]
  split <;> omega

/-- Settles O36: the flushed byte and the trailer are the whole output of FINISH, at most 1 + 8 bytes. -/
theorem finishFlushesAndWritesTheTrailer : Obligations.FinishFlushesAndWritesTheTrailer := by
  unfold Obligations.FinishFlushesAndWritesTheTrailer
  intro s hp c n trailer out
  have hrun : StreamRun s .finish (finishRun s) := .finish hp
  have htrailer : trailer = envelopeTrailer s.format s.checksum s.totalIn := by
    simp only [trailer]
    cases s.format <;> rfl
  have hout : out = (finishRun s).out := by
    simp only [out, finishRun_out, flushToByte_start, htrailer]
  clear_value out
  subst hout
  have hlength := length_finishRun_out s
  exact ⟨hrun.outcome, hlength, fun hcap => ⟨_, hrun.exec_of_fits (by omega)⟩⟩

end Sys2Proof.Machine
end

/-! ## ENCODE by the case table: output and next state (45_stream_commands R239, R241) -/

section
namespace Sys2Proof.Machine

variable {s : State}

theorem Phase.allowsEncode_iff (p : Phase) : p.allowsEncode = true ↔ p = .init ∨ p = .eob ∨ p = .inBlock := by
  cases p <;> decide

/-- A row without items keeps the phase, and its input is empty (45_stream_commands R241). -/
theorem encodeTable_of_items_nil {p : Phase} {n : Nat} {more : Bool} (hp : p.allowsEncode = true)
    (h : encodeItems p n more = []) : encodeExit p n more = p ∧ n = 0 := by
  revert hp h
  cases p <;> cases n <;> cases more <;> simp [Phase.allowsEncode, encodeItems, encodeExit]

/-- The state a legal ENCODE ends in, before its output is stored. -/
def encodedState (more : Bool) (s : State) : State :=
  let sends := !(encodeItems s.phase s.inLen.toNat more).isEmpty
  { s with
    phase := encodeExit s.phase s.inLen.toNat more
    pend := (encodeOutput more s).2.pend
    cnt := BitVec.ofNat 3 (encodeOutput more s).2.cnt
    checksum := if sends then sessionChecksum s.format s.tbl.crc s.checksum (inputBytes s) else s.checksum
    totalIn := if sends then s.totalIn + s.inLen else s.totalIn
    mtab := if sends then (sessionEvents s).2 else s.mtab }

theorem encodeOutput_of_items_nil {more : Bool} (h : encodeItems s.phase s.inLen.toNat more = []) :
    encodeOutput more s = ([], (Run.start s).packer) := by
  simp [encodeOutput, h, Run.packer]

theorem encodeOutput_of_items_ne_nil {more : Bool} (h : encodeItems s.phase s.inLen.toNat more ≠ []) :
    encodeOutput more s =
      (openingHeader s ++ (pushAll (Run.start s).packer
          ((encodeItems s.phase s.inLen.toNat more).flatMap (itemPushes s))).1,
        (pushAll (Run.start s).packer ((encodeItems s.phase s.inLen.toNat more).flatMap (itemPushes s))).2) := by
  simp [encodeOutput, h, Run.packer, openingHeader]

/-- The command in progress a legal ENCODE ends with: the table's output in the table's state. -/
theorem encodeRun_eq_encodeOutput (more : Bool) (hp : s.phase.allowsEncode = true) :
    encodeRun more s = ⟨encodedState more s, (encodeOutput more s).1⟩ := by
  rw [encodeRun_eq more hp]
  by_cases hitems : encodeItems s.phase s.inLen.toNat more = []
  · have hcnt : BitVec.ofNat 3 s.cnt.toNat = s.cnt := BitVec.eq_of_toNat_eq (by simp)
    rw [if_pos hitems, encodedState, encodeOutput_of_items_nil hitems, (encodeTable_of_items_nil hp hitems).1, hitems]
    simp [Run.packer, Run.start]
  · have hsends : (!(encodeItems s.phase s.inLen.toNat more).isEmpty) = true := by simpa using hitems
    rw [if_neg hitems, encodedState, encodeOutput_of_items_ne_nil hitems]
    simp only [hsends, if_true]
    rfl

/-- Settles O37, by the command in progress a legal ENCODE ends with. -/
theorem encodeFollowsTheCaseTable : Obligations.EncodeFollowsTheCaseTable := by
  unfold Obligations.EncodeFollowsTheCaseTable
  intro s more ht hphase m out sends
  have hp : s.phase.allowsEncode = true := (Phase.allowsEncode_iff _).mpr hphase
  have houtcome := (StreamRun.encode more ht hp).outcome
  rw [encodeRun_eq_encodeOutput _ hp] at houtcome
  exact houtcome

end Sys2Proof.Machine
end

/-! ## Two ENCODEs in a row (45_stream_commands R243; 70_reset_and_hazards R298) -/

section
namespace Sys2Proof.Machine

variable {s : State}

/-- A row of the case table sends, beside the data, a block header and an end-of-block code where it opens the block,
and at most 17 bits where the block is open already. -/
theorem totalWidth_items (htbl : s.tbl = Tables.contents) (p : Phase) (n : Nat) (more : Bool) :
    totalWidth ((encodeItems p n more).flatMap (itemPushes s)) ≤
      9 * s.inLen.toNat + if p = .inBlock then 17 else 10 := by
  have hstart (final : Bool) : totalWidth (itemPushes s (.blockStart final)) = 3 := rfl
  have hdata : totalWidth (itemPushes s .data) ≤ 9 * s.inLen.toNat := totalWidth_dataPushes htbl
  have hend : totalWidth (itemPushes s .endOfBlock) = 7 := by rw [itemPushes, htbl, totalWidth_eobPushes]
  have hnone : totalWidth [] = 0 := rfl
  cases p <;> cases n <;> cases more <;>
    simp only [encodeItems, List.flatMap_cons, List.flatMap_nil, totalWidth_append, hstart, hend, hnone,
      reduceCtorEq, if_true, if_false] <;> omega

/-- The capacity WCE is enough for an ENCODE that finds no bit pending before its first block
(70_reset_and_hazards R298). -/
theorem length_encodeOutput_le_wce (htbl : s.tbl = Tables.contents)
    (haligned : s.phase = .init ∨ s.phase = .eob → s.cnt = 0#3) (more : Bool) (hp : s.phase.allowsEncode = true) :
    (encodeOutput more s).1.length ≤ wce s.inLen.toNat := by
  by_cases hitems : encodeItems s.phase s.inLen.toNat more = []
  · rw [encodeOutput_of_items_nil hitems]
    exact Nat.zero_le _
  have hwidth := totalWidth_items htbl s.phase s.inLen.toNat more
  have hcnt := Run.packer_cnt_le (Run.start s)
  rw [encodeOutput_of_items_ne_nil hitems, List.length_append, length_pushAll _ _ hcnt, wce]
  by_cases hphase : s.phase = .inBlock
  · have hheader : openingHeader s = [] := by simp [openingHeader, hphase]
    rw [if_pos hphase] at hwidth
    rw [hheader, List.length_nil]
    omega
  · have hbefore : s.phase = .init ∨ s.phase = .eob := by
      rw [Phase.allowsEncode_iff, ← or_assoc] at hp
      exact hp.resolve_right hphase
    have hzero : (Run.start s).packer.cnt = 0 := congrArg BitVec.toNat (haligned hbefore)
    have hheader := length_openingHeader s
    rw [if_neg hphase] at hwidth
    omega

/-- In a sound state an ENCODE with its capacity completes in the state of the case table. -/
theorem exec_encode_of_sound (hs : s.Sound) (ht : s.tablesReady = true) (hp : s.phase.allowsEncode = true)
    (hcap : wce s.inLen.toNat ≤ s.outCap.toNat) (more : BitVec 1) :
    exec (.encode more) s =
      .next (Run.finished ⟨encodedState (moreFollows more) s, (encodeOutput (moreFollows more) s).1⟩) := by
  have haligned : s.phase = .init ∨ s.phase = .eob → s.cnt = 0#3 := fun h => hs.aligned (or_assoc.mp (.inl h))
  have hlength := length_encodeOutput_le_wce (hs.tablesFilled ht) haligned (moreFollows more) hp
  have hrun := encodeRun_eq_encodeOutput (moreFollows more) hp
  rw [← hrun]
  exact (StreamRun.encode more ht hp).exec_of_fits (hrun ▸ hlength.trans hcap)

theorem sessionChecksum_of_no_byte (f : Format) (table : List Word) (v : Word) :
    sessionChecksum f table v [] = v := by
  cases f with
  | raw => exact crc32Update_nil table v
  | zlib => exact adler32Update_nil v
  | gzip => exact crc32Update_nil table v

/-- Checksum and length take in the input in every row: one without items has no input (44_block_encoder R217). -/
theorem encodedState_checksum_totalIn (more : Bool) (hp : s.phase.allowsEncode = true) :
    (encodedState more s).checksum = sessionChecksum s.format s.tbl.crc s.checksum (inputBytes s) ∧
      (encodedState more s).totalIn = s.totalIn + s.inLen := by
  by_cases hitems : encodeItems s.phase s.inLen.toNat more = []
  · have hn := (encodeTable_of_items_nil hp hitems).2
    have hinput : inputBytes s = [] := by rw [inputBytes, hn]; rfl
    have hinLen : s.inLen = 0#32 := BitVec.eq_of_toNat_eq hn
    simp [encodedState, hinput, hinLen, sessionChecksum_of_no_byte]
  · simp [encodedState, hitems]

section
variable {piece : List Byte} (hlength : piece.length < 4294967296)
include hlength

theorem feed_inLen_toNat : (feed piece s).inLen.toNat = piece.length := toNat_ofNat_of_lt hlength

theorem inputBytes_feed : inputBytes (feed piece s) = piece := by
  rw [inputBytes, feed_inLen_toNat hlength]
  exact Memory.firstBytes_ofBytes hlength.le

end

theorem feed_sound (hs : s.Sound) (piece : List Byte) : (feed piece s).Sound :=
  { hs with ibufWf := Memory.wf_ofBytes piece }

/-- An ENCODE of bytes the host has just bound, with the capacity it owes, takes them in. -/
structure TakesIn (s : State) (piece : List Byte) (more : Bool) (t : State) : Prop where
  sound : t.Sound
  keeps : CommandKeeps (feed piece s) t
  phase : t.phase = encodeExit s.phase piece.length more
  checksum : t.checksum = sessionChecksum s.format s.tbl.crc s.checksum piece
  totalIn : t.totalIn = s.totalIn + BitVec.ofNat 32 piece.length

theorem exec_encode_feed (hs : s.Sound) (ht : s.tablesReady = true) (hp : s.phase.allowsEncode = true)
    {piece : List Byte} (hpiece : wce piece.length < 4294967296) (more : BitVec 1) :
    ∃ t, exec (.encode more) (feed piece s) = .next t ∧ TakesIn s piece (moreFollows more) t := by
  have hlength : piece.length < 4294967296 := by unfold wce at hpiece; omega
  have hinLen := feed_inLen_toNat (s := s) hlength
  have hcap : wce (feed piece s).inLen.toNat ≤ (feed piece s).outCap.toNat := by
    rw [hinLen]
    exact (toNat_ofNat_of_lt hpiece).ge
  have hfed : (feed piece s).phase.allowsEncode = true := hp
  have hexec := exec_encode_of_sound (feed_sound hs piece) ht hfed hcap more
  obtain ⟨hchecksum, htotal⟩ := encodedState_checksum_totalIn (moreFollows more) hfed
  rw [inputBytes_feed hlength] at hchecksum
  have hkeeps := (StreamRun.encode (s := feed piece s) more ht hfed).keeps
  rw [encodeRun_eq_encodeOutput _ hfed] at hkeeps
  exact ⟨_, hexec, exec_keeps_sound (feed_sound hs piece) hexec, hkeeps,
    congrArg (fun n => encodeExit s.phase n (moreFollows more)) hinLen, hchecksum, htotal⟩

/-- Settles O51: the first ENCODE leaves a sound state in which ENCODE is legal, and the checksum composes over the two
pieces. -/
theorem chunkingKeepsChecksumAndLength : Obligations.ChunkingKeepsChecksumAndLength := by
  unfold Obligations.ChunkingKeepsChecksumAndLength
  intro s a b more hs ht hphase ha hb
  have hp : s.phase.allowsEncode = true := (Phase.allowsEncode_iff _).mpr hphase
  obtain ⟨t, hexec, hfirst⟩ := exec_encode_feed hs ht hp ha 1#1
  have hp' : t.phase.allowsEncode = true := hfirst.phase ▸ encodeExit_more_allowsEncode hp a.length
  obtain ⟨u, hexec', hsecond⟩ :=
    exec_encode_feed hfirst.sound (hfirst.keeps.tablesReady.trans ht) hp' hb more
  refine ⟨t, u, hexec, hexec', ?_, ?_⟩
  · rw [hsecond.checksum, hfirst.keeps.format, hfirst.keeps.tbl, hfirst.checksum]
    exact sessionChecksum_append _ _ _ _ _
  · rw [hsecond.totalIn, hfirst.totalIn, BitVec.ofNat_add, BitVec.add_assoc]

end Sys2Proof.Machine
end

/-! ## The phases a session goes through (45_stream_commands R242; 60_exceptions R264, R275) -/

section
namespace Sys2Proof.Machine

variable {s t : State}

theorem encodeRun_phase (more : Bool) (hp : s.phase.allowsEncode = true) :
    (encodeRun more s).st.phase = encodeExit s.phase s.inLen.toNat more := by
  rw [encodeRun_eq_encodeOutput more hp]
  rfl

/-- A stream command is accepted in the phase it starts from and follows its edge (60_exceptions R264, R275). -/
theorem StreamRun.phase_edge {i : Instr} {r : Run} (hr : StreamRun s i r) :
    phaseRefuses i s.phase = false ∧ r.st.phase = phaseAfter i s := by
  cases hr with
  | header hp => exact ⟨by simp [phaseRefuses, hp], rfl⟩
  | finish hp => exact ⟨by simp [phaseRefuses, hp], rfl⟩
  | encode more ht hp => exact ⟨encode_accepted more hp, encodeRun_phase _ hp⟩

/-- So does every command that completes. -/
theorem exec_phase_edge {i : Instr} (h : exec i s = .next t) (hcc : t.cc = .ok) :
    phaseRefuses i s.phase = false ∧ t.phase = phaseAfter i s := by
  cases exec_cases h with
  | violation i code hc => exact absurd hcc hc
  | tblinit => exact ⟨rfl, fillTables_phase s⟩
  | stream i r hr hfit => exact hr.phase_edge
  | _ => exact ⟨rfl, rfl⟩

/-- The input length counts for the phase of an ENCODE MORE only, whose pieces are counted in full. -/
theorem SessionCall.phaseAfter_prepare (c : SessionCall) (s : State)
    (hpiece : ∀ piece, c = .more piece → piece.length < 4294967296)
    (haccept : phaseRefuses c.instr s.phase = false) :
    phaseAfter c.instr (c.prepare s) = c.exitPhase s.phase := by
  cases c with
  | sendHeader => rfl
  | more piece => exact congrArg (fun n => encodeExit s.phase n true) (feed_inLen_toNat (hpiece piece rfl))
  | last piece =>
    have hp := allowsEncode_of_accepts haccept
    exact (encodeExit_last hp _).trans (encodeExit_last hp _).symm
  | finish => rfl
  | side command seed bytes => cases command <;> rfl

/-- Calls that complete lead where their phases lead. -/
theorem phaseAfterCalls_of_runCalls {calls : List SessionCall} {out : List Byte}
    (hpieces : ∀ piece, .more piece ∈ calls → piece.length < 4294967296) (h : runCalls calls s = some (out, t)) :
    phaseAfterCalls s.phase calls = some t.phase := by
  induction calls generalizing s out with
  | nil =>
    obtain ⟨-, rfl⟩ := Prod.mk.inj (Option.some.inj h)
    rfl
  | cons c cs ih =>
    obtain ⟨u, rest, hexec, hcc, hrun, -⟩ := runCalls_cases h
    obtain ⟨haccept, hphase⟩ := exec_phase_edge hexec hcc
    rw [SessionCall.prepare_phase] at haccept
    have hpiece (piece : List Byte) (hc : c = .more piece) := hpieces piece (hc ▸ List.mem_cons_self)
    rw [SessionCall.phaseAfter_prepare c s hpiece haccept] at hphase
    rw [phaseAfterCalls_accepted c haccept, ← hphase]
    exact ih (fun piece hmem => hpieces piece (List.mem_cons_of_mem c hmem)) hrun

end Sys2Proof.Machine
end

/-! ## The grammar of the sessions that end (45_stream_commands R242) -/

section
namespace Sys2Proof.Machine

variable {p : Phase} {c : SessionCall} {calls : List SessionCall}

theorem phaseAfterCalls_cons_some {exit : Phase} (h : phaseAfterCalls p (c :: calls) = some exit) :
    phaseRefuses c.instr p = false ∧ phaseAfterCalls (c.exitPhase p) calls = some exit := by
  rw [phaseAfterCalls] at h
  split at h
  · cases h
  · exact ⟨Bool.eq_false_of_not_eq_true ‹_›, h⟩

/-- After FINISH no stream command is accepted. -/
theorem streamCalls_after_done (hstream : ∀ c ∈ calls, c.isStream = true)
    (h : phaseAfterCalls .done calls = some .done) : calls = [] := by
  cases calls with
  | nil => rfl
  | cons c cs =>
    have haccept := (phaseAfterCalls_cons_some h).1
    have hc := hstream c List.mem_cons_self
    cases c <;> simp [SessionCall.instr, phaseRefuses, SessionCall.isStream] at haccept hc

/-- Before FINISH only FINISH is accepted. -/
theorem streamCalls_after_last (hstream : ∀ c ∈ calls, c.isStream = true)
    (h : phaseAfterCalls .trailerPending calls = some .done) : calls = [.finish] := by
  cases calls with
  | nil => cases h
  | cons c cs =>
    obtain ⟨haccept, hrest⟩ := phaseAfterCalls_cons_some h
    obtain ⟨hc, hcs⟩ := List.forall_mem_cons.mp hstream
    cases c with
    | finish => rw [streamCalls_after_done hcs hrest]
    | _ => simp [SessionCall.instr, phaseRefuses, SessionCall.isStream] at haccept hc

theorem encodeExit_more_ne_init (hne : p ≠ .init) (n : Nat) : encodeExit p n true ≠ .init := by
  revert hne
  cases p <;> cases n <;> simp [encodeExit]

/-- Past phase INIT the stream goes on with pieces, the last piece and FINISH. -/
theorem streamCalls_after_init (hne : p ≠ .init) (hp : p.allowsEncode = true)
    (hstream : ∀ c ∈ calls, c.isStream = true) (h : phaseAfterCalls p calls = some .done) :
    ∃ (pieces : List (List Byte)) (last : List Byte), calls = pieces.map .more ++ [.last last, .finish] := by
  induction calls generalizing p with
  | nil =>
    rw [Option.some.inj h] at hp
    cases hp
  | cons c cs ih =>
    obtain ⟨haccept, hrest⟩ := phaseAfterCalls_cons_some h
    obtain ⟨hc, hcs⟩ := List.forall_mem_cons.mp hstream
    cases c with
    | more piece =>
      obtain ⟨pieces, last, rfl⟩ :=
        ih (encodeExit_more_ne_init hne _) (encodeExit_more_allowsEncode hp _) hcs hrest
      exact ⟨piece :: pieces, last, rfl⟩
    | last piece =>
      rw [SessionCall.exitPhase, encodeExit_last hp] at hrest
      exact ⟨[], piece, by rw [streamCalls_after_last hcs hrest]; rfl⟩
    | sendHeader => exact absurd haccept (by simpa [SessionCall.instr, phaseRefuses] using hne)
    | finish =>
      have hfinish : p = .trailerPending := by simpa [SessionCall.instr, phaseRefuses] using haccept
      subst hfinish
      cases hp
    | side command seed bytes => cases hc

/-- From phase INIT on, stream calls that lead to DONE have the shape of a session: pieces without a byte keep the
phase, and SEND_HEADER, a piece with bytes and the last piece leave it (45_stream_commands R239, R242). -/
theorem sessionShape_of_phases (hstream : ∀ c ∈ calls, c.isStream = true)
    (h : phaseAfterCalls .init calls = some .done) :
    ∃ idle header pieces last, calls = sessionShape idle header pieces last := by
  induction calls with
  | nil => cases h
  | cons c cs ih =>
    obtain ⟨haccept, hrest⟩ := phaseAfterCalls_cons_some h
    obtain ⟨hc, hcs⟩ := List.forall_mem_cons.mp hstream
    cases c with
    | more piece =>
      cases piece with
      | nil =>
        obtain ⟨idle, header, pieces, last, rfl⟩ := ih hcs hrest
        exact ⟨idle + 1, header, pieces, last, rfl⟩
      | cons b bytes =>
        obtain ⟨pieces, last, rfl⟩ :=
          streamCalls_after_init (by simp [SessionCall.exitPhase, encodeExit]) rfl hcs hrest
        exact ⟨0, false, (b :: bytes) :: pieces, last, rfl⟩
    | last piece =>
      rw [SessionCall.exitPhase, encodeExit_last rfl] at hrest
      exact ⟨0, false, [], piece, by rw [streamCalls_after_last hcs hrest]; rfl⟩
    | sendHeader =>
      obtain ⟨pieces, last, rfl⟩ := streamCalls_after_init (by simp [SessionCall.exitPhase]) rfl hcs hrest
      exact ⟨0, true, pieces, last, rfl⟩
    | finish => cases haccept
    | side command seed bytes => cases hc

theorem exists_formatCode {fmt : BitVec 2} (h : fmt ≠ 3#2) : ∃ f, formatCode f = fmt := by
  have hcases : fmt = 0#2 ∨ fmt = 1#2 ∨ fmt = 2#2 := by
    revert fmt
    decide
  obtain rfl | rfl | rfl := hcases
  · exact ⟨.raw, rfl⟩
  · exact ⟨.zlib, rfl⟩
  · exact ⟨.gzip, rfl⟩

/-- Settles O54: the calls' phases lead from INIT to DONE, and only the stream calls count for them. -/
theorem completedSessionsFollowTheGrammar : Obligations.CompletedSessionsFollowTheGrammar := by
  unfold Obligations.CompletedSessionsFollowTheGrammar
  intro s t level fmt calls out hfmt hpieces hrun hdone
  obtain ⟨f, rfl⟩ := exists_formatCode hfmt
  rw [runSession, exec_init] at hrun
  have hphase := phaseAfterCalls_of_runCalls hpieces hrun
  rw [hdone, ← phaseAfterCalls_filter] at hphase
  exact sessionShape_of_phases (fun c hc => (List.mem_filter.mp hc).2) hphase

end Sys2Proof.Machine
end

/-! ## The empty session (45_stream_commands R244) -/

section
namespace Sys2Proof.Machine

variable {s : State}

/-- A stream call whose output fits sends it and leaves the finished state. -/
theorem runCalls_stream_cons {c : SessionCall} {r : Run} (hc : c.isStream = true)
    (hr : StreamRun (c.prepare s) c.instr r) (hfit : r.out.length ≤ (c.prepare s).outCap.toNat)
    (cs : List SessionCall) :
    runCalls (c :: cs) s = (runCalls cs r.finished).map fun sent => (r.out ++ sent.1, sent.2) := by
  rw [runCalls_cons (hr.exec_of_fits hfit) rfl, SessionCall.takes, if_pos hc,
    outputOf_finished (hr.outCap.symm ▸ hfit)]

/-- FINISH with the capacity it is owed sends at most 9 bytes (45_stream_commands R240). -/
theorem runCalls_finish (hp : s.phase = .trailerPending) :
    runCalls [.finish] s = some ((finishRun (SessionCall.finish.prepare s)).out,
      (finishRun (SessionCall.finish.prepare s)).finished) := by
  have hfit := (length_finishRun_out (SessionCall.finish.prepare s)).trans (by decide : 9 ≤ finishCap)
  rw [runCalls_stream_cons (c := .finish) rfl (.finish hp) hfit, runCalls_nil, Option.map_some, List.append_nil]

theorem sessionEvents_of_no_byte (h : inputBytes s = []) : sessionEvents s = ([], Mtab.cleared) := by
  rw [sessionEvents, h, findEvents]
  split <;> rfl

/-- An input without a byte leaves nothing to record (44_block_encoder R216, R217). -/
theorem Run.recordData_of_no_byte {r : Run} (hinLen : r.st.inLen = 0#32) (hmtab : r.st.mtab = Mtab.cleared) :
    r.recordData = r := by
  have hinput : inputBytes r.st = [] := by rw [inputBytes, hinLen]; rfl
  rw [Run.recordData, sessionEvents_of_no_byte hinput, hinput, sessionChecksum_of_no_byte, hinLen, BitVec.add_zero,
    ← hmtab]

/-- An empty final block is ten bits: one full byte and two bits pending (44_block_encoder R211, R215). -/
theorem pushAll_emptyBlock : pushAll ⟨0#32, 0⟩ (blockPushes true []) = ([0x03#8], ⟨0#32, 2⟩) := by decide

/-- A session INIT has just started, with no byte bound as its input. -/
def emptySession (f : Format) (compEn : Bool) (s : State) : State :=
  feed [] (complete 0#32 (startSession f compEn s))

/-- The run of its ENCODE LAST: the envelope header and the full byte of an empty final block are written, and two bits
are left pending. -/
theorem encodeRun_emptySession (htbl : s.tbl = Tables.contents) (f : Format) (compEn : Bool) :
    encodeRun false (emptySession f compEn s) =
      ⟨{ emptySession f compEn s with phase := .trailerPending, cnt := 2#3 }, envelopeHeader f ++ [0x03#8]⟩ := by
  have hevents : sessionEvents (emptySession f compEn s) = ([], Mtab.cleared) := sessionEvents_of_no_byte rfl
  have hdata : dataPushes (emptySession f compEn s) = [] := by rw [dataPushes, hevents, List.flatMap_nil]
  have hpushes : blockHeader true ++ dataPushes (emptySession f compEn s) ++
      eobPushes (emptySession f compEn s).tbl = blockPushes true [] := by
    rw [hdata, show (emptySession f compEn s).tbl = Tables.contents from htbl]
    rfl
  have hsent : ((Run.start (emptySession f compEn s)).outBytes (envelopeHeader f)).emit (blockPushes true []) =
      ⟨{ emptySession f compEn s with cnt := 2#3 }, envelopeHeader f ++ [0x03#8]⟩ :=
    congrArg ((Run.start (emptySession f compEn s)).outBytes (envelopeHeader f)).takePacked pushAll_emptyBlock
  have hheader : openingHeader (emptySession f compEn s) = envelopeHeader f := rfl
  rw [encodeRun_opens_last rfl, hpushes, hheader, sentRun, hsent, Run.recordData_of_no_byte rfl rfl]
  rfl

/-- ENCODE LAST and FINISH of a session with no byte: FINISH flushes the two pending bits. -/
theorem runCalls_empty (ht : s.tablesReady = true) (htbl : s.tbl = Tables.contents) (f : Format) (compEn : Bool) :
    (runCalls [.last [], .finish] (complete 0#32 (startSession f compEn s))).map Prod.fst =
      some (envelopeHeader f ++ [0x03#8] ++ ([0x00#8] ++ envelopeTrailer f (emptyChecksum f) 0#32)) := by
  have hheader : (envelopeHeader f).length ≤ 10 := length_openingHeader (emptySession f compEn s)
  have hlast : StreamRun (emptySession f compEn s) (.encode 0#1) (encodeRun false (emptySession f compEn s)) :=
    .encode 0#1 ht rfl
  rw [encodeRun_emptySession htbl] at hlast
  have hfit : (envelopeHeader f ++ [0x03#8]).length ≤ 12 := by
    rw [List.length_append, List.length_singleton]
    omega
  rw [runCalls_stream_cons (c := .last []) rfl hlast hfit, runCalls_finish rfl]
  rfl

/-- Settles O52: header, body and trailer of each format, and the body holds an empty final block and six bits of
padding. -/
theorem emptySessionStreams : Obligations.EmptySessionStreams := by
  unfold Obligations.EmptySessionStreams
  intro s level ht htbl stream
  have hstream (f : Format) : stream (formatCode f) =
      some (envelopeHeader f ++ [0x03#8] ++ ([0x00#8] ++ envelopeTrailer f (emptyChecksum f) 0#32)) := by
    simp only [stream, runSession, exec_init]
    exact runCalls_empty ht htbl f _
  have hbits : streamBits [0x03#8, 0x00#8] = pushBits (blockPushes true []) ++ List.replicate 6 false := by decide
  exact ⟨hstream .raw, hstream .zlib, hstream .gzip, _,
    inflate_of_streamBits (inflatesTo_final (by simp) rfl) hbits, by decide⟩

end Sys2Proof.Machine
end

/-! ## Everything a command can answer, with the cause of each violation (60_exceptions R260 to R267, R270) -/

section
namespace Sys2Proof.Machine

variable {i : Instr} {s t : State}

/-- The commands that use TBL: ENCODE and the four checksum commands (60_exceptions R263). -/
def needsTables : Instr → Bool
  | .encode _ => true
  | .crc32Byte _ => true
  | .crc32Block => true
  | .adler32Byte _ => true
  | .adler32Block => true
  | .tblinit => false
  | .init _ _ => false
  | .sendHeader => false
  | .finish => false

/-- The cause behind each completion code but CC_OK (60_exceptions R262 to R264). -/
inductive ViolationCause (i : Instr) (s : State) : Completion → Prop where
  | illegal (hi : i.wellFormed = false) : ViolationCause i s .illegal
  | tables (hi : needsTables i = true) (ht : s.tablesReady = false) : ViolationCause i s .tables
  | phase (hp : phaseRefuses i s.phase = true) : ViolationCause i s .phase

/-- What `exec` answers: a violation with its cause, a completion, or the end of a legal stream command. -/
inductive ExecAnswer (i : Instr) (s : State) : Host.Outcome State Fault Refusal → Prop where
  | violation {code : Completion} (hcause : ViolationCause i s code) : ExecAnswer i s (.next (raiseViolation code s))
  | completed {t : State} (hcc : t.cc = .ok) : ExecAnswer i s (.next t)
  | stream {r : Run} (hr : StreamRun s i r) : ExecAnswer i s r.finish

theorem checksumCommand_of_missing (ht : s.tablesReady = false) (v : Word) :
    checksumCommand v s = raiseViolation .tables s := if_neg (Bool.eq_false_iff.mp ht)

theorem exec_of_tables_missing (hi : needsTables i = true) (ht : s.tablesReady = false) :
    exec i s = .next (raiseViolation .tables s) := by
  have hchecksum (v : Word) : Host.Outcome.next (checksumCommand v s) =
      (.next (raiseViolation .tables s) : Host.Outcome State Fault Refusal) :=
    congrArg _ (checksumCommand_of_missing ht v)
  cases i with
  | encode more => exact if_pos ht
  | crc32Byte byte => exact hchecksum _
  | crc32Block => exact hchecksum _
  | adler32Byte byte => exact hchecksum _
  | adler32Block => exact hchecksum _
  | _ => cases hi

theorem exec_of_phase_refused (ht : needsTables i = true → s.tablesReady = true)
    (hp : phaseRefuses i s.phase = true) : exec i s = .next (raiseViolation .phase s) := by
  cases i with
  | sendHeader => exact if_neg (of_decide_eq_true hp)
  | finish => exact if_neg (of_decide_eq_true hp)
  | encode more =>
    refine exec_encode_refused more (ht rfl) (Bool.eq_false_iff.mpr fun hallowed => ?_)
    rw [encode_accepted more hallowed] at hp
    cases hp
  | _ => cases hp

theorem StreamRun.execAnswer {r : Run} (hr : StreamRun s i r) : ExecAnswer i s (exec i s) := by
  rw [hr.exec_eq]
  exact .stream hr

theorem execAnswer_of_phase_refused (ht : needsTables i = true → s.tablesReady = true)
    (hp : phaseRefuses i s.phase = true) : ExecAnswer i s (exec i s) := by
  rw [exec_of_phase_refused ht hp]
  exact .violation (.phase hp)

theorem execAnswer_checksumCommand (hi : needsTables i = true) (v : Word) :
    ExecAnswer i s (.next (checksumCommand v s)) := by
  cases ht : s.tablesReady with
  | true =>
    rw [checksumCommand_of_ready ht]
    exact .completed rfl
  | false =>
    rw [checksumCommand_of_missing ht]
    exact .violation (.tables hi ht)

theorem execAnswer_init (level : BitVec 1) (fmt : BitVec 2) :
    ExecAnswer (.init level fmt) s (exec (.init level fmt) s) := by
  by_cases hfmt : fmt = 3#2
  · subst hfmt
    exact .violation (.illegal rfl)
  · obtain ⟨f, rfl⟩ := exists_formatCode hfmt
    rw [exec_init]
    exact .completed rfl

theorem execAnswer_encode (more : BitVec 1) : ExecAnswer (.encode more) s (exec (.encode more) s) := by
  cases ht : s.tablesReady with
  | false =>
    rw [exec_of_tables_missing rfl ht]
    exact .violation (.tables rfl ht)
  | true =>
    cases hp : phaseRefuses (.encode more) s.phase with
    | true => exact execAnswer_of_phase_refused (fun _ => ht) hp
    | false => exact (StreamRun.encode more ht (allowsEncode_of_accepts hp)).execAnswer

theorem exec_answer (i : Instr) (s : State) : ExecAnswer i s (exec i s) := by
  cases i with
  | tblinit => exact .completed rfl
  | init level fmt => exact execAnswer_init level fmt
  | sendHeader =>
    by_cases hp : s.phase = .init
    · exact (StreamRun.header hp).execAnswer
    · exact execAnswer_of_phase_refused nofun (decide_eq_true hp)
  | encode more => exact execAnswer_encode more
  | finish =>
    by_cases hp : s.phase = .trailerPending
    · exact (StreamRun.finish hp).execAnswer
    · exact execAnswer_of_phase_refused nofun (decide_eq_true hp)
  | crc32Byte byte => exact execAnswer_checksumCommand rfl _
  | crc32Block => exact execAnswer_checksumCommand rfl _
  | adler32Byte byte => exact execAnswer_checksumCommand rfl _
  | adler32Block => exact execAnswer_checksumCommand rfl _

theorem ExecAnswer.ne_refused {out : Host.Outcome State Fault Refusal} (ha : ExecAnswer i s out) (x : Refusal) :
    out ≠ .refused x := by
  cases ha with
  | violation hcause => exact nofun
  | completed hcc => exact nofun
  | stream hr => exact Run.finish_not_refused _ x

theorem ExecAnswer.of_fault {out : Host.Outcome State Fault Refusal} {f : Fault} (ha : ExecAnswer i s out)
    (h : out = .fault f) : f = .obufOverflow ∧ ∃ r, StreamRun s i r := by
  cases ha with
  | violation hcause => cases h
  | completed hcc => cases h
  | stream hr => exact ⟨Run.finish_fault h, _, hr⟩

/-- A command that does not complete had a cause for its code, and its next state is the violation's. -/
theorem ExecAnswer.of_violation {out : Host.Outcome State Fault Refusal} (ha : ExecAnswer i s out) (h : out = .next t)
    (hcc : t.cc ≠ .ok) : ViolationCause i s t.cc ∧ t = raiseViolation t.cc s := by
  cases ha with
  | violation hcause =>
    cases h
    exact ⟨hcause, rfl⟩
  | completed hok =>
    cases h
    exact absurd hok hcc
  | stream hr =>
    obtain ⟨-, rfl⟩ := Run.finish_next h
    exact absurd rfl hcc

theorem exec_violation (h : exec i s = .next t) (hcc : t.cc ≠ .ok) :
    ViolationCause i s t.cc ∧ t = raiseViolation t.cc s :=
  (exec_answer i s).of_violation h hcc

/-- Settles O39: a fault is the end of a stream command that did not fit, and every other answer is a next state. -/
theorem overflowIsTheOnlyFault : Obligations.OverflowIsTheOnlyFault := by
  unfold Obligations.OverflowIsTheOnlyFault
  refine fun i s => ⟨(exec_answer i s).ne_refused, fun f h => ?_⟩
  obtain ⟨hf, r, hr⟩ := (exec_answer i s).of_fault h
  exact ⟨hf, hr.instr_cases⟩

/-- Settles O40: the five commands are those that need the tables, and CC_TABLES has no other cause. -/
theorem tablesMissingIsDetected : Obligations.TablesMissingIsDetected := by
  unfold Obligations.TablesMissingIsDetected
  constructor
  · intro s i ht hi
    have hneeds : needsTables i = true := by
      obtain ⟨more, rfl⟩ | ⟨b, rfl⟩ | rfl | ⟨b, rfl⟩ | rfl := hi <;> rfl
    exact exec_of_tables_missing hneeds ht
  · intro s t i hi h hcc
    have hnot : needsTables i = false := by
      obtain rfl | ⟨l, f, rfl⟩ | rfl | rfl := hi <;> rfl
    obtain ⟨hcause, -⟩ := exec_violation h (by simp [hcc])
    rw [hcc] at hcause
    cases hcause with
    | tables hneeds ht => exact absurd hneeds (by simp [hnot])

/-- Settles O41: of the commands that can be refused in a phase only ENCODE needs the tables, and CC_PHASE has no other
cause. -/
theorem phaseTable : Obligations.PhaseTable := by
  unfold Obligations.PhaseTable
  intro s i hencode
  constructor
  · intro hp
    refine exec_of_phase_refused (fun hneeds => ?_) hp
    cases i with
    | encode more => exact hencode more rfl
    | sendHeader => cases hneeds
    | finish => cases hneeds
    | _ => cases hp
  · intro haccept t h hcc
    obtain ⟨hcause, -⟩ := exec_violation h (by simp [hcc])
    rw [hcc] at hcause
    cases hcause with
    | phase hp => exact absurd hp (by simp [haccept])

/-- Settles O42: a word that spells no command raises the same violation as a command can. -/
theorem violationsChangeNothingElse : Obligations.ViolationsChangeNothingElse := by
  unfold Obligations.ViolationsChangeNothingElse
  intro w s t h hcc
  cases hw : decode w with
  | ok i =>
    rw [runWord_of_decode hw] at h
    exact (exec_violation h hcc).2
  | error e =>
    rw [runWord, hw] at h
    cases h
    rfl

end Sys2Proof.Machine
end

/-! ## The phase graph (60_exceptions R275) -/

section
namespace Sys2Proof.Machine

variable {i : Instr} {s t : State}

theorem tablesReady_of_completed (h : exec i s = .next t) (hcc : t.cc = .ok) (hi : needsTables i = true) :
    s.tablesReady = true := by
  by_contra ht
  rw [exec_of_tables_missing hi (Bool.eq_false_iff.mpr ht)] at h
  cases h
  cases hcc

theorem phaseCode_le_encodeExit (p : Phase) (n : Nat) (more : Bool) :
    (phaseCode p).toNat ≤ (phaseCode (encodeExit p n more)).toNat := by
  cases p <;> cases n <;> cases more <;> simp [encodeExit, phaseCode]

/-- Every edge but INIT's leads to a phase with the same or a greater number. -/
theorem phaseCode_le_phaseAfter (hinit : ∀ l f, i ≠ .init l f) (haccept : phaseRefuses i s.phase = false) :
    (phaseCode s.phase).toNat ≤ (phaseCode (phaseAfter i s)).toNat := by
  cases i with
  | init level fmt => exact absurd rfl (hinit level fmt)
  | encode more => exact phaseCode_le_encodeExit _ _ _
  | sendHeader =>
    have hp : s.phase = .init := by simpa [phaseRefuses] using haccept
    simp [hp, phaseAfter, phaseCode]
  | finish =>
    have hp : s.phase = .trailerPending := by simpa [phaseRefuses] using haccept
    simp [hp, phaseAfter, phaseCode]
  | _ => exact le_rfl

/-- Settles O43: a completed command follows its edge, a refused one keeps the phase. -/
theorem phaseGraph : Obligations.PhaseGraph := by
  unfold Obligations.PhaseGraph
  intro i s t h
  have hkept (hcc : t.cc ≠ .ok) : t.phase = s.phase := by rw [(exec_violation h hcc).2, raiseViolation_phase]
  refine ⟨fun hcc => ?_, hkept, fun hinit => ?_⟩
  · obtain ⟨haccept, hphase⟩ := exec_phase_edge h hcc
    exact ⟨haccept, fun ⟨more, hi⟩ => tablesReady_of_completed h hcc (hi ▸ rfl), hphase⟩
  · by_cases hcc : t.cc = .ok
    · obtain ⟨haccept, hphase⟩ := exec_phase_edge h hcc
      rw [hphase]
      exact phaseCode_le_phaseAfter hinit haccept
    · rw [hkept hcc]

end Sys2Proof.Machine
end

/-! ## The flags and TBL through a step (60_exceptions R268; 40_tables_init R145; 70_reset_and_hazards R306) -/

section
namespace Sys2Proof.Machine

variable {s t : State}

/-- `viol` is not cleared, and `tables_ready` and TBL stay as they are once set. -/
def FlagsKept (s t : State) : Prop :=
  (s.viol = true → t.viol = true) ∧ (s.tablesReady = true → t.tablesReady = true ∧ t.tbl = s.tbl)

theorem flagsKept_of_eq (hviol : t.viol = s.viol) (hready : t.tablesReady = s.tablesReady) (htbl : t.tbl = s.tbl) :
    FlagsKept s t :=
  ⟨hviol.trans, fun ht => ⟨hready.trans ht, htbl⟩⟩

theorem exec_flagsKept {i : Instr} (h : exec i s = .next t) : FlagsKept s t := by
  obtain ⟨-, -, -, -, -, -, -, -, hviol, hready, -, htbl, -⟩ := commandFrame i s t h
  exact ⟨hviol, fun ht => ⟨hready ht, htbl (.inr ht)⟩⟩

theorem writeReg_flagsKept (s : State) (r : Reg) (v : Word) : FlagsKept s (writeReg s r v) := by
  cases r <;> exact flagsKept_of_eq rfl rfl rfl

/-- Settles O47: of the actions that are no reset only a write of CMD touches the flags, and a command keeps them. -/
theorem onlyResetClearsTheFlags : Obligations.OnlyResetClearsTheFlags := by
  unfold Obligations.OnlyResetClearsTheFlags
  intro s t h hreset hresetDuring
  change FlagsKept s t
  cases step_cases h with
  | wait hs => exact flagsKept_of_eq rfl rfl rfl
  | command w i rest u hw hs hu =>
    have hkept : FlagsKept { s with script := rest } u := exec_flagsKept hu
    exact hkept
  | illegal w e rest hw hs => exact ⟨fun _ => rfl, fun ht => ⟨ht, rfl⟩⟩
  | write o r v rest hs hr hne => exact writeReg_flagsKept { s with script := rest } r v
  | read o r rest hs hr => exact flagsKept_of_eq rfl rfl rfl
  | bindInput bytes rest hs => exact flagsKept_of_eq rfl rfl rfl
  | bindOutput bytes rest hs => exact flagsKept_of_eq rfl rfl rfl
  | reset rest hs => exact absurd hs (hreset rest)
  | resetDuring w rest hs n hn => exact absurd hs (hresetDuring w rest)

end Sys2Proof.Machine
end

/-! ## The capacity contract (70_reset_and_hazards R297, R298) -/

section
namespace Sys2Proof.Machine

variable {s : State}

theorem length_headerRun_out (hp : s.phase = .init) : (headerRun s).out.length ≤ sendHeaderCap := by
  have hheader : (headerRun s).out = openingHeader s := by simp [headerRun, openingHeader, hp]
  exact hheader ▸ length_openingHeader s

theorem length_encodeRun_out_le_wce (hs : s.Sound) (ht : s.tablesReady = true) (hp : s.phase.allowsEncode = true)
    (more : Bool) : (encodeRun more s).out.length ≤ wce s.inLen.toNat := by
  rw [encodeRun_eq_encodeOutput more hp]
  exact length_encodeOutput_le_wce (hs.tablesFilled ht) (fun h => hs.aligned (or_assoc.mp (.inl h))) more hp

/-- The capacity a stream command is owed is enough for what it writes. -/
theorem StreamRun.fits_of_capacityKept {i : Instr} {r : Run} (hr : StreamRun s i r) (hs : s.Sound)
    (hcap : capacityKept i s = true) : r.out.length ≤ s.outCap.toNat := by
  cases hr with
  | header hp => exact (length_headerRun_out hp).trans (of_decide_eq_true hcap)
  | finish hp =>
    have hfinish : (finishRun s).out.length ≤ finishCap := (length_finishRun_out s).trans (by decide)
    exact hfinish.trans (of_decide_eq_true hcap)
  | encode more ht hp => exact (length_encodeRun_out_le_wce hs ht hp _).trans (of_decide_eq_true hcap)

theorem exec_next_of_capacityKept {i : Instr} (hs : s.Sound) (hcap : capacityKept i s = true) :
    ∃ t, exec i s = .next t := by
  cases hout : exec i s with
  | next t => exact ⟨t, rfl⟩
  | fault f =>
    obtain ⟨-, r, hr⟩ := (exec_answer i s).of_fault hout
    rw [hr.exec_of_fits (hr.fits_of_capacityKept hs hcap)] at hout
    cases hout
  | refused x => exact absurd hout ((exec_answer i s).ne_refused x)

theorem encode_result_le_wce {t : State} {more : BitVec 1} (hs : s.Sound) (h : exec (.encode more) s = .next t)
    (hcc : t.cc = .ok) : t.result.toNat ≤ wce s.inLen.toNat := by
  cases exec_cases h with
  | violation _ code hc => exact absurd hcc hc
  | stream _ r hr hfit =>
    rw [Run.finished_result hfit]
    cases hr with
    | encode _ ht hp => exact length_encodeRun_out_le_wce hs ht hp _

/-- Settles O38: of all answers only the overflow of a stream command is no next state, and its capacity excludes it. -/
theorem capacityContractPreventsOverflow : Obligations.CapacityContractPreventsOverflow := by
  unfold Obligations.CapacityContractPreventsOverflow
  intro s i hs hcap
  obtain ⟨t, ht⟩ := exec_next_of_capacityKept hs hcap
  refine ⟨t, ht, ?_⟩
  rintro more rfl hcc
  exact encode_result_le_wce hs ht hcc

end Sys2Proof.Machine
end

/-! ## The hardware reset, between and during commands (70_reset_and_hazards R290) -/

section
namespace Sys2Proof.Machine

variable {s t : State} {w : Word}

theorem step_reset {rest : List HostAction} (hs : s.script = .reset :: rest) :
    step s = .next (hardwareReset { s with script := rest }) := by
  rw [step, takeNext, hs]
  rfl

/-- Settles O11: the state after is the reset state but for what `hardwareReset` keeps. -/
theorem hardwareResetLeavesBuffers : Obligations.HardwareResetLeavesBuffers := by
  unfold Obligations.HardwareResetLeavesBuffers
  intro s rest hs
  obtain ⟨inLen, outCap, seed, result, tablesReady, viol, cc, phase, compEn, format, pend, cnt, checksum, totalIn, mtab,
    -⟩ := resetValues
  exact ⟨_, step_reset hs, rfl, rfl, rfl, rfl, rfl, rfl, inLen, outCap, seed, result, tablesReady, viol, cc, phase,
    compEn, format, pend, cnt, checksum, totalIn, mtab⟩

theorem step_resetDuring {rest : List HostAction} (hs : s.script = .resetDuring w :: rest) :
    step s = cutOff w { s with script := rest } := by
  rw [step, takeNext, hs]
  rfl

theorem bytesWritten_le_result (w : Word) (t : State) : bytesWritten w t ≤ t.result.toNat := by
  unfold bytesWritten
  split
  · split
    · exact Nat.le_refl _
    · exact Nat.zero_le _
  · exact Nat.zero_le _

theorem instr_of_writesOutput {i : Instr} (h : writesOutput i = true) :
    i = .sendHeader ∨ i = .finish ∨ ∃ more, i = .encode more := by
  cases i with
  | sendHeader => exact .inl rfl
  | finish => exact .inr (.inl rfl)
  | encode more => exact .inr (.inr ⟨more, rfl⟩)
  | _ => cases h

/-- A refused command, and one that is none of SEND_HEADER, FINISH and ENCODE, writes no byte (20_memory R64). -/
theorem bytesWritten_eq_zero {i : Instr} (hw : decode w = .ok i)
    (h : t.cc ≠ .ok ∨ (i ≠ .sendHeader ∧ i ≠ .finish ∧ ∀ more, i ≠ .encode more)) : bytesWritten w t = 0 := by
  simp only [bytesWritten, hw, Bool.and_eq_true, decide_eq_true_eq]
  rw [if_neg]
  rintro ⟨hwrites, hcc⟩
  obtain hrefused | ⟨hheader, hfinish, hencode⟩ := h
  · exact hrefused hcc
  · obtain hi | hi | ⟨more, hi⟩ := instr_of_writesOutput hwrites
    · exact hheader hi
    · exact hfinish hi
    · exact hencode more hi

/-- Settles O12: the free values stand from index 0 on, as many as the whole command would have written. -/
theorem resetCutsACommandOff : Obligations.ResetCutsACommandOff := by
  unfold Obligations.ResetCutsACommandOff
  intro s u i rest hi hs hexec
  have hdecode := decodeReadsBackEveryCommand i hi
  have hrun : runWord (encode i) { s with script := rest } = .next u := (runWord_of_decode hdecode _).trans hexec
  have hcap : bytesWritten (encode i) u ≤ s.outCap.toNat :=
    bytesWritten_le (s := { s with script := rest }) hrun
  have hindex : s.outCap.toNat < Config.indexSpace := s.outCap.isLt
  have hresult := bytesWritten_le_result (encode i) u
  refine ⟨_, by rw [step_resetDuring hs, cutOff, hrun], rfl, fun hwf => ?_, fun a ha => ?_, fun hnone => ?_⟩
  · exact Memory.wf_storeFrom _ hwf 0 (by rw [List.length_map, List.length_range]; omega)
  · exact (Memory.read_storeFrom _ _ _ _).trans (if_neg (by rw [List.length_map, List.length_range]; omega))
  · simp only [bytesWritten_eq_zero hdecode hnone, List.range_zero, List.map_nil, Memory.storeFrom]

end Sys2Proof.Machine
end

/-! ## Pieces of fewer than 4 bytes (70_reset_and_hazards R303) -/

section
namespace Sys2Proof.Machine

variable {hash : Byte → Byte → Byte → SlotIndex} {input : List Byte} {pos : Nat} {m : Mtab}

/-- Of fewer than 4 bytes only position 0 can have three bytes left, and there the table is still empty. -/
theorem find_short (h : input.length < 4) (hm : pos = 0 → m = Mtab.cleared) :
    (find hash input pos m).1 = literalAt input pos := by
  by_cases hpos : pos = 0
  · rw [hm hpos, find_cleared]
  · apply find_of_hashAt_none
    by_contra hsome
    obtain ⟨k, hk⟩ := Option.ne_none_iff_exists'.mp hsome
    have := hashAt_some hk
    omega

theorem findLoop_at_end_literals (fuel : Nat) (h : input.length ≤ pos) :
    (findLoop hash input fuel pos m).1 = (input.drop pos).map Event.literal := by
  rw [findLoop_at_end hash fuel m h, List.drop_eq_nil_of_le h, List.map_nil]

theorem findLoop_short (h : input.length < 4) (fuel : Nat) (hfuel : input.length ≤ pos + fuel)
    (hm : pos = 0 → m = Mtab.cleared) : (findLoop hash input fuel pos m).1 = (input.drop pos).map Event.literal := by
  induction fuel generalizing pos m with
  | zero => exact findLoop_at_end_literals 0 hfuel
  | succ fuel ih =>
    obtain hend | hlt := le_or_gt input.length pos
    · exact findLoop_at_end_literals _ hend
    · rw [findLoop_of_lt hash fuel m hlt, find_short h hm, literalAt, Event.span,
        ih (by omega) fun hz => absurd hz (Nat.succ_ne_zero pos), List.drop_eq_getElem_cons hlt, List.map_cons,
        List.getD_eq_getElem _ _ hlt]

/-- Settles O23: without the finder all bytes are literals, and with it the loop finds no candidate. -/
theorem shortPiecesAreLiterals : Obligations.ShortPiecesAreLiterals := by
  unfold Obligations.ShortPiecesAreLiterals
  intro hash compEn input h
  cases compEn with
  | false => rfl
  | true => exact findLoop_short h input.length (Nat.le_add_left _ _) fun _ => rfl

end Sys2Proof.Machine
end
